-- ==== Sys2Proof/Word.lean ====
section
/-! DEFINITION. The words the block moves (R51, R52, R55). These are types only: everything computed from them stands in
Decode.lean and Machine/. -/

namespace Sys2Proof

/-- One 32-bit word of a command or response frame (R51, R70). -/
abbrev Word := BitVec 32

/-- One byte of a word as it is transferred (R52). -/
abbrev Byte := BitVec 8

/-- A 64-bit time tag (R88). -/
abbrev TimeTag := BitVec 64

/-- The narrowband mode (R3, R22): the source names two. -/
inductive Mode where
  | tbn
  | drx
  deriving DecidableEq, Repr, Inhabited

/-- An antenna's polarization (R82, R170). -/
inductive Polarization where
  | x
  | y
  deriving DecidableEq, Repr, Inhabited

end Sys2Proof
end

