-- ==== Sys2Proof/Machine/Exact.lean ====
section
/-! DEFINITION. Exact sample arithmetic (R8, R15) and the filtering primitives every datapath rule uses (R17). The datapath is
written once, over any arithmetic. The block's is that of the real and the complex numbers (Machine/Oscillator.lean). That of the
rationals and of rational sums of roots of unity (Machine/Cyclotomic.lean) can be evaluated, and the test vectors run there. -/

namespace Sys2Proof

/-- `ceil(a / b)` for a positive b (R12). -/
def ceilDiv (a b : Nat) : Nat := (a + b - 1) / b

end Sys2Proof

namespace Sys2Proof.Machine

/-- What the filtering primitives need of samples of type K and taps of type S. -/
structure StreamOps (S K : Type) where
  zero : K
  add : K → K → K
  neg : K → K
  scale : S → K → K

/-- An arithmetic: real values R, complex values C, and the product with an oscillator value. -/
structure Arith (R C : Type) where
  /-- A rational number as a real one (R15) -/
  ofRat : Rat → R
  /-- A complex number from its two parts -/
  ofParts : R → R → C
  /-- Real samples under real taps: the beam path -/
  real : StreamOps R R
  /-- Complex samples under real taps: the narrowband path -/
  complex : StreamOps R C
  /-- `x · exp(-i·2π·phi/2^32)` (R141, R142) -/
  rotate : BitVec 32 → C → C

variable {S K : Type}

/-- Σ over a list, 0 when it is empty (R14). -/
def StreamOps.sum (o : StreamOps S K) (xs : List K) : K := xs.foldr o.add o.zero

/-- `x[n]` of a stream inside a filtering sum, 0 outside it (R14). -/
def StreamOps.sampleAt (o : StreamOps S K) (xs : List K) (n : Nat) : K := xs.getD n o.zero

/-- `a - b`. -/
def StreamOps.sub (o : StreamOps S K) (a b : K) : K := o.add a (o.neg b)

/-- One summand of a filter's output: tap times sample. -/
def StreamOps.term (o : StreamOps S K) (x : List K) (n : Nat) (hk : S × Nat) : K :=
  if hk.2 ≤ n then o.scale hk.1 (o.sampleAt x (n - hk.2)) else o.zero

/-- Output n of `FIRF(h, x)`: Σ over the taps k of h[k]·x[n-k], with x[n-k] = 0 where n < k (R17). -/
def StreamOps.firAt (o : StreamOps S K) (h : List S) (x : List K) (n : Nat) : K := o.sum (h.zipIdx.map (o.term x n))

/-- `FIRF(h, x)`: the causal filter from zero state, as long as its input (R17). -/
def StreamOps.firf (o : StreamOps S K) (h : List S) (x : List K) : List K := (List.range x.length).map (o.firAt h x)

/-- `DECIM(y, D)`: y[0], y[D], y[2D], …, ceil(L / D) samples in all (R17). -/
def StreamOps.decim (o : StreamOps S K) (y : List K) (d : Nat) : List K :=
  (List.range (ceilDiv y.length d)).map (fun j => o.sampleAt y (j * d))

end Sys2Proof.Machine
end

