-- ==== Sys2Proof/Machine/Parameters.lean ====
section
/-! DEFINITION. What is fixed for one block (R9): sizes, the shapes of the coefficient tables, and the parameters as data, over
real values R and complex values C. Config.lean says which parameters a block may have, and holds this block's. -/

namespace Sys2Proof

/-- Delay-FIR channels (R9). -/
abbrev NCHAN : Nat := 520
/-- Fractional-delay phases of one channel (R9). -/
abbrev NPHASE : Nat := 16
/-- Taps of one fractional-delay filter (R9). -/
abbrev NTAPS : Nat := 32
/-- `GAIN_SCALE` of R9: the gain a code k stands for is k / 32767. -/
abbrev GAIN_SCALE : Nat := 32767
/-- `DFIR_NORM` of R9: the divisor of the fractional-delay taps. -/
abbrev DFIR_NORM : Nat := 32767
/-- `F_MIN` of R9, in Hz. -/
abbrev F_MIN : Nat := 10000000
/-- `F_MAX` of R9, in Hz. -/
abbrev F_MAX : Nat := 88000000

/-- One fractional-delay filter: 32 signed 16-bit taps (R27, R87). -/
abbrev DelayFilter := Vector (BitVec 16) NTAPS
/-- The 16 filters of one channel, indexed by fractional-delay phase (R27). -/
abbrev ChannelBank := Vector DelayFilter NPHASE
/-- The whole store `BANK` (R27): channel c of 1..NCHAN is at index c - 1. -/
abbrev Bank := Vector ChannelBank NCHAN

/-- One set of decimator coefficients (R120), with the constraints R120 states. -/
structure FilterPack (R : Type) where
  cic : List Int
  cicD : Nat
  fir : List R
  firD : Nat
  totalD : Nat
  cic_nonempty : cic ≠ [] := by simp
  fir_nonempty : fir ≠ [] := by simp
  cicD_pos : 1 ≤ cicD := by decide
  firD_pos : 1 ≤ firD := by decide
  totalD_eq : totalD = cicD * firD := by rfl

/-- `FILTER_TABLE` (R29, R121): one pack for each of the eight supported pairs (R10) and nothing else. A table that breaks
R122 has no value of this type. -/
structure FilterTable (R : Type) where
  tbn5 : FilterPack R
  tbn6 : FilterPack R
  tbn7 : FilterPack R
  drx3 : FilterPack R
  drx4 : FilterPack R
  drx5 : FilterPack R
  drx6 : FilterPack R
  drx7 : FilterPack R
  tbn7_totalD : tbn7.totalD = 1960 := by rfl

/-- `SAMPLE_FORMAT` (R9, R80): how many words a complex and a real sample take, the exact value they stand for, and how an exact
value is written; `dec` answers nothing for words that do not decode (R149, R179 reason 9). The encoders fill exactly the words
of a sample. What R80 assumes of `dec` and `enc` together stands in Config.lean. -/
structure SampleFormat (R C : Type) where
  swC : Nat
  swR : Nat
  decC : List Word → Option C
  encC : C → List Word
  decR : List Word → Option R
  encR : R → List Word
  encC_length : ∀ v, (encC v).length = swC := by intro v; rfl
  encR_length : ∀ v, (encR v).length = swR := by intro v; rfl

/-- The parameters of R9 that a block fixes. `fsHz` is `FS_HZ`. The size limits are those of R9 and R223. -/
structure Params (R C : Type) where
  fsHz : R
  twMin : Word
  twMax : Word
  filterTable : FilterTable R
  defaultDelayFir : Bank
  fmt : SampleFormat R C
  maxStreams : Nat
  maxLen : Nat
  maxAnt : Nat
  maxRows : Nat
  maxStreams_pos : 1 ≤ maxStreams := by decide
  maxStreams_le : maxStreams ≤ 65536 := by decide
  maxLen_pos : 1 ≤ maxLen := by decide
  maxAnt_pos : 1 ≤ maxAnt := by decide
  maxAnt_le : maxAnt ≤ 65536 := by decide
  maxRows_pos : 1 ≤ maxRows := by decide
  maxRows_le : maxRows ≤ 65536 := by decide

end Sys2Proof
end

