-- ==== Sys2Proof/Syntax.lean ====
section
/-! DEFINITION. The nine commands of the opcode map (R72), one constructor per row of spec/opcode_table.json, with the fields
their frames carry (R73 to R83). Every count and every code stands as the frame holds it: a command with a bad one is
decoded normally and refused by its own rule (R94). -/

namespace Sys2Proof

/-- The coefficient block of format DFIR (R77): `lists` = P, `length` = T and the taps in the order of their flat index
j = p·T + k. -/
structure TapBlock where
  lists : BitVec 16
  length : BitVec 16
  taps : List (BitVec 16)
  deriving DecidableEq, Repr

/-- One antenna record (R82). -/
structure AntennaRecord where
  channel : BitVec 16
  pol : BitVec 8
  stand : BitVec 16
  delay : BitVec 16
  deriving DecidableEq, Repr, Inhabited

/-- One gain row (R83): the codes of XofX, XofY, YofX and YofY. -/
structure GainRow where
  xx : BitVec 16
  xy : BitVec 16
  yx : BitVec 16
  yy : BitVec 16
  deriving DecidableEq, Repr, Inhabited

/-- A command of the block. `samples` are the words of all samples in frame order (R79, R81): which words are one sample, and
what it stands for, is `SAMPLE_FORMAT`'s (R80). -/
inductive Instr where
  /-- `CONFIGURE m, f, tw` (R73, R200) -/
  | configure (m f : BitVec 8) (tw : Word)
  /-- `SET_MODE m` (R74, R201) -/
  | setMode (m : BitVec 8)
  /-- `SET_FILTER f` (R75, R202) -/
  | setFilter (f : BitVec 8)
  /-- `SET_CFREQ tw` (R76, R203) -/
  | setCfreq (tw : Word)
  /-- `DFIR.CH c, bank` (R77, R125) -/
  | dfirCh (c : BitVec 16) (block : TapBlock)
  /-- `DFIR.ALL bank` (R77, R126) -/
  | dfirAll (block : TapBlock)
  /-- `DFIR.RESET` (R78, R127) -/
  | dfirReset
  /-- `DDC tags, streams` (R79, R149): `count` = S, `len` = L -/
  | ddc (count len : Word) (tags : List TimeTag) (samples : List Word)
  /-- `BEAMFORM antennas, gains, samples` (R81, R177): `ants` = A, `len` = L, `nrows` = G -/
  | beamform (ants len nrows : Word) (records : List AntennaRecord) (rows : List GainRow) (samples : List Word)
  deriving DecidableEq, Repr

end Sys2Proof
end

