-- ==== Sys2Proof/Machine/Operands.lean ====
section
/-! DEFINITION. What a field of a frame denotes (R55, R84 to R88, R96), and how samples and coefficients are read from a
command's operands (R77, R80). -/

namespace Sys2Proof.Machine

/-! ## Lists of checks -/

/-- All the values, or the first error in list order: R228's "first failing item". -/
def collect {ε α : Type} : List (Except ε α) → Except ε (List α)
  | [] => .ok []
  | .error e :: _ => .error e
  | .ok a :: rest =>
    match collect rest with
    | .error e => .error e
    | .ok as => .ok (a :: as)

/-- All the values, where every one is there. -/
def allSome {α : Type} : List (Option α) → Option (List α)
  | [] => some []
  | none :: _ => none
  | some a :: rest => (allSome rest).map (a :: ·)

/-! ## Codes -/

/-- The mode a mode code names: 0 is TBN, 1 is DRX, the others name none (R22, R73). -/
def modeOf? (m : BitVec 8) : Option Mode := if m = 0 then some .tbn else if m = 1 then some .drx else none

/-- `MODE` as its one-bit code (R22). -/
def modeCode : Mode → BitVec 1
  | .tbn => 0
  | .drx => 1

/-- The polarization a code names, by strict equality: 0 is X, 1 is Y (R82, R175, R179). -/
def polarizationOf? (pol : BitVec 8) : Option Polarization := if pol = 0 then some .x else if pol = 1 then some .y else none

/-- The index in `BANK` of a channel 1..NCHAN, and nothing for the others: `check_channel` (R27, R129). -/
def channelIndex? (c : BitVec 16) : Option (Fin NCHAN) :=
  if h : 1 ≤ c.toNat ∧ c.toNat ≤ NCHAN then some ⟨c.toNat - 1, by omega⟩ else none

/-! ## Fields -/

/-- `coarse = F[15:4]` of a delay word (R84). -/
def coarseDelay (f : BitVec 16) : Nat := (f.extractLsb' 4 12).toNat

/-- `fine = F[3:0]` of a delay word (R84). -/
def finePhase (f : BitVec 16) : Fin NPHASE := (f.extractLsb' 0 4).toFin

/-- The integer a delay-FIR tap stands for: `sext(v)` (R87). -/
def tapValue (v : BitVec 16) : Int := v.toInt

/-- The gain a code stands for, k / 32767 (R85, R171). -/
def gainValue (k : BitVec 16) : Rat := (k.toNat : Rat) / (GAIN_SCALE : Rat)

/-! ## Coefficients -/

/-- The tap k of list p of a coefficient block, at flat index p·T + k (R77). -/
def blockTap (b : TapBlock) (p k : Nat) : BitVec 16 := b.taps.getD (p * b.length.toNat + k) 0

/-- The 16 filters of 32 taps that a block of that shape holds (R125). -/
def channelBankOf (b : TapBlock) : ChannelBank := Vector.ofFn (fun p => Vector.ofFn (fun k => blockTap b p.val k.val))

/-- One tap of `BANK` (R27). -/
def bankTap (bank : Bank) (c : Fin NCHAN) (p : Fin NPHASE) (k : Fin NTAPS) : Int := tapValue bank[c][p][k]

/-! ## Samples (R80) -/

/-- The words of sample j among samples of `sw` words each (R79, R81). -/
def sampleWords (sw : Nat) (samples : List Word) (j : Nat) : List Word := (samples.drop (j * sw)).take sw

/-- Stream r of a batch of streams of L complex samples: sample n is sample r·L + n of the frame (R79); nothing if one of them
does not decode. -/
def readComplexStream {R C : Type} (fmt : SampleFormat R C) (samples : List Word) (len r : Nat) : Option (List C) :=
  allSome ((List.range len).map (fun n => fmt.decC (sampleWords fmt.swC samples (r * len + n))))

/-- The real stream of antenna a, laid out in the same way (R81). -/
def readRealStream {R C : Type} (fmt : SampleFormat R C) (samples : List Word) (len a : Nat) : Option (List R) :=
  allSome ((List.range len).map (fun n => fmt.decR (sampleWords fmt.swR samples (a * len + n))))

end Sys2Proof.Machine
end

