-- ==== Sys2Proof/Machine/BeamPath.lean ====
section
/-! DEFINITION. The beam path (R170 to R176): the checked antennas of a BEAMFORM, and what becomes of their samples. -/

namespace Sys2Proof.Machine

/-- A checked antenna (R170): its channel, polarization, gain row, delays and samples. -/
structure Antenna (R : Type) where
  channel : Fin NCHAN
  pol : Polarization
  gains : GainRow
  coarse : Nat
  fine : Fin NPHASE
  samples : List R
  deriving DecidableEq, Repr

/-- The two running sums `BX` and `BY` (R175). -/
structure Beams (R : Type) where
  x : List R
  y : List R
  deriving DecidableEq, Repr

/-! ## The datapath -/

section Datapath

variable {R C : Type} (A : Arith R C)

/-- The coarse delay: `u[n] = x[(n - coarse) mod L]`, a circular shift (R172). -/
def coarseShift (coarse : Nat) (x : List R) : List R :=
  (List.range x.length).map (fun n => A.real.sampleAt x (((n : Int) - (coarse : Int)) % (x.length : Int)).toNat)

/-- The filter `BANK[c][p]` as the taps h[k] / 32767 of R173. -/
def delayTaps (bank : Bank) (c : Fin NCHAN) (p : Fin NPHASE) : List R :=
  (List.finRange NTAPS).map (fun k => A.ofRat ((bankTap bank c p k : Rat) / (DFIR_NORM : Rat)))

/-- The delayed and filtered stream `v` of an antenna (R172, R173). -/
def antennaStream (bank : Bank) (a : Antenna R) : List R :=
  A.real.firf (delayTaps A bank a.channel a.fine) (coarseShift A a.coarse a.samples)

/-- A gain row that excludes its antennas: its four codes sum to 0 (R174). -/
def zeroRow (g : GainRow) : Bool := g.xx.toNat + g.xy.toNat + g.yx.toNat + g.yy.toNat == 0

/-- The gain of an antenna into beamX: XofX for an X antenna, YofX for a Y antenna (R175). -/
def gainToX (a : Antenna R) : Rat :=
  match a.pol with
  | .x => gainValue a.gains.xx
  | .y => gainValue a.gains.yx

/-- The gain of an antenna into beamY: XofY for an X antenna, YofY for a Y antenna (R175). -/
def gainToY (a : Antenna R) : Rat :=
  match a.pol with
  | .x => gainValue a.gains.xy
  | .y => gainValue a.gains.yy

/-- Adds `gain · v` to a running sum, sample by sample (R175). -/
def accumulate (gain : Rat) (v sum : List R) : List R :=
  List.zipWith (fun b w => A.real.add b (A.real.scale (A.ofRat gain) w)) sum v

/-- One antenna's turn: nothing where its row excludes it, else its two weighted contributions (R174, R175). -/
def addAntenna (bank : Bank) (b : Beams R) (a : Antenna R) : Beams R :=
  if zeroRow a.gains then b
  else
    let v := antennaStream A bank a
    ⟨accumulate A (gainToX a) v b.x, accumulate A (gainToY a) v b.y⟩

/-- The sums over all antennas, from 0 (R175). -/
def sumAntennas (bank : Bank) (len : Nat) (ants : List (Antenna R)) : Beams R :=
  ants.foldl (addAntenna A bank) ⟨List.replicate len A.real.zero, List.replicate len A.real.zero⟩

/-- `Dmax`, over every antenna, skipped ones too (R176). -/
def maxCoarse (ants : List (Antenna R)) : Nat := ants.foldr (fun a m => max a.coarse m) 0

/-- The two output beams: the sums without their first `Dmax` samples (R176). -/
def beamsOf (bank : Bank) (len : Nat) (ants : List (Antenna R)) : Beams R :=
  let b := sumAntennas A bank len ants
  ⟨b.x.drop (maxCoarse ants), b.y.drop (maxCoarse ants)⟩

end Datapath

end Sys2Proof.Machine
end

