-- ==== Sys2Proof/Machine/Codec.lean ====
section
/-! DEFINITION. The fixed-point codecs (R100 to R108). The encode functions run on the host; the block uses one of them for its
constants `TW_MIN` and `TW_MAX` (R108). They are written over any ordered field with a floor: at the reals they are R101 to R107 as
the spec has them, at the rationals they can be evaluated. `none` is "no result" (R100). -/

namespace Sys2Proof.Machine

section Codecs

variable {K : Type} [Field K] [LinearOrder K] [FloorRing K]

/-- `round`: the nearest integer, ties to the even one (R13). -/
def roundEven (x : K) : Int :=
  let n := ⌊x⌋
  let d := x - (n : K)
  if d < 1 / 2 then n
  else if 1 / 2 < d then n + 1
  else if n % 2 = 0 then n
  else n + 1

/-- `bswap16` (R11). -/
def bswap16 (v : BitVec 16) : BitVec 16 := v.extractLsb' 0 8 ++ v.extractLsb' 8 8

/-- An integer as an n-bit field, where it is one. -/
def fieldOf? (n : Nat) (k : Int) : Option (BitVec n) :=
  if 0 ≤ k ∧ k < 2 ^ n then some (BitVec.ofInt n k) else none

/-- `frequencyToTuningWord(freq)` (R101). -/
def frequencyToTuningWord (fs freq : K) : Option (BitVec 32) := fieldOf? 32 (roundEven (freq * 2 ^ 32 / fs))

/-- `tuningWordToFrequency(word)` (R102). -/
def tuningWordToFrequency (fs : K) (word : BitVec 32) : K := (word.toNat : K) * fs / 2 ^ 32

/-- The packed delay word `P = (coarse << 4) | fine` of a delay in nanoseconds (R103, R104): the frame's field (R53). -/
def delayField (fs delayNs : K) : Option (BitVec 16) :=
  (fieldOf? 16 (roundEven (delayNs * fs * 16 / 1000000000))).map (fun sample =>
    let coarse : BitVec 12 := BitVec.ofNat 12 (sample.toNat / 16)
    let fine : BitVec 4 := BitVec.ofNat 4 (sample.toNat % 16)
    coarse ++ fine)

/-- `delayToEncoded(delayNs)` (R104): the packed word byte-swapped. -/
def delayToEncoded (fs delayNs : K) : Option (BitVec 16) := (delayField fs delayNs).map bswap16

/-- `encodedToDelay(combined)` in nanoseconds (R105). -/
def encodedToDelay (fs : K) (combined : BitVec 16) : K :=
  let p := bswap16 combined
  ((p.extractLsb' 4 12).toNat + (p.extractLsb' 0 4).toNat / 16) / fs * 1000000000

/-- The gain code k of a gain (R106): the frame's field (R53). -/
def gainField (gain : K) : Option (BitVec 16) :=
  if gain < 0 ∨ 1 < gain then none else fieldOf? 16 (roundEven (gain * 32767))

/-- `gainToEncoded(gain)` (R106): the code byte-swapped. -/
def gainToEncoded (gain : K) : Option (BitVec 16) := (gainField gain).map bswap16

/-- `encodedToGain(combined)` (R107). -/
def encodedToGain (combined : BitVec 16) : K := ((bswap16 combined).toNat : K) / 32767

end Codecs

end Sys2Proof.Machine
end

