-- ==== Sys2Proof/Machine/Narrowband.lean ====
section
/-! DEFINITION. The narrowband path (R140 to R148) and its filter table (R121). Nothing of it is kept between commands (R33). -/

namespace Sys2Proof.Machine

/-- The NCO phase of a time tag: `(tw · t) mod 2^32` (R141). -/
def ncoPhase (tw : BitVec 32) (t : TimeTag) : BitVec 32 := BitVec.ofNat 32 (tw.toNat * t.toNat)

section PerStream

variable {R C : Type} (A : Arith R C)

/-- Step 1: the NCO mix, sample by sample with its tag (R142). -/
def mix (tw : BitVec 32) (tags : List TimeTag) (x : List C) : List C :=
  List.zipWith (fun t v => A.rotate (ncoPhase tw t) v) tags x

/-- The mean of a stream (R143). -/
def mean (m : List C) : C := A.complex.scale (A.ofRat (1 / (m.length : Rat))) (A.complex.sum m)

/-- Step 2: DC removal (R143). -/
def removeDc (m : List C) : List C :=
  let mu := mean A m
  m.map (fun v => A.complex.sub v mu)

/-- Step 3: the CIC filter, decimation by cicD and division by cicD (R146). -/
def cicStage (pack : FilterPack R) (d : List C) : List C :=
  (A.complex.decim (A.complex.firf (pack.cic.map (fun k : Int => A.ofRat (k : Rat))) d) pack.cicD).map
    (A.complex.scale (A.ofRat (1 / (pack.cicD : Rat))))

/-- Step 4: the FIR filter and decimation by firD (R147). -/
def firStage (pack : FilterPack R) (c : List C) : List C := A.complex.decim (A.complex.firf pack.fir c) pack.firD

/-- `engine(x, t, pack, tw)`: the four steps in their order (R140). -/
def engine (pack : FilterPack R) (tw : BitVec 32) (tags : List TimeTag) (x : List C) : List C :=
  firStage A pack (cicStage A pack (removeDc A (mix A tw tags x)))

end PerStream

/-- `Lout = ceil(ceil(L / cicD) / firD)` (R148). -/
def outputLength {R : Type} (pack : FilterPack R) (len : Nat) : Nat := ceilDiv (ceilDiv len pack.cicD) pack.firD

/-- `FILTER_TABLE(mode, filter)`: eight pairs and nothing else (R29, R121). -/
def packOf? {R : Type} (table : FilterTable R) (m : Mode) (f : BitVec 8) : Option (FilterPack R) :=
  match m with
  | .tbn => if f = 5 then some table.tbn5 else if f = 6 then some table.tbn6 else if f = 7 then some table.tbn7 else none
  | .drx =>
    if f = 3 then some table.drx3 else if f = 4 then some table.drx4 else if f = 5 then some table.drx5
    else if f = 6 then some table.drx6 else if f = 7 then some table.drx7 else none

end Sys2Proof.Machine
end

