-- ==== Sys2Proof/Machine/Oscillator.lean ====
section
/-! DEFINITION. The block's arithmetic: the real and the complex numbers (R8, R15), with the oscillator values of R141. `oscillator`
has R141's formula as its type. Mathlib's exp and π have no executable code, which the form of `exec` needs, so the number is given
by rational numbers that converge to it: the n-th is `(1 - i·θ/n)^n`, with θ from the n-th partial sum of Leibniz' series for π.
Nothing else of the model depends on how it is given. -/

open Filter Topology

namespace Sys2Proof.Machine

/-! ## Gaussian rationals that converge to `exp(-i·2π·k/2^32)` -/

/-- The product of two Gaussian rationals, as pairs of parts. -/
def gaussMul (a b : Rat × Rat) : Rat × Rat := (a.1 * b.1 - a.2 * b.2, a.1 * b.2 + a.2 * b.1)

/-- The n-th power. -/
def gaussPow (a : Rat × Rat) : Nat → Rat × Rat
  | 0 => (1, 0)
  | n + 1 => gaussMul (gaussPow a n) a

/-- The n-th term of Leibniz' series for π. -/
def piTerm (n : Nat) : Rat := (if n % 2 = 0 then 4 else -4) / (2 * n + 1)

/-- Its n-th partial sum. -/
def piApprox : Nat → Rat
  | 0 => 0
  | n + 1 => piApprox n + piTerm n

/-- The n-th approximation of `exp(-i·2π·k/2^32)`. -/
def oscApprox (k n : Nat) : Rat × Rat := gaussPow (1, -(2 * piApprox n * k / 2 ^ 32) / n) n

/-- The complex number of a pair. -/
noncomputable def gaussValue (a : Rat × Rat) : ℂ := ⟨(a.1 : ℝ), (a.2 : ℝ)⟩

theorem gaussValue_mul (a b : Rat × Rat) : gaussValue (gaussMul a b) = gaussValue a * gaussValue b := by
  apply Complex.ext <;> simp [gaussValue, gaussMul]

theorem gaussValue_one (q : Rat) : gaussValue (1, q) = 1 + ((q : ℝ) : ℂ) * Complex.I := by
  apply Complex.ext <;> simp [gaussValue]

theorem gaussValue_pow (a : Rat × Rat) (n : Nat) : gaussValue (gaussPow a n) = gaussValue a ^ n := by
  induction n with
  | zero => apply Complex.ext <;> simp [gaussValue, gaussPow]
  | succ n ih => rw [gaussPow, gaussValue_mul, ih, pow_succ]

theorem piApprox_eq_sum (n : Nat) : (piApprox n : ℝ) = 4 * ∑ i ∈ Finset.range n, (-1 : ℝ) ^ i / (2 * i + 1) := by
  induction n with
  | zero => simp [piApprox]
  | succ n ih =>
    rw [Finset.sum_range_succ, mul_add, ← ih, piApprox]
    push_cast
    congr 1
    unfold piTerm
    rcases Nat.even_or_odd n with h | h
    · rw [if_pos (Nat.even_iff.mp h), h.neg_one_pow]; push_cast; ring
    · rw [if_neg (by rw [Nat.odd_iff.mp h]; decide), h.neg_one_pow]; push_cast; ring

theorem piApprox_tendsto : Tendsto (fun n => (piApprox n : ℝ)) atTop (𝓝 Real.pi) := by
  have h := Real.tendsto_sum_pi_div_four.const_mul 4
  rw [show 4 * (Real.pi / 4) = Real.pi by ring] at h
  exact h.congr (fun n => (piApprox_eq_sum n).symm)

/-- The oscillator value `exp(-i·2π·k/2^32)` (R141). -/
noncomputable def osc (k : Nat) : ℂ := Complex.exp (-(Complex.I * (2 * Real.pi * k / 2 ^ 32)))

theorem oscApprox_tendsto (k : Nat) : Tendsto (fun n => gaussValue (oscApprox k n)) atTop (𝓝 (osc k)) := by
  have hp : Tendsto (fun n => ((piApprox n : ℝ) : ℂ)) atTop (𝓝 (Real.pi : ℂ)) :=
    (Complex.continuous_ofReal.tendsto _).comp piApprox_tendsto
  have hg : Tendsto (fun n : Nat => (n : ℂ) * (-(Complex.I * (2 * ((piApprox n : ℝ) : ℂ) * k / 2 ^ 32)) / n)) atTop
      (𝓝 (-(Complex.I * (2 * Real.pi * k / 2 ^ 32)))) := by
    have h1 := (((hp.const_mul 2).mul_const (k : ℂ)).div_const (2 ^ 32)).const_mul Complex.I |>.neg
    refine h1.congr' ?_
    filter_upwards [eventually_ne_atTop 0] with n hn
    have : (n : ℂ) ≠ 0 := Nat.cast_ne_zero.mpr hn
    field_simp
  refine (Complex.tendsto_one_add_pow_exp_of_tendsto hg).congr (fun n => ?_)
  rw [oscApprox, gaussValue_pow]
  congr 1
  rw [gaussValue_one]
  push_cast
  ring

/-- A rational sequence that converges is a Cauchy sequence, and its limit is the real number it stands for. -/
theorem realMk_eq_limit (f : Nat → Rat) (x : ℝ) (h : Tendsto (fun n => (f n : ℝ)) atTop (𝓝 x)) : ∃ h', Real.mk ⟨f, h'⟩ = x :=
  Real.of_near f x (fun ε he => by
    obtain ⟨i, hi⟩ := Metric.tendsto_atTop.mp h ε he
    exact ⟨i, fun j hj => by simpa [Real.dist_eq] using hi j hj⟩)

theorem oscApprox_re (k : Nat) : ∃ h', Real.mk ⟨fun n => (oscApprox k n).1, h'⟩ = (osc k).re :=
  realMk_eq_limit _ _ ((Complex.continuous_re.tendsto _).comp (oscApprox_tendsto k))

theorem oscApprox_im (k : Nat) : ∃ h', Real.mk ⟨fun n => (oscApprox k n).2, h'⟩ = (osc k).im :=
  realMk_eq_limit _ _ ((Complex.continuous_im.tendsto _).comp (oscApprox_tendsto k))

/-! ## The arithmetic -/

/-- `lo = exp(-i·2π·phi/2^32)` (R141). -/
def oscillator (phi : BitVec 32) : {z : ℂ // z = Complex.exp (-(Complex.I * (2 * Real.pi * phi.toNat / 2 ^ 32)))} :=
  ⟨⟨Real.mk ⟨fun n => (oscApprox phi.toNat n).1, (oscApprox_re phi.toNat).fst⟩,
    Real.mk ⟨fun n => (oscApprox phi.toNat n).2, (oscApprox_im phi.toNat).fst⟩⟩,
    Complex.ext (oscApprox_re phi.toNat).snd (oscApprox_im phi.toNat).snd⟩

/-- Real samples. -/
def realOps : StreamOps ℝ ℝ where
  zero := 0
  add := (· + ·)
  neg := (- ·)
  scale := (· * ·)

/-- Complex samples under real taps. -/
def complexOps : StreamOps ℝ ℂ where
  zero := 0
  add := (· + ·)
  neg := (- ·)
  scale q z := (q : ℂ) * z

/-- The block's arithmetic (R8). -/
def exactArith : Arith ℝ ℂ where
  ofRat q := (q : ℝ)
  ofParts re im := ⟨re, im⟩
  real := realOps
  complex := complexOps
  rotate phi z := z * (oscillator phi).val

end Sys2Proof.Machine
end

