-- ==== Sys2Proof/Config.lean ====
section
/-! DEFINITION. The parameters of this block (R9) and what the spec asks of them, and the one value the spec leaves unstated. The
block is opaque: nothing in Lean can tell which admissible parameters it has, so a claim about it is a claim about all of them. -/

namespace Sys2Proof

open Sys2Proof.Machine

/-! ## What R80 assumes of a sample format -/

section RoundTrip

variable {R C : Type} (A : Arith R C) (p : Params R C)

/-- `dec_c(enc_c(v)) = v` (R80) for one value. -/
def SampleFormat.KeepsC (fmt : SampleFormat R C) (v : C) : Prop := fmt.decC (fmt.encC v) = some v

/-- `dec_r(enc_r(v)) = v` (R80) for one value. -/
def SampleFormat.KeepsR (fmt : SampleFormat R C) (v : R) : Prop := fmt.decR (fmt.encR v) = some v

/-- A complex value that some complex sample's words stand for. -/
def SampleFormat.ReadsC (fmt : SampleFormat R C) (x : C) : Prop := ∃ ws : List Word, ws.length = fmt.swC ∧ fmt.decC ws = some x

/-- A real value that some real sample's words stand for. -/
def SampleFormat.ReadsR (fmt : SampleFormat R C) (x : R) : Prop := ∃ ws : List Word, ws.length = fmt.swR ∧ fmt.decR ws = some x

/-- A value some DDC of a block with these parameters answers with (R149): an output of the per-stream function, under a pack of
the table and a tuning word in range, for a stream of decodable samples. -/
def ProducedC (v : C) : Prop :=
  ∃ (m : Mode) (f : BitVec 8) (pack : FilterPack R) (tw : Word) (tags : List TimeTag) (x : List C),
    packOf? p.filterTable m f = some pack ∧ p.twMin.toNat ≤ tw.toNat ∧ tw.toNat ≤ p.twMax.toNat ∧ tags.length = x.length ∧
    x.length ≤ p.maxLen ∧ (∀ s ∈ x, p.fmt.ReadsC s) ∧ v ∈ engine A pack tw tags x

/-- A value some BEAMFORM of it answers with (R177): a sample of a beam, for checked antennas of decodable samples. -/
def ProducedR (v : R) : Prop :=
  ∃ (bank : Bank) (len : Nat) (ants : List (Antenna R)),
    len ≤ p.maxLen ∧ ants.length ≤ p.maxAnt ∧
    (∀ a ∈ ants, a.coarse < len ∧ a.samples.length = len ∧ ∀ s ∈ a.samples, p.fmt.ReadsR s) ∧
    (v ∈ (beamsOf A bank len ants).x ∨ v ∈ (beamsOf A bank len ants).y)

/-- R80's assumption, read as one about every input a block may ever get: each value it produces survives writing and reading. A
format meets it only where it reads no real sample but 0 (`roundTrips_reads_zero`, Laws/RoundTrip.lean), so no parameters are
required to meet it. A claim about what the host reads takes `KeepsC` or `KeepsR` of the values at hand as its premise, which is
R80's assumption for them. Log entry 7. -/
def RoundTrips : Prop := (∀ v, ProducedC A p v → p.fmt.KeepsC v) ∧ ∀ v, ProducedR A p v → p.fmt.KeepsR v

end RoundTrip

/-! ## Admissible parameters -/

/-- What the spec asks of a block's parameters, beyond what their types carry. -/
structure Admissible (p : Params ℝ ℂ) : Prop where
  /-- `FS_HZ` is positive (R9) -/
  fsHz_pos : 0 < p.fsHz
  /-- `TW_MIN` is the tuning word of `F_MIN` (R9, R204), -/
  twMin_eq : frequencyToTuningWord p.fsHz (F_MIN : ℝ) = some p.twMin
  /-- and `TW_MAX` that of `F_MAX`: the codec has a result there (log entry 6). -/
  twMax_eq : frequencyToTuningWord p.fsHz (F_MAX : ℝ) = some p.twMax
  /-- The format can write 0, complex -/
  zeroC : p.fmt.KeepsC 0
  /-- and real (R80; log entry 7). -/
  zeroR : p.fmt.KeepsR 0

/-! ## An example

It only shows that admissible parameters exist, so that `Block` has a value. -/

/-- A pack that passes its input through. -/
def passPack : FilterPack ℝ where
  cic := [1]
  cicD := 1
  fir := [1]
  firD := 1
  totalD := 1

/-- Parameters at `FS_HZ` = 196 MHz. -/
def exampleParams : Params ℝ ℂ where
  fsHz := 196000000
  twMin := 0x0D0FAC68
  twMax := 0x72F05398
  filterTable :=
    { tbn5 := passPack, tbn6 := passPack, tbn7 := { cic := [1], cicD := 1960, fir := [1], firD := 1, totalD := 1960 },
      drx3 := passPack, drx4 := passPack, drx5 := passPack, drx6 := passPack, drx7 := passPack }
  defaultDelayFir := Vector.replicate _ (Vector.replicate _ (Vector.replicate _ 0#16))
  fmt := { swC := 1, swR := 1, decC := fun _ => some 0, encC := fun _ => [0#32], decR := fun _ => some 0, encR := fun _ => [0#32] }
  maxStreams := 1
  maxLen := 1
  maxAnt := 1
  maxRows := 1

theorem exampleParams_admissible : Admissible exampleParams where
  fsHz_pos := by show (0 : ℝ) < 196000000; norm_num
  twMin_eq := by
    show frequencyToTuningWord (196000000 : ℝ) ((F_MIN : Nat) : ℝ) = some 0x0D0FAC68
    have f : ⌊(((F_MIN : Nat) : ℝ) * 2 ^ 32 / 196000000 : ℝ)⌋ = 219130984 := by rw [Int.floor_eq_iff]; norm_num
    have r : roundEven (((F_MIN : Nat) : ℝ) * 2 ^ 32 / 196000000 : ℝ) = 219130984 := by
      unfold roundEven; rw [f]; norm_num
    rw [frequencyToTuningWord, r]; decide
  twMax_eq := by
    show frequencyToTuningWord (196000000 : ℝ) ((F_MAX : Nat) : ℝ) = some 0x72F05398
    have f : ⌊(((F_MAX : Nat) : ℝ) * 2 ^ 32 / 196000000 : ℝ)⌋ = 1928352663 := by rw [Int.floor_eq_iff]; norm_num
    have r : roundEven (((F_MAX : Nat) : ℝ) * 2 ^ 32 / 196000000 : ℝ) = 1928352664 := by
      unfold roundEven; rw [f]; norm_num
    rw [frequencyToTuningWord, r]; decide
  zeroC := rfl
  zeroR := rfl

/-! ## This block -/

/-- A block: admissible parameters. The default value is the example's, and no proof can use it. -/
structure Block where
  data : {p : Params ℝ ℂ // Admissible p} := ⟨exampleParams, exampleParams_admissible⟩
  deriving Inhabited

/-- This block's parameters, open (R9, I14). -/
opaque Config.block : Block

/-- The parameters of this block. -/
def Config.params : Params ℝ ℂ := Config.block.data.val

/-- All that is known of them. -/
theorem Config.params_admissible : Admissible Config.params := Config.block.data.property

/-- FREE VALUE. The info field of an `IllegalCommand` whose word index does not fit the 24 bits of R225 (an index of
2^24 or more, which R93 allows and for which no rule states the field): some value that depends on the frame alone (R227).
DESIGN CHOICE, log entry 3. -/
opaque Config.overlongIndexInfo : List Word → BitVec 24

end Sys2Proof
end

