-- ==== Sys2Proof/Machine/State.lean ====
section
/-! DEFINITION. The state of the block (R20) with its two ports (R51), the responses it sends (R89 to R91, R220 to R224), and the
state after reset (R35, R250). -/

namespace Sys2Proof.Machine

/-! ## Errors a command can raise (R220 to R224) -/

/-- Causes of `InvalidConfiguration` (R221), in the order of their info values 1 to 5. -/
inductive ConfigCause where
  /-- the mode code names no mode -/
  | modeCode
  /-- the filter code is not supported for the mode -/
  | filterCode
  /-- the tuning word lies outside TW_MIN..TW_MAX -/
  | tuningWord
  /-- the delay-FIR channel lies outside 1..NCHAN -/
  | channel
  /-- the block is not configured -/
  | notConfigured
  deriving DecidableEq, Repr

/-- Causes of `MalformedCoefficients` (R222), in the order of their info values 0 to 2. -/
inductive ShapeCause where
  /-- P = 0 or T = 0 -/
  | empty
  /-- P ≠ 16 -/
  | listCount
  /-- T ≠ 32 -/
  | listLength
  deriving DecidableEq, Repr

/-- Reasons of `ProcessingFailure` (R223), in the order of their numbers 1 to 9. -/
inductive FailureReason where
  | emptyBatch
  | tooLarge
  | antennaChannel
  | polarization
  | stand
  | gainCode
  | coarseDelay
  | zeroDecimation
  | undecodableSample
  deriving DecidableEq, Repr

/-- An error of a command (R220), with what its info field says (R221 to R224). It is part of a response, not a fault of
the machine: the block goes on (R226). -/
inductive CommandError where
  | invalidConfiguration (cause : ConfigCause)
  | malformedCoefficients (cause : ShapeCause)
  /-- `item` is the index of the stream, antenna or gain row at fault, 0 when none is (R223) -/
  | processingFailure (reason : FailureReason) (item : Nat)
  /-- `info` is the index of the first word at fault (R224) -/
  | illegalCommand (info : BitVec 24)
  deriving DecidableEq, Repr

/-! ## Responses (R89 to R91) -/

/-- The output payload of a successful command: its counts, and the words of its samples in `SAMPLE_FORMAT` (R51, R80). -/
inductive Payload where
  /-- every command but DDC and BEAMFORM (R89) -/
  | empty
  /-- S, Lout and the words of each output stream (R90) -/
  | streams (count lout : Nat) (ys : List (List Word))
  /-- Lout and the words of beamX and of beamY (R91) -/
  | beams (lout : Nat) (beamX beamY : List Word)
  deriving DecidableEq, Repr

/-- One response frame (R89): the output payload under status OK, or an error alone. -/
inductive Response where
  | ok (payload : Payload)
  | error (e : CommandError)
  deriving DecidableEq, Repr

/-! ## The state -/

/-- The configuration fields `MODE`, `FILTER` and `TW` (R22 to R24). -/
structure Configuration where
  mode : Mode
  filter : BitVec 8
  tw : BitVec 32
  deriving DecidableEq, Repr

/-- The state of the block between commands. -/
structure State where
  /-- `CONFIGURED`, `MODE`, `FILTER` and `TW` (R20 to R24): nothing while `CONFIGURED` is 0, when the other three hold no value
  (R21, R35), else their values -/
  config : Option Configuration
  /-- `BANK` (R27) -/
  bank : Bank
  /-- the words that have arrived on the command port and are not yet consumed, oldest first (R51, R61, R70) -/
  commandPort : List Word
  /-- the responses on the response port, oldest first (R51, R61) -/
  responsePort : List Response
  deriving DecidableEq, Repr

/-- What stops the machine. Every command of the block answers with a response (R7, R226, R240), so the one fault belongs to
states that no run from reset reaches. -/
inductive Fault where
  /-- Raised by DDC where the configuration names a pair that `FILTER_TABLE` does not hold (R121). R25 rules such a state out
  (`Obligations.StepKeepsInvariant`). Safe: the machine stops. -/
  | noFilterPack
  deriving DecidableEq, Repr

/-- What the model gives no meaning. -/
inductive Refusal where
  /-- Raised by no arm: every instruction has its meaning. Safe: the machine stops. -/
  | notModelled (mnemonic : String)
  deriving DecidableEq, Repr

/-- The block right after reset (R35, R250): unconfigured, `BANK` holding the hardware defaults, both ports empty. -/
def State.reset : State where
  config := none
  bank := Config.params.defaultDelayFir
  commandPort := []
  responsePort := []

end Sys2Proof.Machine
end

