-- ==== Sys2Proof/Machine/Ops.lean ====
section
/-! DEFINITION. The operations every command is made of: how it ends (R16, R226) and how it writes the state (R20). A command
ends by `respond` or by `raise`, once, after all its writes (R227). -/

namespace Sys2Proof.Machine

/-- `respond(payload)`: the command ends with status OK and its payload (R16, R89). -/
def State.respond (s : State) (payload : Payload) : State :=
  { s with responsePort := s.responsePort ++ [.ok payload] }

/-- `raise E(info)`: the block's whole error effect (R16, R226). The response is the error alone, no state element is written,
nothing is saved, no mode changes and no handler runs. There is no return from it: the next command starts from the unchanged
state (R232). -/
def State.raise (s : State) (e : CommandError) : State :=
  { s with responsePort := s.responsePort ++ [.error e] }

/-- `CONFIGURED` (R21). -/
def State.configured (s : State) : Bool := s.config.isSome

/-- Writes all three configuration fields and sets `CONFIGURED` (R200). -/
def State.setConfig (s : State) (c : Configuration) : State := { s with config := some c }

/-- Writes the whole `BANK`. -/
def State.setBank (s : State) (bank : Bank) : State := { s with bank := bank }

/-- Writes the filters of one channel (R125). -/
def State.setChannel (s : State) (c : Fin NCHAN) (filters : ChannelBank) : State :=
  s.setBank (s.bank.set c filters)

/-- Writes the same filters to every channel (R126). -/
def State.setAllChannels (s : State) (filters : ChannelBank) : State := s.setBank (Vector.replicate NCHAN filters)

/-- Takes a frame off the command port: the words after it remain (R70). -/
def State.consume (s : State) (rest : List Word) : State := { s with commandPort := rest }

end Sys2Proof.Machine
end

