-- ==== Sys2Proof/Machine/Beamform.lean ====
section
/-! DEFINITION. BEAMFORM (R177 to R181). The checks of R179 turn records into antennas whose fields are known to be good; the
datapath works on those. -/

namespace Sys2Proof.Machine

/-! ## The checks (R179) -/

section Command

variable {R C : Type}

/-- Check 3 on row g: no code above 32767. -/
def checkRow (row : GainRow) (g : Nat) : Except CommandError GainRow :=
  if GAIN_SCALE < row.xx.toNat ∨ GAIN_SCALE < row.xy.toNat ∨ GAIN_SCALE < row.yx.toNat ∨ GAIN_SCALE < row.yy.toNat then
    .error (.processingFailure .gainCode g)
  else .ok row

/-- Check 3, rows in increasing order. -/
def checkRows (rows : List GainRow) : Except CommandError (List GainRow) :=
  collect (rows.zipIdx.map (fun rg => checkRow rg.1 rg.2))

/-- Check 4 on antenna a: channel, polarization, stand, coarse delay, samples, in this order. -/
def checkAntenna (fmt : SampleFormat R C) (len : Nat) (rows : List GainRow) (samples : List Word) (rec : AntennaRecord) (a : Nat) :
    Except CommandError (Antenna R) :=
  match channelIndex? rec.channel with
  | none => .error (.processingFailure .antennaChannel a)
  | some channel =>
    match polarizationOf? rec.pol with
    | none => .error (.processingFailure .polarization a)
    | some pol =>
      match rows[rec.stand.toNat]? with
      | none => .error (.processingFailure .stand a)
      | some gains =>
        if len ≤ coarseDelay rec.delay then .error (.processingFailure .coarseDelay a)
        else
          match readRealStream fmt samples len a with
          | none => .error (.processingFailure .undecodableSample a)
          | some x => .ok ⟨channel, pol, gains, coarseDelay rec.delay, finePhase rec.delay, x⟩

/-- Check 4, antennas in increasing order. -/
def checkAntennas (fmt : SampleFormat R C) (len : Nat) (rows : List GainRow) (samples : List Word) (records : List AntennaRecord) :
    Except CommandError (List (Antenna R)) :=
  collect (records.zipIdx.map (fun ra => checkAntenna fmt len rows samples ra.1 ra.2))

/-- `validate` of R177: the four checks of R179 in their order. -/
def validate (p : Params R C) (ants len nrows : Word) (records : List AntennaRecord) (rows : List GainRow) (samples : List Word) :
    Except CommandError (List (Antenna R)) :=
  if ants = 0 ∨ len = 0 then .error (.processingFailure .emptyBatch 0)
  else if p.maxAnt < ants.toNat ∨ p.maxLen < len.toNat ∨ p.maxRows < nrows.toNat then .error (.processingFailure .tooLarge 0)
  else
    match checkRows rows with
    | .error e => .error e
    | .ok goodRows => checkAntennas p.fmt len.toNat goodRows samples records

/-! ## The command -/

/-- The output payload of a BEAMFORM: the count, and the samples of both beams as words (R91, R80). -/
def beamsPayload (fmt : SampleFormat R C) (lout : Nat) (b : Beams R) : Payload :=
  .beams lout (b.x.flatMap fmt.encR) (b.y.flatMap fmt.encR)

/-- `BEAMFORM antennas, gains, samples` (R177). It writes no state element and reads only `BANK`. -/
def beamform (A : Arith R C) (p : Params R C) (ants len nrows : Word) (records : List AntennaRecord) (rows : List GainRow)
    (samples : List Word) (s : State) : State :=
  match validate p ants len nrows records rows samples with
  | .error e => s.raise e
  | .ok as => s.respond (beamsPayload p.fmt (len.toNat - maxCoarse as) (beamsOf A s.bank len.toNat as))

end Command

/-- The meaning of BEAMFORM (R177). -/
def execBeamform (ants len nrows : Word) (records : List AntennaRecord) (rows : List GainRow) (samples : List Word) (s : State) :
    Host.Outcome State Fault Refusal :=
  .next (beamform exactArith Config.params ants len nrows records rows samples s)

end Sys2Proof.Machine
end

