-- ==== Sys2Proof/Machine/Configuration.lean ====
section
/-! DEFINITION. CONFIGURE, SET_MODE, SET_FILTER and SET_CFREQ (R200 to R206). Each writes all its fields or none (R205). -/

namespace Sys2Proof.Machine

/-! ## Validity (R204) -/

/-- The filter codes supported in a mode (R10, R23). -/
def supportedFilters : Mode → List (BitVec 8)
  | .tbn => [5, 6, 7]
  | .drx => [3, 4, 5, 6, 7]

/-- `validFilter(m, f)` (R204). -/
def validFilter (m : Mode) (f : BitVec 8) : Bool := (supportedFilters m).contains f

/-- `validTW(w)` (R204). -/
def validTW {R C : Type} (p : Params R C) (w : Word) : Bool := decide (p.twMin.toNat ≤ w.toNat ∧ w.toNat ≤ p.twMax.toNat)

/-- What R25 asks of the values of a configured block. -/
def validConfig {R C : Type} (p : Params R C) (c : Configuration) : Bool := validFilter c.mode c.filter && validTW p c.tw

/-- `fc = TW · FS_HZ / 2^32`, the center frequency of a configured block (R26). -/
def centerFrequency {R C : Type} [Field R] (p : Params R C) (c : Configuration) : R := tuningWordToFrequency p.fsHz c.tw

/-! ## The commands -/

/-- `CONFIGURE m, f, tw` (R200): mode, then filter against the new mode, then frequency (D38). -/
def configure {R C : Type} (p : Params R C) (m f : BitVec 8) (tw : Word) (s : State) : State :=
  match modeOf? m with
  | none => s.raise (.invalidConfiguration .modeCode)
  | some mode =>
    if !validFilter mode f then s.raise (.invalidConfiguration .filterCode)
    else if !validTW p tw then s.raise (.invalidConfiguration .tuningWord)
    else (s.setConfig ⟨mode, f, tw⟩).respond .empty

/-- `SET_MODE m` (R201). -/
def setMode (m : BitVec 8) (s : State) : State :=
  match s.config with
  | none => s.raise (.invalidConfiguration .notConfigured)
  | some c =>
    match modeOf? m with
    | none => s.raise (.invalidConfiguration .modeCode)
    | some mode =>
      if !validFilter mode c.filter then s.raise (.invalidConfiguration .filterCode)
      else (s.setConfig { c with mode := mode }).respond .empty

/-- `SET_FILTER f` (R202). -/
def setFilter (f : BitVec 8) (s : State) : State :=
  match s.config with
  | none => s.raise (.invalidConfiguration .notConfigured)
  | some c =>
    if !validFilter c.mode f then s.raise (.invalidConfiguration .filterCode)
    else (s.setConfig { c with filter := f }).respond .empty

/-- `SET_CFREQ tw` (R203). -/
def setCfreq {R C : Type} (p : Params R C) (tw : Word) (s : State) : State :=
  match s.config with
  | none => s.raise (.invalidConfiguration .notConfigured)
  | some c =>
    if !validTW p tw then s.raise (.invalidConfiguration .tuningWord)
    else (s.setConfig { c with tw := tw }).respond .empty

/-- The meaning of CONFIGURE (R200). -/
def execConfigure (m f : BitVec 8) (tw : Word) (s : State) : Host.Outcome State Fault Refusal :=
  .next (configure Config.params m f tw s)

/-- The meaning of SET_MODE (R201). -/
def execSetMode (m : BitVec 8) (s : State) : Host.Outcome State Fault Refusal := .next (setMode m s)

/-- The meaning of SET_FILTER (R202). -/
def execSetFilter (f : BitVec 8) (s : State) : Host.Outcome State Fault Refusal := .next (setFilter f s)

/-- The meaning of SET_CFREQ (R203). -/
def execSetCfreq (tw : Word) (s : State) : Host.Outcome State Fault Refusal := .next (setCfreq Config.params tw s)

end Sys2Proof.Machine
end

