-- ==== Sys2Proof/Machine/Ddc.lean ====
section
/-! DEFINITION. DDC (R149 to R153). -/

namespace Sys2Proof.Machine

section Command

variable {R C : Type}

/-- The streams of a batch, or reason 9 for the first that holds an undecodable sample (R149). -/
def readStreams (fmt : SampleFormat R C) (samples : List Word) (count len : Nat) : Except CommandError (List (List C)) :=
  collect ((List.range count).map (fun r =>
    match readComplexStream fmt samples len r with
    | none => .error (.processingFailure .undecodableSample r)
    | some x => .ok x))

/-- The output payload of a DDC: the counts, and the samples of every stream as words (R90, R80). -/
def streamsPayload (fmt : SampleFormat R C) (count lout : Nat) (ys : List (List C)) : Payload :=
  .streams count lout (ys.map (fun y => y.flatMap fmt.encC))

/-- The response of a DDC that has passed every check but the one on its pack (R149, R90). -/
def ddcResult (A : Arith R C) (p : Params R C) (pack : FilterPack R) (tw : BitVec 32) (count len : Nat) (tags : List TimeTag)
    (xs : List (List C)) (s : State) : State :=
  if pack.cicD = 0 ∨ pack.firD = 0 then s.raise (.processingFailure .zeroDecimation 0)
  else s.respond (streamsPayload p.fmt count (outputLength pack len) (xs.map (engine A pack tw tags)))

/-- `DDC tags, streams` (R149). It writes no state element, and takes its pack and tuning word from the configuration as it
stands (R144). -/
def ddc (A : Arith R C) (p : Params R C) (count len : Word) (tags : List TimeTag) (samples : List Word) (s : State) :
    Host.Outcome State Fault Refusal :=
  match s.config with
  | none => .next (s.raise (.invalidConfiguration .notConfigured))
  | some c =>
    if count = 0 ∨ len = 0 then .next (s.raise (.processingFailure .emptyBatch 0))
    else if p.maxStreams < count.toNat ∨ p.maxLen < len.toNat then .next (s.raise (.processingFailure .tooLarge 0))
    else
      match readStreams p.fmt samples count.toNat len.toNat with
      | .error e => .next (s.raise e)
      | .ok xs =>
        match packOf? p.filterTable c.mode c.filter with
        | none => .fault .noFilterPack
        | some pack => .next (ddcResult A p pack c.tw count.toNat len.toNat tags xs s)

end Command

/-- The meaning of DDC (R149). -/
def execDdc (count len : Word) (tags : List TimeTag) (samples : List Word) (s : State) : Host.Outcome State Fault Refusal :=
  ddc exactArith Config.params count len tags samples s

end Sys2Proof.Machine
end

