-- ==== Sys2Proof/Machine/DelayFir.lean ====
section
/-! DEFINITION. DFIR.CH, DFIR.ALL and DFIR.RESET (R124 to R129). They write `BANK` and nothing else, and never the defaults
(R28). -/

namespace Sys2Proof.Machine

/-- `check_shape(P, T)` (R128): the first cause that applies. -/
def shapeCause? (b : TapBlock) : Option ShapeCause :=
  if b.lists = 0 ∨ b.length = 0 then some .empty
  else if b.lists.toNat ≠ NPHASE then some .listCount
  else if b.length.toNat ≠ NTAPS then some .listLength
  else none

/-- `DFIR.CH c, bank` (R125): channel, then shape. -/
def dfirCh (c : BitVec 16) (block : TapBlock) (s : State) : State :=
  match channelIndex? c with
  | none => s.raise (.invalidConfiguration .channel)
  | some ch =>
    match shapeCause? block with
    | some cause => s.raise (.malformedCoefficients cause)
    | none => (s.setChannel ch (channelBankOf block)).respond .empty

/-- `DFIR.ALL bank` (R126). -/
def dfirAll (block : TapBlock) (s : State) : State :=
  match shapeCause? block with
  | some cause => s.raise (.malformedCoefficients cause)
  | none => (s.setAllChannels (channelBankOf block)).respond .empty

/-- `DFIR.RESET` (R127). -/
def dfirReset {R C : Type} (p : Params R C) (s : State) : State := (s.setBank p.defaultDelayFir).respond .empty

/-- The meaning of DFIR.CH (R125). -/
def execDfirCh (c : BitVec 16) (block : TapBlock) (s : State) : Host.Outcome State Fault Refusal := .next (dfirCh c block s)

/-- The meaning of DFIR.ALL (R126). -/
def execDfirAll (block : TapBlock) (s : State) : Host.Outcome State Fault Refusal := .next (dfirAll block s)

/-- The meaning of DFIR.RESET (R127). -/
def execDfirReset (s : State) : Host.Outcome State Fault Refusal := .next (dfirReset Config.params s)

end Sys2Proof.Machine
end

