-- ==== Sys2Proof/Machine/Dispatch.lean ====
section
/-! DEFINITION. One arm per command of the opcode map (R72): each calls that command's meaning. -/

namespace Sys2Proof.Machine

def exec (i : Instr) (s : State) : Host.Outcome State Fault Refusal :=
  match i with
  | .configure m f tw => Sys2Proof.Machine.execConfigure m f tw s
  | .setMode m => Sys2Proof.Machine.execSetMode m s
  | .setFilter f => Sys2Proof.Machine.execSetFilter f s
  | .setCfreq tw => Sys2Proof.Machine.execSetCfreq tw s
  | .dfirCh c block => Sys2Proof.Machine.execDfirCh c block s
  | .dfirAll block => Sys2Proof.Machine.execDfirAll block s
  | .dfirReset => Sys2Proof.Machine.execDfirReset s
  | .ddc count len tags samples => Sys2Proof.Machine.execDdc count len tags samples s
  | .beamform ants len nrows records rows samples => Sys2Proof.Machine.execBeamform ants len nrows records rows samples s

end Sys2Proof.Machine
end

