-- ==== Sys2Proof/WellFormed.lean ====
section
/-! DEFINITION. When a term of `Instr` is a command some frame can carry: every list has the length its count words give
(R77, R79, R81, R97). Nothing is asked of the values, which R94 leaves to the command's own rule. -/

namespace Sys2Proof

/-- The number of taps P·T of a block (R77). -/
def TapBlock.count (b : TapBlock) : Nat := b.lists.toNat * b.length.toNat

/-- A block holds exactly P·T taps (R77). -/
def TapBlock.wf (b : TapBlock) : Bool := b.taps.length == b.count

/-- The lengths of a command's lists are those of its frame (R97). -/
def Instr.wf {R C : Type} (fmt : SampleFormat R C) : Instr → Bool
  | .configure _ _ _ => true
  | .setMode _ => true
  | .setFilter _ => true
  | .setCfreq _ => true
  | .dfirCh _ block => block.wf
  | .dfirAll block => block.wf
  | .dfirReset => true
  | .ddc count len tags samples =>
    tags.length == len.toNat && samples.length == fmt.swC * (count.toNat * len.toNat)
  | .beamform ants len nrows records rows samples =>
    records.length == ants.toNat && rows.length == nrows.toNat &&
      samples.length == fmt.swR * (ants.toNat * len.toNat)

end Sys2Proof
end

