-- ==== Sys2Proof/Decode.lean ====
section
/-! DEFINITION. From the words of the command port to a command, and back (R52, R70 to R97). `decode` is total: it answers
that the frame is not complete yet (R70, R240), that the frame is illegal and where (R92, R93), or the command it carries.
After it stands the encoder, written from the same layouts. -/

namespace Sys2Proof

/-! ## Fields of a word (R11) -/

/-- `w[31:16]`. -/
def hi16 (w : Word) : BitVec 16 := w.extractLsb' 16 16

/-- `w[15:0]`. -/
def lo16 (w : Word) : BitVec 16 := w.extractLsb' 0 16

/-- `w[31:24]`, of a header the opcode (R71). -/
def byte3 (w : Word) : Byte := w.extractLsb' 24 8

/-- `w[23:16]`. -/
def byte2 (w : Word) : Byte := w.extractLsb' 16 8

/-- `w[15:8]`. -/
def byte1 (w : Word) : Byte := w.extractLsb' 8 8

/-- `w[7:0]`. -/
def byte0 (w : Word) : Byte := w.extractLsb' 0 8

/-! ## Byte order of the ports (R52, R54) -/

/-- The four bytes of a word in the order they are transferred: most significant first (R52). -/
def wordBytes (w : Word) : List Byte := [byte3 w, byte2 w, byte1 w, byte0 w]

/-- The bytes of a frame in the order they are transferred (R52). -/
def frameBytes (ws : List Word) : List Byte := ws.flatMap wordBytes

/-- The words that a sequence of transferred bytes makes, and nothing where the bytes are no whole number of words: such a
frame cannot be sent (R54). -/
def wordsOfBytes : List Byte → Option (List Word)
  | [] => some []
  | a :: b :: c :: d :: rest => (wordsOfBytes rest).map (fun ws => (a ++ b ++ c ++ d) :: ws)
  | [_] => none
  | [_, _] => none
  | [_, _, _] => none

/-! ## Opcodes (R72) -/

/-- The assigned opcodes (R72). -/
inductive Opcode where
  | configure
  | setMode
  | setFilter
  | setCfreq
  | dfirCh
  | dfirAll
  | dfirReset
  | ddc
  | beamform
  deriving DecidableEq, Repr

/-- `H[31:24]` of each assigned opcode (R72). -/
def opcodeByte : Opcode → Byte
  | .configure => 0x01
  | .setMode => 0x02
  | .setFilter => 0x03
  | .setCfreq => 0x04
  | .dfirCh => 0x10
  | .dfirAll => 0x11
  | .dfirReset => 0x12
  | .ddc => 0x20
  | .beamform => 0x30

/-- The reserved bits of each format's header (R73 to R79, R81, R95). -/
def reservedMask : Opcode → Word
  | .configure => 0x000000FF
  | .setMode => 0x0000FFFF
  | .setFilter => 0x0000FFFF
  | .setCfreq => 0x00FFFFFF
  | .dfirCh => 0x00FF0000
  | .dfirAll => 0x00FFFFFF
  | .dfirReset => 0x00FFFFFF
  | .ddc => 0x00FFFFFF
  | .beamform => 0x00FFFFFF

/-- Every assigned opcode, in the table's order. -/
def allOpcodes : List Opcode :=
  [.configure, .setMode, .setFilter, .setCfreq, .dfirCh, .dfirAll, .dfirReset, .ddc, .beamform]

/-- The opcode a header names, and nothing for the unassigned values (R92). -/
def opcodeOf? (h : Word) : Option Opcode := allOpcodes.find? (fun op => opcodeByte op == byte3 h)

/-! ## Frame lengths (R97) -/

/-- `W(i)` of a frame. Every index the layouts below name lies inside a complete frame. -/
def wordAt (frame : List Word) (i : Nat) : Word := frame.getD i 0

/-- The number of tap words of P·T taps (R77). -/
def tapWordCount (n : Nat) : Nat := ceilDiv n 2

/-- P·T of format DFIR (R77), from `W1`. -/
def tapCount (w1 : Word) : Nat := (hi16 w1).toNat * (lo16 w1).toNat

/-- The length of the frame that starts the given words, in words (R97), and nothing while the count words it depends on
have not arrived. An unassigned opcode is a frame of one word (R92). -/
def frameLength? {R C : Type} (fmt : SampleFormat R C) (ws : List Word) : Option Nat :=
  match ws[0]? with
  | none => none
  | some h =>
    match opcodeOf? h with
    | none => some 1
    | some .configure => some 2
    | some .setMode => some 1
    | some .setFilter => some 1
    | some .setCfreq => some 2
    | some .dfirCh => ws[1]?.map (fun w1 => 2 + tapWordCount (tapCount w1))
    | some .dfirAll => ws[1]?.map (fun w1 => 2 + tapWordCount (tapCount w1))
    | some .dfirReset => some 1
    | some .ddc =>
      match ws[1]?, ws[2]? with
      | some s, some l => some (3 + 2 * l.toNat + fmt.swC * (s.toNat * l.toNat))
      | _, _ => none
    | some .beamform =>
      match ws[1]?, ws[2]?, ws[3]? with
      | some a, some l, some g => some (4 + 2 * a.toNat + 2 * g.toNat + fmt.swR * (a.toNat * l.toNat))
      | _, _, _ => none

/-! ## Reserved fields (R93) -/

/-- The index of the tap word whose low half is reserved and not 0: the last one, when P·T is odd (R77). -/
def tapPadIndex? (frame : List Word) : Option Nat :=
  let n := tapCount (wordAt frame 1)
  if n % 2 = 1 ∧ lo16 (wordAt frame (2 + n / 2)) ≠ 0 then some (2 + n / 2) else none

/-- The index of the first antenna record's word whose reserved byte is not 0 (R82). -/
def recordReservedIndex? (frame : List Word) : Option Nat :=
  ((List.range (wordAt frame 1).toNat).find? (fun a => byte0 (wordAt frame (4 + 2 * a)) != 0)).map (fun a => 4 + 2 * a)

/-- The index of the first word of a complete frame that holds a nonzero reserved bit (R93). -/
def reservedIndex? (op : Opcode) (frame : List Word) : Option Nat :=
  if wordAt frame 0 &&& reservedMask op ≠ 0 then some 0
  else
    match op with
    | .configure => none
    | .setMode => none
    | .setFilter => none
    | .setCfreq => none
    | .dfirCh => tapPadIndex? frame
    | .dfirAll => tapPadIndex? frame
    | .dfirReset => none
    | .ddc => none
    | .beamform => recordReservedIndex? frame

/-! ## The fields of a complete frame (R73 to R83) -/

/-- Tap j of a DFIR frame: `W(2 + j div 2)`, high half when j is even, low half when it is odd (R77). -/
def readTap (frame : List Word) (j : Nat) : BitVec 16 :=
  let w := wordAt frame (2 + j / 2)
  if j % 2 = 0 then hi16 w else lo16 w

/-- The coefficient block of a DFIR frame (R77). -/
def readBlock (frame : List Word) : TapBlock where
  lists := hi16 (wordAt frame 1)
  length := lo16 (wordAt frame 1)
  taps := (List.range (tapCount (wordAt frame 1))).map (readTap frame)

/-- Tag n of a DDC frame: `W(3 + 2n)` holds bits [63:32], `W(4 + 2n)` bits [31:0] (R79, R52). -/
def readTag (frame : List Word) (n : Nat) : TimeTag := wordAt frame (3 + 2 * n) ++ wordAt frame (4 + 2 * n)

/-- Antenna record a of a BEAMFORM frame, `W(4 + 2a)` and `W(5 + 2a)` (R81, R82). -/
def readRecord (frame : List Word) (a : Nat) : AntennaRecord where
  channel := hi16 (wordAt frame (4 + 2 * a))
  pol := byte1 (wordAt frame (4 + 2 * a))
  stand := hi16 (wordAt frame (5 + 2 * a))
  delay := lo16 (wordAt frame (5 + 2 * a))

/-- Gain row g of a BEAMFORM frame with A antennas, `W(4 + 2A + 2g)` and `W(5 + 2A + 2g)` (R81, R83). -/
def readRow (frame : List Word) (ants g : Nat) : GainRow where
  xx := hi16 (wordAt frame (4 + 2 * ants + 2 * g))
  xy := lo16 (wordAt frame (4 + 2 * ants + 2 * g))
  yx := hi16 (wordAt frame (5 + 2 * ants + 2 * g))
  yy := lo16 (wordAt frame (5 + 2 * ants + 2 * g))

/-- The command of a complete frame with no nonzero reserved bit (R95, R96). -/
def readCommand (op : Opcode) (frame : List Word) : Instr :=
  let h := wordAt frame 0
  let w1 := wordAt frame 1
  let w2 := wordAt frame 2
  let w3 := wordAt frame 3
  match op with
  | .configure => .configure (byte2 h) (byte1 h) w1
  | .setMode => .setMode (byte2 h)
  | .setFilter => .setFilter (byte2 h)
  | .setCfreq => .setCfreq w1
  | .dfirCh => .dfirCh (lo16 h) (readBlock frame)
  | .dfirAll => .dfirAll (readBlock frame)
  | .dfirReset => .dfirReset
  | .ddc => .ddc w1 w2 ((List.range w2.toNat).map (readTag frame)) (frame.drop (3 + 2 * w2.toNat))
  | .beamform =>
    .beamform w1 w2 w3 ((List.range w1.toNat).map (readRecord frame))
      ((List.range w3.toNat).map (readRow frame w1.toNat)) (frame.drop (4 + 2 * w1.toNat + 2 * w3.toNat))

/-! ## Decoding (R95) -/

/-- What the words waiting on the command port begin with. -/
inductive Decoded where
  /-- no complete frame: the block waits for the rest (R70, R240) -/
  | incomplete
  /-- a complete frame that is no command (R92, R93): the index of the first word at fault, the frame, the words after it -/
  | illegal (index : Nat) (frame rest : List Word)
  /-- a command, and the words after its frame -/
  | command (i : Instr) (rest : List Word)
  deriving DecidableEq, Repr

/-- What a complete frame says: the index R93 reports, or its command. An unassigned opcode is at fault in word 0 (R92). -/
def decodeFrame (frame rest : List Word) : Decoded :=
  match opcodeOf? (wordAt frame 0) with
  | none => .illegal 0 frame rest
  | some op =>
    match reservedIndex? op frame with
    | some k => .illegal k frame rest
    | none => .command (readCommand op frame) rest

/-- Decoding of the words on the command port, oldest first (R95): the frame length first, then the wait for all its words,
then the reserved fields, then the command. -/
def decode {R C : Type} (fmt : SampleFormat R C) (ws : List Word) : Decoded :=
  match frameLength? fmt ws with
  | none => .incomplete
  | some n => if ws.length < n then .incomplete else decodeFrame (ws.take n) (ws.drop n)

/-- The info field of an illegal frame (R93, R225): the word index, where it fits the 24 bits of the field. Above that no rule
states the field, and the free value of the configuration stands there (log entry 3). -/
def illegalInfo (index : Nat) (frame : List Word) : BitVec 24 :=
  if index < 2 ^ 24 then BitVec.ofNat 24 index else Config.overlongIndexInfo frame

/-! ## Encoding -/

/-- A header: the opcode above its 24 format-specific bits (R71). -/
def header (op : Opcode) (fields : BitVec 24) : Word := opcodeByte op ++ fields

/-- Two half-words of one word (R11, R52). -/
def pack16 (hi lo : BitVec 16) : Word := hi ++ lo

/-- Two bytes of one half-word (R11). -/
def pack8 (hi lo : BitVec 8) : BitVec 16 := hi ++ lo

/-- The 24 format-specific bits of a header, a byte above a half-word. -/
def headerFields (hi : BitVec 8) (lo : BitVec 16) : BitVec 24 := hi ++ lo

/-- The tap words of a list of taps: two taps a word, the earlier one high, a missing last one 0 (R77). -/
def encodeTaps : List (BitVec 16) → List Word
  | [] => []
  | [t] => [pack16 t 0]
  | t :: u :: rest => pack16 t u :: encodeTaps rest

/-- `W1` and the tap words of format DFIR (R77). -/
def encodeBlock (b : TapBlock) : List Word := pack16 b.lists b.length :: encodeTaps b.taps

/-- The two words of a time tag, high word first (R52, R79). -/
def encodeTag (t : TimeTag) : List Word := [t.extractLsb' 32 32, t.extractLsb' 0 32]

/-- The two words of an antenna record (R82). -/
def encodeRecord (r : AntennaRecord) : List Word := [pack16 r.channel (pack8 r.pol 0), pack16 r.stand r.delay]

/-- The two words of a gain row (R83). -/
def encodeRow (g : GainRow) : List Word := [pack16 g.xx g.xy, pack16 g.yx g.yy]

/-- The frame of a command (R72 to R83), every reserved bit 0. -/
def encode : Instr → List Word
  | .configure m f tw => [header .configure (headerFields m (pack8 f 0)), tw]
  | .setMode m => [header .setMode (headerFields m 0)]
  | .setFilter f => [header .setFilter (headerFields f 0)]
  | .setCfreq tw => [header .setCfreq 0, tw]
  | .dfirCh c block => header .dfirCh (headerFields 0 c) :: encodeBlock block
  | .dfirAll block => header .dfirAll 0 :: encodeBlock block
  | .dfirReset => [header .dfirReset 0]
  | .ddc count len tags samples => header .ddc 0 :: count :: len :: (tags.flatMap encodeTag ++ samples)
  | .beamform ants len nrows records rows samples =>
    header .beamform 0 :: ants :: len :: nrows :: (records.flatMap encodeRecord ++ rows.flatMap encodeRow ++ samples)

/-! ## The opcode table's numbering -/

/-- Word j of an instruction whose bits the opcode table numbers from the first word's least significant bit, every bit from
nbits on being 0. -/
def tableWord (nbits w j : Nat) : Word := BitVec.ofNat 32 ((w % 2 ^ nbits) >>> (32 * j))

/-- All the words of that instruction's frame: as many as its header and count words give (R97). -/
def tableFrame {R C : Type} (fmt : SampleFormat R C) (nbits w : Nat) : List Word :=
  let first := [tableWord nbits w 0, tableWord nbits w 1, tableWord nbits w 2, tableWord nbits w 3]
  (List.range ((frameLength? fmt first).getD 1)).map (tableWord nbits w)

/-- The instruction `decode` reads from that frame, and nothing where it refuses it. -/
def decodeTableWord (nbits w : Nat) : Option Instr :=
  match decode Config.params.fmt (tableFrame Config.params.fmt nbits w) with
  | .incomplete => none
  | .illegal _ _ _ => none
  | .command i _ => some i

end Sys2Proof
end

