-- ==== Sys2Proof/Machine/Fetch.lean ====
section
/-! DEFINITION. Fetching the next command off the command port, and answering a frame that is no command. -/

namespace Sys2Proof.Machine

/-- What the command port begins with (R95). -/
def fetch {R C : Type} (p : Params R C) (s : State) : Decoded := decode p.fmt s.commandPort

/-- An illegal frame is consumed whole and answered with `IllegalCommand` (R92, R93, R224). -/
def rejectFrame (index : Nat) (frame rest : List Word) (s : State) : State :=
  (s.consume rest).raise (.illegalCommand (illegalInfo index frame))

/-- A frame put in front of what the command port holds. -/
def placeFrame (frame : List Word) (s : State) : State := { s with commandPort := frame ++ s.commandPort }

end Sys2Proof.Machine
end

