-- ==== Sys2Proof/Machine/Step.lean ====
section
/-! DEFINITION. One step of the block (R7, R60, R95): it takes the oldest complete frame off the command port and answers it with
one response. Where no complete frame has arrived it waits, its state unchanged (R70, R240). -/

namespace Sys2Proof.Machine

def step (s : State) : Host.Outcome State Fault Refusal :=
  match fetch Config.params s with
  | .incomplete => .next s
  | .illegal index frame rest => .next (rejectFrame index frame rest s)
  | .command i rest => exec i (s.consume rest)

/-- `s` with the frame of an instruction of the opcode table in front of its command port, where `step` takes its next
instruction from. -/
def State.withFetchWord (s : State) (nbits w : Nat) : State := placeFrame (tableFrame Config.params.fmt nbits w) s

end Sys2Proof.Machine
end

