-- ==== Sys2Proof/Machine/Assembler.lean ====
section
/-! DEFINITION. The assembler of R98 and the pseudo-instructions of R99: from a command with its operands as they are written to
the command it stands for. `none` is the assembler's refusal: an operand that fits no field, lists of unequal length, or a
codec with no result (R100). It runs on the host; the block sees only the frame. -/

namespace Sys2Proof.Machine

/-- `<mode>`: TBN, DRX or `#<code>`. -/
inductive ModeOperand where
  | tbn
  | drx
  | code (n : Nat)
  deriving DecidableEq, Repr

/-- The polarization of an antenna operand: X, Y or `#pol`. -/
inductive PolOperand where
  | x
  | y
  | code (n : Nat)
  deriving DecidableEq, Repr

/-- The delay of an antenna operand: `coarse.fine`, or `BEAM_DELAY_NS d` (R99). -/
inductive DelayOperand where
  | fields (coarse fine : Nat)
  | nanoseconds (d : Rat)
  deriving DecidableEq, Repr

/-- One entry of a gain operand: a code, or `GAIN g` (R99). -/
inductive GainOperand where
  | code (n : Nat)
  | gain (g : Rat)
  deriving DecidableEq, Repr

/-- One antenna operand `(c, X|Y|#pol, s, coarse.fine)`. -/
structure AntennaOperand where
  channel : Nat
  pol : PolOperand
  stand : Nat
  delay : DelayOperand
  deriving DecidableEq, Repr

/-- One gain row operand `(xx, xy, yx, yy)`. -/
structure GainRowOperand where
  xx : GainOperand
  xy : GainOperand
  yx : GainOperand
  yy : GainOperand
  deriving DecidableEq, Repr

/-- A complex sample as it is written: its real and imaginary parts. -/
structure ComplexOperand where
  re : Rat
  im : Rat
  deriving DecidableEq, Repr

/-- A line of assembly: the nine commands (R98) and the pseudo-instructions (R99), with their operands as written. -/
inductive AsmCommand where
  | configure (m : ModeOperand) (f tw : Nat)
  | setMode (m : ModeOperand)
  | setFilter (f : Nat)
  | setCfreq (tw : Nat)
  | dfirCh (c : Nat) (bank : List (List Int))
  | dfirAll (bank : List (List Int))
  | dfirReset
  | ddc (tags : List Nat) (streams : List (List ComplexOperand))
  | beamform (ants : List AntennaOperand) (gains : List GainRowOperand) (samples : List (List Rat))
  | setCfreqHz (f : Rat)
  | configureHz (m : ModeOperand) (c : Nat) (f : Rat)
  | dfirSet (c : Int) (bank : List (List Int))
  | ddc1 (tags : List Nat) (x : List ComplexOperand)
  deriving DecidableEq, Repr

/-! ## Operands -/

/-- A number as an unsigned n-bit field. -/
def natField (n k : Nat) : Option (BitVec n) := fieldOf? n (k : Int)

/-- A number as a signed 16-bit tap (R87). -/
def tapField (k : Int) : Option (BitVec 16) := if -32768 ≤ k ∧ k ≤ 32767 then some (BitVec.ofInt 16 k) else none

/-- The values of all operands of a list, where every one has a value. -/
def allFields {α β : Type} (f : α → Option β) : List α → Option (List β)
  | [] => some []
  | a :: rest =>
    match f a with
    | none => none
    | some b => (allFields f rest).map (b :: ·)

/-- The common length of some lists, 0 when there is none of them, and nothing when they differ. -/
def commonLength? {α : Type} : List (List α) → Option Nat
  | [] => some 0
  | xs :: rest => if rest.all (fun ys => ys.length == xs.length) then some xs.length else none

/-- The code of a mode operand (R73). -/
def modeField : ModeOperand → Option (BitVec 8)
  | .tbn => some 0
  | .drx => some 1
  | .code n => natField 8 n

/-- The code of a polarization operand (R82). -/
def polField : PolOperand → Option (BitVec 8)
  | .x => some 0
  | .y => some 1
  | .code n => natField 8 n

/-- `<bank>`: P lists of T taps (R77, R98). -/
def bankOperand (bank : List (List Int)) : Option TapBlock :=
  match commonLength? bank with
  | none => none
  | some t =>
    match natField 16 bank.length, natField 16 t, allFields tapField bank.flatten with
    | some p16, some t16, some taps => some ⟨p16, t16, taps⟩
    | _, _, _ => none

section Numbers

variable {R C : Type} [Field R] [LinearOrder R] [FloorRing R] (A : Arith R C) (p : Params R C)

/-- The delay word of a delay operand (R98, R99): for `BEAM_DELAY_NS d` it is `bswap16(delayToEncoded(d))`. -/
def delayOperand : DelayOperand → Option (BitVec 16)
  | .fields coarse fine =>
    match natField 12 coarse, natField 4 fine with
    | some c, some f => some (c ++ f)
    | _, _ => none
  | .nanoseconds d => (delayToEncoded p.fsHz (A.ofRat d)).map bswap16

/-- The code of a gain operand (R98, R99): for `GAIN g` it is `bswap16(gainToEncoded(g))`. -/
def gainOperand : GainOperand → Option (BitVec 16)
  | .code n => natField 16 n
  | .gain g => (gainToEncoded (A.ofRat g)).map bswap16

/-- An antenna operand's record (R82). -/
def antennaOperand (a : AntennaOperand) : Option AntennaRecord :=
  match natField 16 a.channel, polField a.pol, natField 16 a.stand, delayOperand A p a.delay with
  | some c, some pol, some s, some d => some ⟨c, pol, s, d⟩
  | _, _, _, _ => none

/-- A gain row operand's row (R83). -/
def gainRowOperand (g : GainRowOperand) : Option GainRow :=
  match gainOperand A g.xx, gainOperand A g.xy, gainOperand A g.yx, gainOperand A g.yy with
  | some xx, some xy, some yx, some yy => some ⟨xx, xy, yx, yy⟩
  | _, _, _, _ => none

/-- The center frequency of a `_HZ` pseudo-instruction as a tuning word (R99). -/
def hzOperand (f : Rat) : Option Word := frequencyToTuningWord p.fsHz (A.ofRat f)

/-! ## Commands -/

/-- `CONFIGURE` with a tuning word that may be missing. -/
def assembleConfigure (m : ModeOperand) (f : Nat) (tw : Option Word) : Option Instr :=
  match modeField m, natField 8 f, tw with
  | some m8, some f8, some w => some (.configure m8 f8 w)
  | _, _, _ => none

/-- `DFIR.CH` on a channel number. -/
def assembleDfirCh (c : Nat) (bank : List (List Int)) : Option Instr :=
  match natField 16 c, bankOperand bank with
  | some c16, some block => some (.dfirCh c16 block)
  | _, _ => none

/-- `DDC`: every stream has one sample for each tag (R79). -/
def assembleDdc (tags : List Nat) (streams : List (List ComplexOperand)) : Option Instr :=
  if streams.all (fun x => x.length == tags.length) then
    match natField 32 streams.length, natField 32 tags.length, allFields (natField 64) tags with
    | some s, some l, some ts =>
      some (.ddc s l ts (streams.flatten.flatMap (fun z => p.fmt.encC (A.ofParts (A.ofRat z.re) (A.ofRat z.im)))))
    | _, _, _ => none
  else none

/-- `BEAMFORM`: one stream for each antenna, all of one length (R81). -/
def assembleBeamform (ants : List AntennaOperand) (gains : List GainRowOperand) (samples : List (List Rat)) :
    Option Instr :=
  if samples.length = ants.length then
    match commonLength? samples, allFields (antennaOperand A p) ants, allFields (gainRowOperand A) gains with
    | some l, some records, some rows =>
      match natField 32 ants.length, natField 32 l, natField 32 gains.length with
      | some a, some len, some g => some (.beamform a len g records rows (samples.flatten.flatMap (fun x => p.fmt.encR (A.ofRat x))))
      | _, _, _ => none
    | _, _, _ => none
  else none

/-- The command a line of assembly stands for (R98, R99). -/
def assemble : AsmCommand → Option Instr
  | .configure m f tw => assembleConfigure m f (natField 32 tw)
  | .setMode m => (modeField m).map .setMode
  | .setFilter f => (natField 8 f).map .setFilter
  | .setCfreq tw => (natField 32 tw).map .setCfreq
  | .dfirCh c bank => assembleDfirCh c bank
  | .dfirAll bank => (bankOperand bank).map .dfirAll
  | .dfirReset => some .dfirReset
  | .ddc tags streams => assembleDdc A p tags streams
  | .beamform ants gains samples => assembleBeamform A p ants gains samples
  | .setCfreqHz f => (hzOperand A p f).map .setCfreq
  | .configureHz m c f => assembleConfigure m c (hzOperand A p f)
  | .dfirSet c bank =>
    if c = -1 then some .dfirReset
    else if c = 0 then (bankOperand bank).map .dfirAll
    else if 1 ≤ c then assembleDfirCh c.toNat bank
    else assembleDfirCh (c % 65536).toNat bank
  | .ddc1 tags x => assembleDdc A p tags [x]

end Numbers

end Sys2Proof.Machine
end

