-- ==== Sys2Proof/Machine/AsmText.lean ====
section
/-! DEFINITION. The text of an assembly line (R98, R99): commas between operands, a comment from a semicolon on, numbers decimal
or 0x hexadecimal. Text is a list of characters. What R98 leaves open of the text is fixed as log entry 13 says. -/

namespace Sys2Proof.Machine

/-! ## Tokens -/

/-- A token: a word of letters, a number with the count of its digits, or a single symbol. -/
inductive Tok where
  | word (cs : List Char)
  | num (value digits : Nat)
  | sym (c : Char)
  deriving DecidableEq, Repr

/-- The opening brace. -/
def braceOpen : Char := Char.ofNat 123
/-- The closing brace. -/
def braceClose : Char := Char.ofNat 125

/-- The value of a digit in a base up to 16. -/
def digitValue? (base : Nat) (c : Char) : Option Nat :=
  let n := c.toNat
  let v := if 48 ≤ n ∧ n ≤ 57 then n - 48 else if 97 ≤ n ∧ n ≤ 102 then n - 87 else if 65 ≤ n ∧ n ≤ 70 then n - 55 else 16
  if v < base then some v else none

/-- The number a list of digits writes in a base. -/
def digitsValue? (base : Nat) (cs : List Char) : Option Nat :=
  (allFields (digitValue? base) cs).map (fun ds => ds.foldl (fun acc d => base * acc + d) 0)

/-- The number an unbroken run of digits writes: 0x hexadecimal, else decimal. -/
def numberTok? (cs : List Char) : Option Tok :=
  match cs with
  | '0' :: 'x' :: hs => if hs = [] then none else (digitsValue? 16 hs).map (fun v => .num v hs.length)
  | _ => (digitsValue? 10 cs).map (fun v => .num v cs.length)

/-- The tokens of an unbroken run of letters, digits and underscores: a number, a decimal number with the imaginary unit after
it, or a word. -/
def runToks (cs : List Char) : Option (List Tok) :=
  match cs with
  | [] => some []
  | c :: _ =>
    if (digitValue? 10 c).isSome then
      match numberTok? cs with
      | some t => some [t]
      | none =>
        if cs.getLast? = some 'i' then (numberTok? cs.dropLast).map (fun t => [t, .word ['i']]) else none
    else some [.word cs]

/-- Whether a character goes on a run. -/
def inRun (c : Char) : Bool := c.isAlphanum || c == '_'

/-- The tokens of a line, given the run read so far (in reverse). Blanks separate, a semicolon ends the line. -/
def lexFrom (run : List Char) : List Char → Option (List Tok)
  | [] => runToks run.reverse
  | c :: rest =>
    if inRun c then lexFrom (c :: run) rest
    else if c = ';' then runToks run.reverse
    else
      match runToks run.reverse, lexFrom [] rest with
      | some before, some after => some (before ++ (if c = ' ' ∨ c = '\t' then after else .sym c :: after))
      | _, _ => none

/-! ## Parsers: what a list of tokens begins with, and the tokens after it -/

/-- A parser. -/
abbrev Parser (α : Type) := List Tok → Option (α × List Tok)

/-- The given symbol, then what follows. -/
def afterSym {α : Type} (c : Char) (next : Parser α) : Parser α
  | .sym d :: ts => if d = c then next ts else none
  | _ => none

/-- The given parser, then what follows it. -/
def andThen {α β : Type} (first : Parser α) (next : α → Parser β) : Parser β := fun ts =>
  match first ts with
  | none => none
  | some (a, rest) => next a rest

/-- Nothing more to read. -/
def done {α : Type} (a : α) : Parser α := fun ts => some (a, ts)

/-- An unsigned number. -/
def natP : Parser Nat
  | .num v _ :: ts => some (v, ts)
  | _ => none

/-- A number with an optional minus sign. -/
def intP : Parser Int
  | .sym '-' :: .num v _ :: ts => some (-(v : Int), ts)
  | .num v _ :: ts => some ((v : Int), ts)
  | _ => none

/-- A decimal number with an optional fraction. -/
def unsignedRealP : Parser Rat
  | .num v _ :: .sym '.' :: .num f d :: ts => some ((v : Rat) + (f : Rat) / 10 ^ d, ts)
  | .num v _ :: ts => some ((v : Rat), ts)
  | _ => none

/-- The same with an optional minus sign. -/
def realP : Parser Rat
  | .sym '-' :: ts => (unsignedRealP ts).map (fun r => (-r.1, r.2))
  | ts => unsignedRealP ts

/-- An imaginary part after a real one: its number, and the imaginary unit. -/
def imaginaryP : Parser Rat := andThen unsignedRealP (fun b ts =>
  match ts with
  | .word ['i'] :: rest => some (b, rest)
  | _ => none)

/-- A complex sample: a real part, an imaginary part, or both. -/
def complexP : Parser ComplexOperand := andThen realP (fun a ts =>
  match ts with
  | .word ['i'] :: rest => some (⟨0, a⟩, rest)
  | .sym '+' :: rest => (imaginaryP rest).map (fun r => (⟨a, r.1⟩, r.2))
  | .sym '-' :: rest => (imaginaryP rest).map (fun r => (⟨a, -r.1⟩, r.2))
  | _ => some (⟨a, 0⟩, ts))

/-- One or more items with commas between them, of at most so many. -/
def itemsP {α : Type} (item : Parser α) : Nat → Parser (List α)
  | 0, _ => none
  | n + 1, ts =>
    match item ts with
    | none => none
    | some (a, .sym ',' :: rest) => (itemsP item n rest).map (fun r => (a :: r.1, r.2))
    | some (a, rest) => some ([a], rest)

/-- A braced list of items. -/
def listP {α : Type} (item : Parser α) : Parser (List α)
  | .sym c :: .sym d :: ts =>
    if c = braceOpen then
      if d = braceClose then some ([], ts)
      else andThen (itemsP item ts.length) (fun as => afterSym braceClose (done as)) (.sym d :: ts)
    else none
  | .sym c :: ts =>
    if c = braceOpen then andThen (itemsP item ts.length) (fun as => afterSym braceClose (done as)) ts else none
  | _ => none

/-- `<mode>`: TBN, DRX or `#<code>` (R98). -/
def modeP : Parser ModeOperand
  | .word ['T', 'B', 'N'] :: ts => some (.tbn, ts)
  | .word ['D', 'R', 'X'] :: ts => some (.drx, ts)
  | .sym '#' :: .num v _ :: ts => some (.code v, ts)
  | _ => none

/-- A DFIR.CH channel, which a raw `#` value may write too (R99). -/
def channelP : Parser Nat
  | .sym '#' :: .num v _ :: ts => some (v, ts)
  | .num v _ :: ts => some (v, ts)
  | _ => none

/-- X, Y or `#pol`. -/
def polP : Parser PolOperand
  | .word ['X'] :: ts => some (.x, ts)
  | .word ['Y'] :: ts => some (.y, ts)
  | .sym '#' :: .num v _ :: ts => some (.code v, ts)
  | _ => none

/-- `coarse.fine` or `BEAM_DELAY_NS d`. -/
def delayP : Parser DelayOperand
  | .num c _ :: .sym '.' :: .num f _ :: ts => some (.fields c f, ts)
  | .word ['B', 'E', 'A', 'M', '_', 'D', 'E', 'L', 'A', 'Y', '_', 'N', 'S'] :: ts =>
    (realP ts).map (fun r => (.nanoseconds r.1, r.2))
  | _ => none

/-- A gain code or `GAIN g`. DESIGN CHOICE, log entry 13: no raw mark on a gain code. -/
def gainP : Parser GainOperand
  | .num v _ :: ts => some (.code v, ts)
  | .word ['G', 'A', 'I', 'N'] :: ts => (realP ts).map (fun r => (.gain r.1, r.2))
  | _ => none

/-- `(c, pol, s, delay)`. -/
def antennaP : Parser AntennaOperand :=
  afterSym '(' (andThen natP (fun c => afterSym ',' (andThen polP (fun pol => afterSym ',' (andThen natP (fun s =>
    afterSym ',' (andThen delayP (fun d => afterSym ')' (done ⟨c, pol, s, d⟩)))))))))

/-- `(xx, xy, yx, yy)`. -/
def gainRowP : Parser GainRowOperand :=
  afterSym '(' (andThen gainP (fun xx => afterSym ',' (andThen gainP (fun xy => afterSym ',' (andThen gainP (fun yx =>
    afterSym ',' (andThen gainP (fun yy => afterSym ')' (done ⟨xx, xy, yx, yy⟩)))))))))

/-- `<bank>`: lists of taps. -/
def bankP : Parser (List (List Int)) := listP (listP intP)

/-- A command after its mnemonic: the first operand, then the others. DESIGN CHOICE, log entry 13: R98 leaves open where the raw
mark `#` may stand beyond a mode, a DFIR.CH channel and a polarization, and here it stands on no other operand, so not on a filter
code, a tuning word or a gain code. -/
def commandP : Parser AsmCommand
  | .word ['C', 'O', 'N', 'F', 'I', 'G', 'U', 'R', 'E'] :: ts =>
    andThen modeP (fun m => afterSym ',' (andThen natP (fun f => afterSym ',' (andThen natP (fun tw =>
      done (.configure m f tw)))))) ts
  | .word ['S', 'E', 'T', '_', 'M', 'O', 'D', 'E'] :: ts => andThen modeP (fun m => done (.setMode m)) ts
  | .word ['S', 'E', 'T', '_', 'F', 'I', 'L', 'T', 'E', 'R'] :: ts => andThen natP (fun f => done (.setFilter f)) ts
  | .word ['S', 'E', 'T', '_', 'C', 'F', 'R', 'E', 'Q'] :: ts => andThen natP (fun tw => done (.setCfreq tw)) ts
  | .word ['D', 'F', 'I', 'R'] :: .sym '.' :: .word ['C', 'H'] :: ts =>
    andThen channelP (fun c => afterSym ',' (andThen bankP (fun b => done (.dfirCh c b)))) ts
  | .word ['D', 'F', 'I', 'R'] :: .sym '.' :: .word ['A', 'L', 'L'] :: ts => andThen bankP (fun b => done (.dfirAll b)) ts
  | .word ['D', 'F', 'I', 'R'] :: .sym '.' :: .word ['R', 'E', 'S', 'E', 'T'] :: ts => done .dfirReset ts
  | .word ['D', 'F', 'I', 'R'] :: .sym '.' :: .word ['S', 'E', 'T'] :: ts =>
    andThen intP (fun c => afterSym ',' (andThen bankP (fun b => done (.dfirSet c b)))) ts
  | .word ['D', 'D', 'C'] :: ts =>
    andThen (listP natP) (fun tags => afterSym ',' (andThen (listP (listP complexP)) (fun xs => done (.ddc tags xs)))) ts
  | .word ['D', 'D', 'C', '1'] :: ts =>
    andThen (listP natP) (fun tags => afterSym ',' (andThen (listP complexP) (fun x => done (.ddc1 tags x)))) ts
  | .word ['B', 'E', 'A', 'M', 'F', 'O', 'R', 'M'] :: ts =>
    andThen (listP antennaP) (fun a => afterSym ',' (andThen (listP gainRowP) (fun g => afterSym ',' (andThen (listP (listP realP))
      (fun x => done (.beamform a g x)))))) ts
  | .word ['S', 'E', 'T', '_', 'C', 'F', 'R', 'E', 'Q', '_', 'H', 'Z'] :: ts => andThen realP (fun f => done (.setCfreqHz f)) ts
  | .word ['C', 'O', 'N', 'F', 'I', 'G', 'U', 'R', 'E', '_', 'H', 'Z'] :: ts =>
    andThen modeP (fun m => afterSym ',' (andThen natP (fun c => afterSym ',' (andThen realP (fun f =>
      done (.configureHz m c f)))))) ts
  | _ => none

/-- The command of a line, where the line is one command and nothing else. -/
def parseLine (line : List Char) : Option AsmCommand :=
  match lexFrom [] line with
  | none => none
  | some ts =>
    match commandP ts with
    | some (c, []) => some c
    | _ => none

/-- The frame a line of assembly text stands for (R98, R99). -/
def assembleLine {R C : Type} [Field R] [LinearOrder R] [FloorRing R] (A : Arith R C) (p : Params R C) (line : List Char) : Option (List Word) :=
  match parseLine line with
  | none => none
  | some c => (assemble A p c).map encode

end Sys2Proof.Machine
end

