-- ==== Sys2Proof/Machine/Cyclotomic.lean ====
section
/-! DEFINITION. An arithmetic that can be evaluated: rational real values and rational sums of powers of the NCO's root of unity.
The block does not use it. The test vectors run on it, and claims say that it computes the numbers the block's arithmetic gives. -/

namespace Sys2Proof.Machine

/-- A complex value, written as a finite sum of rational multiples of powers of the NCO's root of unity
`ζ = exp(-i·2π/2^32)` (R141): the pair `(e, q)` stands for `q·ζ^e`. Since `ζ^(2^31) = -1` and `ζ^(2^30) = -i`, every
complex number with rational parts and every oscillator value is such a sum, and the sums are closed under all the DDC
does with rational taps. The operations below keep `terms` canonical: exponents strictly rising and below `2^31`, no zero
coefficient, so that equal values they compute are equal data. Log entry 4. -/
structure Cyc where
  terms : List (Nat × Rat)
  deriving DecidableEq, Repr, Inhabited

/-- `ζ^(2^32) = 1`: a full turn of the NCO phase (R141). -/
def fullTurn : Nat := 2 ^ 32

/-- `ζ^(2^31) = -1`. -/
def halfTurn : Nat := 2 ^ 31

/-- Adds q·ζ^e to a canonical list of terms, for an exponent e below `halfTurn`. -/
def insertTerm (e : Nat) (q : Rat) : List (Nat × Rat) → List (Nat × Rat)
  | [] => if q = 0 then [] else [(e, q)]
  | (e', q') :: rest =>
    if e < e' then (if q = 0 then (e', q') :: rest else (e, q) :: (e', q') :: rest)
    else if e = e' then (if q + q' = 0 then rest else (e, q + q') :: rest)
    else (e', q') :: insertTerm e q rest

/-- Adds q·ζ^e for any exponent: whole turns change nothing and half a turn changes the sign. -/
def addTerm (e : Nat) (q : Rat) (ts : List (Nat × Rat)) : List (Nat × Rat) :=
  let r := e % fullTurn
  if r < halfTurn then insertTerm r q ts else insertTerm (r - halfTurn) (-q) ts

/-- Adds the terms of a list, each turned by `turn` and multiplied by `by`. -/
def addTerms (turn : Nat) (q : Rat) (xs ts : List (Nat × Rat)) : List (Nat × Rat) :=
  xs.foldr (fun t acc => addTerm (t.1 + turn) (q * t.2) acc) ts

/-- 0. -/
def Cyc.zero : Cyc := ⟨[]⟩

/-- The rational q, a real value (R15). -/
def Cyc.ofRat (q : Rat) : Cyc := ⟨addTerm 0 q []⟩

/-- `re + im·i`, since `i = ζ^(3·2^30)`. -/
def Cyc.ofParts (re im : Rat) : Cyc := ⟨addTerm (3 * 2 ^ 30) im (addTerm 0 re [])⟩

/-- The sum of two values. -/
def Cyc.add (a b : Cyc) : Cyc := ⟨addTerms 0 1 a.terms b.terms⟩

/-- A value times a rational. -/
def Cyc.scale (q : Rat) (a : Cyc) : Cyc := ⟨addTerms 0 q a.terms []⟩

/-- A value times the oscillator value `exp(-i·2π·phi/2^32) = ζ^phi` (R141, R142). -/
def Cyc.rotate (phi : BitVec 32) (a : Cyc) : Cyc := ⟨addTerms phi.toNat 1 a.terms []⟩

/-- The rationals, for real samples. -/
def ratOps : StreamOps Rat Rat where
  zero := 0
  add := (· + ·)
  neg := (- ·)
  scale := (· * ·)

/-- The sums of roots of unity, for complex samples. -/
def cycOps : StreamOps Rat Cyc where
  zero := Cyc.zero
  add := Cyc.add
  neg := Cyc.scale (-1)
  scale := Cyc.scale

/-- The arithmetic of both. -/
def cycArith : Arith Rat Cyc where
  ofRat q := q
  ofParts := Cyc.ofParts
  real := ratOps
  complex := cycOps
  rotate := Cyc.rotate

end Sys2Proof.Machine
end

