-- ==== Sys2Proof/Machine/Flags.lean ====
section
/-! DEFINITION. The block has no flags and no condition codes (R32): all that a command says of its outcome is the status word
of its response. This file computes that word (R89, R220 to R225). -/

namespace Sys2Proof.Machine

/-- The status code of an error (R220). -/
def errorCode : CommandError → BitVec 8
  | .invalidConfiguration _ => 0x01
  | .malformedCoefficients _ => 0x02
  | .processingFailure _ _ => 0x03
  | .illegalCommand _ => 0x04

/-- The info value of `InvalidConfiguration` (R221). -/
def configInfo : ConfigCause → BitVec 24
  | .modeCode => 1
  | .filterCode => 2
  | .tuningWord => 3
  | .channel => 4
  | .notConfigured => 5

/-- The info value of `MalformedCoefficients` (R222). -/
def shapeInfo : ShapeCause → BitVec 24
  | .empty => 0
  | .listCount => 1
  | .listLength => 2

/-- The reason number of `ProcessingFailure` (R223). -/
def reasonNumber : FailureReason → BitVec 8
  | .emptyBatch => 1
  | .tooLarge => 2
  | .antennaChannel => 3
  | .polarization => 4
  | .stand => 5
  | .gainCode => 6
  | .coarseDelay => 7
  | .zeroDecimation => 8
  | .undecodableSample => 9

/-- The info field of an error (R221 to R224): for `ProcessingFailure` the reason above the 16-bit item (R223). -/
def errorInfo : CommandError → BitVec 24
  | .invalidConfiguration cause => configInfo cause
  | .malformedCoefficients cause => shapeInfo cause
  | .processingFailure reason item => reasonNumber reason ++ BitVec.ofNat 16 item
  | .illegalCommand info => info

/-- The status word R0 of a response: info above the status code, both 0 when the status is OK (R89, R225, R226). -/
def statusWord : Response → Word
  | .ok _ => 0
  | .error e => errorInfo e ++ errorCode e

end Sys2Proof.Machine
end

