-- ==== Sys2Proof/Machine/HostPort.lean ====
section
/-! DEFINITION. The host's side of the two ports (R51, R61, R258): sending words on the command port, taking the oldest response
off the response port, the reset, and the words a response is sent as (R89 to R91). The host has no other way to act on the
block. -/

namespace Sys2Proof.Machine

/-- The host sends words on the command port, before or after the block has answered earlier commands (R61). -/
def State.send (s : State) (ws : List Word) : State := { s with commandPort := s.commandPort ++ ws }

/-- The host sends bytes, where they are whole words (R52, R54). -/
def State.sendBytes (s : State) (bs : List Byte) : Option State := (wordsOfBytes bs).map s.send

/-- The host reads the oldest response (R61). -/
def State.receive (s : State) : Option (Response × State) :=
  match s.responsePort with
  | [] => none
  | r :: rest => some (r, { s with responsePort := rest })

/-- Reset (R250): the state after it does not depend on the state before, and a frame that had partly arrived is discarded
without a response. -/
def State.hardReset (_ : State) : State := State.reset

/-- The words of an output payload (R90, R91): the counts, then the samples. -/
def payloadWords : Payload → List Word
  | .empty => []
  | .streams count lout ys => BitVec.ofNat 32 count :: BitVec.ofNat 32 lout :: ys.flatten
  | .beams lout bx bY => BitVec.ofNat 32 lout :: (bx ++ bY)

/-- The words of a response frame (R89): the status word, and on success the payload after it. -/
def responseWords (r : Response) : List Word :=
  match r with
  | .ok payload => statusWord r :: payloadWords payload
  | .error _ => [statusWord r]

end Sys2Proof.Machine
end

