-- ==== Sys2Proof/Machine/Parametric.lean ====
section
/-! DEFINITION. The same machine with its arithmetic and parameters as arguments (R8, R9): `exec`, `step` and `State.reset` are
these at `exactArith` and `Config.params` (Laws/State.lean). The spec's test vectors give parameters of their own
(95_test_vectors.md section 0) and run here. -/

namespace Sys2Proof.Machine

variable {R C : Type}

/-- The meaning of a command under a given arithmetic and parameters. -/
def execWith (A : Arith R C) (p : Params R C) (i : Instr) (s : State) : Host.Outcome State Fault Refusal :=
  match i with
  | .configure m f tw => .next (configure p m f tw s)
  | .setMode m => .next (setMode m s)
  | .setFilter f => .next (setFilter f s)
  | .setCfreq tw => .next (setCfreq p tw s)
  | .dfirCh c block => .next (dfirCh c block s)
  | .dfirAll block => .next (dfirAll block s)
  | .dfirReset => .next (dfirReset p s)
  | .ddc count len tags samples => ddc A p count len tags samples s
  | .beamform ants len nrows records rows samples => .next (beamform A p ants len nrows records rows samples s)

/-- One step under a given arithmetic and parameters. -/
def stepWith (A : Arith R C) (p : Params R C) (s : State) : Host.Outcome State Fault Refusal :=
  match fetch p s with
  | .incomplete => .next s
  | .illegal index frame rest => .next (rejectFrame index frame rest s)
  | .command i rest => execWith A p i (s.consume rest)

/-- The state after reset under given parameters (R35). -/
def resetWith (p : Params R C) : State where
  config := none
  bank := p.defaultDelayFir
  commandPort := []
  responsePort := []

end Sys2Proof.Machine
end

