-- ==== Sys2Proof/Safety.lean ====
section
/-! DEFINITION. The terms claims about the block are made in: the invariant of its states (R25), and the spec's datapath formulas
over the complex and the real numbers (R141 to R147, R172 to R176), written as sums over indices and independent of the list code
of Machine/. -/

namespace Sys2Proof.Machine

/-! ## The invariant -/

/-- R25: the block is unconfigured, or its mode, filter and tuning word are valid together. -/
def configOk {R C : Type} (p : Params R C) (s : State) : Bool :=
  match s.config with
  | none => true
  | some c => validConfig p c

/-- A response some command sends: an output payload has the counts it names, at least 1 of each, and the words of whole samples
(R90, R91); an item index fits its 16 bits (R223). -/
def responseOk {R C : Type} (p : Params R C) : Response → Bool
  | .ok .empty => true
  | .ok (.streams count lout ys) =>
    decide (1 ≤ count ∧ count ≤ p.maxStreams ∧ 1 ≤ lout) && ys.length == count && ys.all (fun y => y.length == lout * p.fmt.swC)
  | .ok (.beams lout bx bY) => decide (1 ≤ lout) && bx.length == lout * p.fmt.swR && bY.length == lout * p.fmt.swR
  | .error (.invalidConfiguration _) => true
  | .error (.malformedCoefficients _) => true
  | .error (.processingFailure _ item) => decide (item < 65536)
  | .error (.illegalCommand _) => true

/-- What every step keeps. -/
def inv {R C : Type} (p : Params R C) (s : State) : Bool := configOk p s && s.responsePort.all (responseOk p)

/-! ## Commands by what they may write -/

/-- The four commands that may write the configuration (R206). -/
def writesConfig : Instr → Bool
  | .configure _ _ _ => true
  | .setMode _ => true
  | .setFilter _ => true
  | .setCfreq _ => true
  | .dfirCh _ _ => false
  | .dfirAll _ => false
  | .dfirReset => false
  | .ddc _ _ _ _ => false
  | .beamform _ _ _ _ _ _ => false

/-- The three commands that may write `BANK` (R27). -/
def writesBank : Instr → Bool
  | .configure _ _ _ => false
  | .setMode _ => false
  | .setFilter _ => false
  | .setCfreq _ => false
  | .dfirCh _ _ => true
  | .dfirAll _ => true
  | .dfirReset => true
  | .ddc _ _ _ _ => false
  | .beamform _ _ _ _ _ _ => false

/-- The reserved bits of word i of a complete frame (R73 to R83, R93). -/
def reservedBits (op : Opcode) (frame : List Word) (i : Nat) : Word :=
  if i = 0 then reservedMask op
  else
    match op with
    | .dfirCh | .dfirAll =>
      if tapCount (wordAt frame 1) % 2 = 1 ∧ i = 1 + tapWordCount (tapCount (wordAt frame 1)) then 0x0000FFFF else 0
    | .beamform => if 4 ≤ i ∧ i < 4 + 2 * (wordAt frame 1).toNat ∧ i % 2 = 0 then 0x000000FF else 0
    | .configure | .setMode | .setFilter | .setCfreq | .dfirReset | .ddc => 0

/-- The reason of the first check of R179's step 4 that antenna a fails, and nothing where it passes them all: channel,
polarization, stand, coarse delay, samples. -/
def firstFailure {R C : Type} (fmt : SampleFormat R C) (len nrows : Nat) (samples : List Word) (rec : AntennaRecord) (a : Nat) :
    Option FailureReason :=
  if rec.channel.toNat < 1 ∨ NCHAN < rec.channel.toNat then some .antennaChannel
  else if rec.pol ≠ 0 ∧ rec.pol ≠ 1 then some .polarization
  else if nrows ≤ rec.stand.toNat then some .stand
  else if len ≤ coarseDelay rec.delay then some .coarseDelay
  else if (List.range len).any (fun n => (fmt.decR (sampleWords fmt.swR samples (a * len + n))).isNone) then
    some .undecodableSample
  else none

/-- Every check of R149 passes for a DDC in state s: c is the configuration, pack its filter pack, the counts are within their
limits, and sample n of stream r decodes to `x r n`. -/
structure DdcReady {R C : Type} (p : Params R C) (s : State) (c : Configuration) (pack : FilterPack R) (count len : Word)
    (samples : List Word) (x : Nat → Nat → C) : Prop where
  configured : s.config = some c
  hasPack : packOf? p.filterTable c.mode c.filter = some pack
  streams : 1 ≤ count.toNat ∧ count.toNat ≤ p.maxStreams
  length : 1 ≤ len.toNat ∧ len.toNat ≤ p.maxLen
  decodes : ∀ r < count.toNat, ∀ n < len.toNat,
    p.fmt.decC (sampleWords p.fmt.swC samples (r * len.toNat + n)) = some (x r n)

/-- Every check of R179 passes for a BEAMFORM, and `as` are its antennas: what the fields of each record and its samples denote
(R82, R84, R170). -/
structure BeamformReady {R C : Type} [Zero R] (p : Params R C) (ants len nrows : Word) (records : List AntennaRecord)
    (rows : List GainRow) (samples : List Word) (as : List (Antenna R)) : Prop where
  antennas : 1 ≤ ants.toNat ∧ ants.toNat ≤ p.maxAnt
  length : 1 ≤ len.toNat ∧ len.toNat ≤ p.maxLen
  rowCount : nrows.toNat ≤ p.maxRows
  codes : ∀ g ∈ rows, g.xx.toNat ≤ 32767 ∧ g.xy.toNat ≤ 32767 ∧ g.yx.toNat ≤ 32767 ∧ g.yy.toNat ≤ 32767
  oneEach : as.length = records.length
  denotes : ∀ (a : Nat) (rec : AntennaRecord) (an : Antenna R), records[a]? = some rec → as[a]? = some an →
    an.channel.val + 1 = rec.channel.toNat ∧ ((rec.pol = 0 ∧ an.pol = .x) ∨ (rec.pol = 1 ∧ an.pol = .y)) ∧
    rows[rec.stand.toNat]? = some an.gains ∧
    an.coarse = coarseDelay rec.delay ∧ an.coarse < len.toNat ∧ an.fine = finePhase rec.delay ∧
    an.samples.length = len.toNat ∧
    ∀ n < len.toNat, p.fmt.decR (sampleWords p.fmt.swR samples (a * len.toNat + n)) = some (an.samples.getD n 0)

/-- The state with one more response on its port and nothing else changed. -/
def answered (s : State) (r : Response) : State := { s with responsePort := s.responsePort ++ [r] }

/-- The state after a list of commands, each run from the state the one before it left (R60). -/
def execAll : List Instr → State → Host.Outcome State Fault Refusal
  | [], s => .next s
  | i :: rest, s =>
    match exec i s with
    | .next t => execAll rest t
    | .fault f => .fault f
    | .refused r => .refused r

/-! ## The narrowband path over the complex numbers

The sums are indexed by `Finset.range`; `osc k` of Machine/Oscillator.lean is `exp(-i·2π·k/2^32)`. -/

/-- `m[n] = x[n] · lo[n]` with `phi[n] = (tw · t[n]) mod 2^32` (R141, R142). -/
noncomputable def mixValue (tw : BitVec 32) (t : Nat → TimeTag) (x : Nat → ℂ) (n : Nat) : ℂ :=
  x n * osc ((tw.toNat * (t n).toNat) % 2 ^ 32)

/-- `d[n] = m[n] - mu`, mu the mean over the L samples (R143). -/
noncomputable def dcFreeValue (len : Nat) (m : Nat → ℂ) (n : Nat) : ℂ := m n - (∑ i ∈ Finset.range len, m i) / len

/-- Output n of `FIRF(h, x)` (R17). -/
noncomputable def firValue (h : List ℝ) (x : Nat → ℂ) (n : Nat) : ℂ :=
  ∑ k ∈ Finset.range h.length, if k ≤ n then ((h.getD k 0 : ℝ) : ℂ) * x (n - k) else 0

/-- `c[j]` of R146. -/
noncomputable def cicValue (pack : FilterPack ℝ) (d : Nat → ℂ) (j : Nat) : ℂ :=
  firValue (pack.cic.map (fun k : Int => (k : ℝ))) d (j * pack.cicD) / pack.cicD

/-- `y[j]` of R147. -/
noncomputable def firOutValue (pack : FilterPack ℝ) (c : Nat → ℂ) (j : Nat) : ℂ := firValue pack.fir c (j * pack.firD)

/-- Output j of the per-stream function on a stream of L samples (R140). -/
noncomputable def engineValue (pack : FilterPack ℝ) (tw : BitVec 32) (t : Nat → TimeTag) (len : Nat) (x : Nat → ℂ) (j : Nat) : ℂ :=
  firOutValue pack (cicValue pack (dcFreeValue len (mixValue tw t x))) j

/-! ## The beam path over the real numbers -/

/-- `v_a[n]` of R173 over `u_a` of R172: `Σ_k (h_a[k] / 32767) · u_a[n - k]`, `u_a[m] = x_a[(m - coarse_a) mod L]`, 0 for m < 0. -/
noncomputable def streamValue (bank : Bank) (a : Antenna ℝ) (n : Nat) : ℝ :=
  ∑ k : Fin NTAPS, if k.val ≤ n then
    (bankTap bank a.channel a.fine k : ℝ) / 32767 *
      a.samples.getD (((n : Int) - k.val - a.coarse) % (a.samples.length : Int)).toNat 0
  else 0

/-- The gains of R175 an antenna has into beamX and beamY, its codes divided by 32767 (R171). -/
noncomputable def gainValues (a : Antenna ℝ) : ℝ × ℝ :=
  match a.pol with
  | .x => ((a.gains.xx.toNat : ℝ) / 32767, (a.gains.xy.toNat : ℝ) / 32767)
  | .y => ((a.gains.yx.toNat : ℝ) / 32767, (a.gains.yy.toNat : ℝ) / 32767)

/-- `BX[n]` of R175: the sum over all antennas. -/
noncomputable def beamXValue (bank : Bank) (ants : List (Antenna ℝ)) (n : Nat) : ℝ :=
  (ants.map (fun a => (gainValues a).1 * streamValue bank a n)).sum

/-- `BY[n]` of R175. -/
noncomputable def beamYValue (bank : Bank) (ants : List (Antenna ℝ)) (n : Nat) : ℝ :=
  (ants.map (fun a => (gainValues a).2 * streamValue bank a n)).sum

/-! ## The evaluable arithmetic and the numbers it stands for -/

/-- The terms of a canonical value: exponents strictly rising, each at least `low` and below `halfTurn`, no zero coefficient. -/
def canonicalFrom (low : Nat) : List (Nat × Rat) → Bool
  | [] => true
  | (e, q) :: rest => decide (low ≤ e) && decide (e < halfTurn) && decide (q ≠ 0) && canonicalFrom (e + 1) rest

/-- A sum of roots of unity in its canonical form. -/
def canonicalCyc (a : Cyc) : Bool := canonicalFrom 0 a.terms

/-- The complex number a sum of roots of unity is. -/
noncomputable def cycValue (a : Cyc) : ℂ := (a.terms.map (fun t => (t.2 : ℂ) * osc t.1)).sum

/-- A pack of rational taps as one of real taps. -/
noncomputable def realPack (pack : FilterPack Rat) : FilterPack ℝ where
  cic := pack.cic
  cicD := pack.cicD
  fir := pack.fir.map (fun q : Rat => (q : ℝ))
  firD := pack.firD
  totalD := pack.totalD
  cic_nonempty := pack.cic_nonempty
  fir_nonempty := fun h => pack.fir_nonempty (List.map_eq_nil_iff.mp h)
  cicD_pos := pack.cicD_pos
  firD_pos := pack.firD_pos
  totalD_eq := pack.totalD_eq

end Sys2Proof.Machine
end

