-- ==== Sys2Proof/Certificates/Slice0/Obligations.lean ====
section
/-! DEFINITION. The statements about the block. Each docstring names the rule it states. `exec` and `step` are the block's at the
opaque `Config.params`, so a statement about them is about every admissible set of parameters. -/

open Sys2Proof Sys2Proof.Machine

/-! ## Encoding (R52, R70 to R97) -/

/-- R73 to R83, R95 to R97: the frame of a well-formed command decodes to that command, every operand at every value, and
leaves the words after the frame. -/
def Obligations.DecodeOfEncodeIsCommand : Prop :=
  ∀ (fmt : SampleFormat ℝ ℂ) (i : Instr) (rest : List Word), i.wf fmt = true → decode fmt (encode i ++ rest) = .command i rest

/-- R73 to R83, R93, R97: words that decode to a command are exactly that command's frame and the words left over, and the
command is well formed; so no two frames stand for one command, and none has a nonzero reserved bit. -/
def Obligations.DecodedCommandIsItsFrame : Prop :=
  ∀ (fmt : SampleFormat ℝ ℂ) (ws rest : List Word) (i : Instr), decode fmt ws = .command i rest →
    i.wf fmt = true ∧ ws = encode i ++ rest

/-- R73 to R83: frames written out from the layouts, one of each format. The words of the samples, which `SAMPLE_FORMAT` lays out,
are any words of the right number. -/
def Obligations.FramesWrittenFromTheLayoutsDecode : Prop :=
  ∀ fmt : SampleFormat ℝ ℂ,
    decode fmt [0x01000700, 0x60A72F05] = .command (.configure 0 7 0x60A72F05) [] ∧
    decode fmt [0x02010000] = .command (.setMode 1) [] ∧
    decode fmt [0x03030000, 0x12000000] = .command (.setFilter 3) [0x12000000] ∧
    decode fmt [0x04000000, 0x0D0FAC68] = .command (.setCfreq 0x0D0FAC68) [] ∧
    decode fmt [0x10000208, 0x00010003, 0x00018000, 0x7FFF0000] =
      .command (.dfirCh 520 ⟨1, 3, [1, 0x8000, 0x7FFF]⟩) [] ∧
    decode fmt [0x11000000, 0x00020001, 0x0005FFFF] = .command (.dfirAll ⟨2, 1, [5, 0xFFFF]⟩) [] ∧
    decode fmt [0x12000000] = .command .dfirReset [] ∧
    decode fmt [0x20000000, 0, 1, 0x01234567, 0x89ABCDEF] = .command (.ddc 0 1 [0x0123456789ABCDEF] []) [] ∧
    (∀ ws : List Word, ws.length = fmt.swC →
      decode fmt ([0x20000000, 1, 1, 0x01234567, 0x89ABCDEF] ++ ws) = .command (.ddc 1 1 [0x0123456789ABCDEF] ws) []) ∧
    decode fmt [0x30000000, 1, 0, 2, 0x02080100, 0x00030017, 0x00010002, 0x00030004, 0x00050006, 0x00070008] =
      .command (.beamform 1 0 2 [⟨520, 1, 3, 0x17⟩] [⟨1, 2, 3, 4⟩, ⟨5, 6, 7, 8⟩] []) [] ∧
    (∀ ws : List Word, ws.length = fmt.swR →
      decode fmt ([0x30000000, 1, 1, 1, 0x02080100, 0x00030017, 0x00010002, 0x00030004] ++ ws) =
        .command (.beamform 1 1 1 [⟨520, 1, 3, 0x17⟩] [⟨1, 2, 3, 4⟩] ws) [])

/-- R92: a header with an unassigned opcode is a frame of one word, whatever its other bits: the block answers `IllegalCommand`
with info 0, changes nothing else, and takes the next word as the next header. -/
def Obligations.UnassignedOpcodeIsOneIllegalWord : Prop :=
  ∀ (s : State) (h : Word) (ws : List Word),
    (byte3 h ∉ [0x01, 0x02, 0x03, 0x04, 0x10, 0x11, 0x12, 0x20, 0x30]) → s.commandPort = h :: ws →
    step s = .next { s with commandPort := ws, responsePort := s.responsePort ++ [.error (.illegalCommand 0)] }

/-- R93: a complete frame of an assigned format with a nonzero reserved bit is consumed at its normal length and answered
`IllegalCommand`, whose info is the index of the first word that holds such a bit, and changes nothing else. Where the index
does not fit the 24 bits of the field the rule states no info (log entry 3), and every other effect is the same. -/
def Obligations.ReservedBitsMakeTheFrameIllegal : Prop :=
  ∀ (s : State) (op : Opcode) (n k : Nat),
    opcodeOf? (wordAt s.commandPort 0) = some op → frameLength? Config.params.fmt s.commandPort = some n →
    n ≤ s.commandPort.length → k < n →
    wordAt s.commandPort k &&& reservedBits op s.commandPort k ≠ 0 →
    (∀ j < k, wordAt s.commandPort j &&& reservedBits op s.commandPort j = 0) →
    ∃ info : BitVec 24, (k < 2 ^ 24 → info = BitVec.ofNat 24 k) ∧
      step s = .next { s with commandPort := s.commandPort.drop n, responsePort := s.responsePort ++ [.error (.illegalCommand info)] }

/-- R70, R240: the block does not act on a frame until all its words have arrived. It waits, its state unchanged: that
the wait is a step is the model's choice, log entry 2. -/
def Obligations.IncompleteFrameLeavesTheStateUnchanged : Prop :=
  ∀ s : State, (∀ n, frameLength? Config.params.fmt s.commandPort = some n → s.commandPort.length < n) → step s = .next s

/-- R7, R95: a step whose command port begins with the frame of a command takes that frame off the port and runs the command. -/
def Obligations.StepRunsTheDecodedCommand : Prop :=
  ∀ (s : State) (i : Instr) (rest : List Word), decode Config.params.fmt s.commandPort = .command i rest →
    step s = exec i { s with commandPort := rest }

/-- R60, R61: frames that wait on the command port run one after another, each from the state the one before it left; the
words after the last of them stay. -/
def Obligations.FramesRunInTheOrderReceived : Prop :=
  ∀ (cs : List Instr) (rest : List Word) (s : State), (∀ i ∈ cs, i.wf Config.params.fmt = true) →
    Host.Core.run Sys2Proof.core cs.length { s with commandPort := cs.flatMap encode ++ rest } =
      execAll cs { s with commandPort := rest }

/-- R52: bytes leave a port most significant first, so a word's high half goes before its low half, and the words that were
sent are read back from the bytes. -/
def Obligations.PortsAreBigEndian : Prop :=
  (∀ a b : BitVec 16, wordBytes (pack16 a b) =
    [a.extractLsb' 8 8, a.extractLsb' 0 8, b.extractLsb' 8 8, b.extractLsb' 0 8]) ∧
  (∀ t : TimeTag, frameBytes (encodeTag t) = (List.range 8).map (fun i => t.extractLsb' (56 - 8 * i) 8)) ∧
  (∀ ws : List Word, wordsOfBytes (frameBytes ws) = some ws) ∧
  (∀ bs : List Byte, bs.length % 4 ≠ 0 → wordsOfBytes bs = none)

/-! ## All commands (R7, R21, R27, R206, R226) -/

/-- R7, R61: a command that ends puts exactly one response behind those already on the port, and takes nothing more off the
command port. -/
def Obligations.OneResponsePerCommand : Prop :=
  ∀ (i : Instr) (s t : State), exec i s = .next t →
    t.commandPort = s.commandPort ∧ ∃ r : Response, t.responsePort = s.responsePort ++ [r]

/-- R226: a command or a frame that raises an error writes no state element, its response is the one word {info, code}, and the
block goes on to the words after the frame. -/
def Obligations.ErrorsWriteNoState : Prop :=
  (∀ (i : Instr) (s t : State) (e : CommandError), exec i s = .next t → t.responsePort = s.responsePort ++ [.error e] →
    t = answered s (.error e)) ∧
  (∀ (s t : State) (e : CommandError), step s = .next t → t.responsePort = s.responsePort ++ [.error e] →
    ∃ n : Nat, frameLength? Config.params.fmt s.commandPort = some n ∧ n ≤ s.commandPort.length ∧
      t = answered { s with commandPort := s.commandPort.drop n } (.error e)) ∧
  (∀ e : CommandError, responseWords (.error e) = [errorInfo e ++ errorCode e])

/-- R206: the configuration changes only in a step that runs one of its four commands, and SET_MODE never changes the filter
code or the tuning word. -/
def Obligations.OnlyTheSettersWriteTheConfiguration : Prop :=
  (∀ s t : State, step s = .next t → t.config ≠ s.config →
    ∃ (i : Instr) (rest : List Word), decode Config.params.fmt s.commandPort = .command i rest ∧ writesConfig i = true) ∧
  (∀ (m : BitVec 8) (s t : State), exec (.setMode m) s = .next t →
    t.config.map (fun c => (c.filter, c.tw)) = s.config.map (fun c => (c.filter, c.tw)))

/-- R27, R28: `BANK` changes only in a step that runs DFIR.CH, DFIR.ALL or DFIR.RESET. -/
def Obligations.OnlyDfirCommandsWriteTheBank : Prop :=
  ∀ s t : State, step s = .next t → t.bank ≠ s.bank →
    ∃ (i : Instr) (rest : List Word), decode Config.params.fmt s.commandPort = .command i rest ∧ writesBank i = true

/-- R21: nothing clears `CONFIGURED`, and only a CONFIGURE sets it. -/
def Obligations.ConfiguredIsSetByConfigureAndNeverCleared : Prop :=
  ∀ s t : State, step s = .next t →
    (s.configured = true → t.configured = true) ∧
    (s.configured = false → t.configured = true →
      ∃ (m f : BitVec 8) (tw : Word) (rest : List Word),
        decode Config.params.fmt s.commandPort = .command (.configure m f tw) rest)

/-! ## The invariant (R25, R90, R91) -/

/-- R25 and the counts of R90, R91, R223: every step keeps the configuration valid, and the responses on the port as their payloads
count them: the streams, and the words of whole samples. -/
def Obligations.StepKeepsInvariant : Prop :=
  ∀ s t : State, inv Config.params s = true → step s = .next t → inv Config.params t = true

/-- R35, R250: the state after reset is unconfigured, holds the default bank, has empty ports, and meets the invariant. -/
def Obligations.ResetMeetsInvariant : Prop :=
  State.reset.configured = false ∧ State.reset.bank = Config.params.defaultDelayFir ∧ State.reset.commandPort = [] ∧
    State.reset.responsePort = [] ∧ inv Config.params State.reset = true

/-- R240: the block never hangs and never stops: in every state that meets the invariant a step, and every command, answers a
next state. On an incomplete frame that is the state itself, log entry 2. -/
def Obligations.ValidStatesNeverStop : Prop :=
  ∀ s : State, inv Config.params s = true → (∃ t, step s = .next t) ∧ ∀ i : Instr, ∃ t, exec i s = .next t

/-! ## Configuration (R200 to R204) -/

/-- R204: the three validity predicates, and the block's bounds as the codec's words for 10 MHz and 88 MHz. -/
def Obligations.ValidityPredicates : Prop :=
  (∀ m : BitVec 8, modeOf? m = (if m = 0 then some .tbn else if m = 1 then some .drx else none)) ∧
  (∀ (m : Mode) (f : BitVec 8), validFilter m f = true ↔
    (m = .tbn ∧ (f = 5 ∨ f = 6 ∨ f = 7)) ∨ (m = .drx ∧ (f = 3 ∨ f = 4 ∨ f = 5 ∨ f = 6 ∨ f = 7))) ∧
  (∀ w : Word, validTW Config.params w = true ↔ Config.params.twMin.toNat ≤ w.toNat ∧ w.toNat ≤ Config.params.twMax.toNat) ∧
  frequencyToTuningWord Config.params.fsHz (10000000 : ℝ) = some Config.params.twMin ∧
  frequencyToTuningWord Config.params.fsHz (88000000 : ℝ) = some Config.params.twMax

/-- R204, R101: every real frequency of 10 MHz to 88 MHz has a tuning word, and the block accepts it. -/
def Obligations.EveryFrequencyInRangeIsAccepted : Prop :=
  ∀ (p : Params ℝ ℂ) (f : ℝ), Admissible p → 10000000 ≤ f → f ≤ 88000000 →
    ∃ w : Word, frequencyToTuningWord p.fsHz f = some w ∧ validTW p w = true

/-- R200: CONFIGURE checks mode, then filter against the new mode, then tuning word; it writes all its fields or none. -/
def Obligations.ConfigureWritesAllOrRaises : Prop :=
  ∀ (m f : BitVec 8) (tw : Word) (s : State),
    (m ≠ 0 → m ≠ 1 → exec (.configure m f tw) s = .next (answered s (.error (.invalidConfiguration .modeCode)))) ∧
    (∀ mode, modeOf? m = some mode → validFilter mode f = false →
      exec (.configure m f tw) s = .next (answered s (.error (.invalidConfiguration .filterCode)))) ∧
    (∀ mode, modeOf? m = some mode → validFilter mode f = true → validTW Config.params tw = false →
      exec (.configure m f tw) s = .next (answered s (.error (.invalidConfiguration .tuningWord)))) ∧
    (∀ mode, modeOf? m = some mode → validFilter mode f = true → validTW Config.params tw = true →
      exec (.configure m f tw) s = .next (answered { s with config := some ⟨mode, f, tw⟩ } (.ok .empty)))

/-- R201: SET_MODE, unconfigured, with a code that names no mode, with a mode the filter does not suit, and otherwise. -/
def Obligations.SetModeWritesTheModeOrRaises : Prop :=
  ∀ (m : BitVec 8) (s : State),
    (s.config = none → exec (.setMode m) s = .next (answered s (.error (.invalidConfiguration .notConfigured)))) ∧
    (∀ c, s.config = some c →
      (m ≠ 0 → m ≠ 1 → exec (.setMode m) s = .next (answered s (.error (.invalidConfiguration .modeCode)))) ∧
      (∀ mode, modeOf? m = some mode → validFilter mode c.filter = false →
        exec (.setMode m) s = .next (answered s (.error (.invalidConfiguration .filterCode)))) ∧
      (∀ mode, modeOf? m = some mode → validFilter mode c.filter = true →
        exec (.setMode m) s = .next (answered { s with config := some ⟨mode, c.filter, c.tw⟩ } (.ok .empty))))

/-- R202: SET_FILTER, unconfigured, with a code the mode does not support, and otherwise. -/
def Obligations.SetFilterWritesTheFilterOrRaises : Prop :=
  ∀ (f : BitVec 8) (s : State),
    (s.config = none → exec (.setFilter f) s = .next (answered s (.error (.invalidConfiguration .notConfigured)))) ∧
    (∀ c, s.config = some c →
      (validFilter c.mode f = false →
        exec (.setFilter f) s = .next (answered s (.error (.invalidConfiguration .filterCode)))) ∧
      (validFilter c.mode f = true →
        exec (.setFilter f) s = .next (answered { s with config := some ⟨c.mode, f, c.tw⟩ } (.ok .empty))))

/-- R203: SET_CFREQ, unconfigured, with a tuning word out of range, and otherwise. -/
def Obligations.SetCfreqWritesTheTuningWordOrRaises : Prop :=
  ∀ (tw : Word) (s : State),
    (s.config = none → exec (.setCfreq tw) s = .next (answered s (.error (.invalidConfiguration .notConfigured)))) ∧
    (∀ c, s.config = some c →
      (validTW Config.params tw = false →
        exec (.setCfreq tw) s = .next (answered s (.error (.invalidConfiguration .tuningWord)))) ∧
      (validTW Config.params tw = true →
        exec (.setCfreq tw) s = .next (answered { s with config := some ⟨c.mode, c.filter, tw⟩ } (.ok .empty))))

/-! ## Codecs (R13, R101 to R107), at the reals -/

/-- R13: `round(x)` minimises |x - n| over the integers, and is even where two integers tie. -/
def Obligations.RoundIsNearestTiesToEven : Prop :=
  ∀ x : ℝ, (∀ n : ℤ, |x - (roundEven x : ℝ)| ≤ |x - (n : ℝ)|) ∧
    (∀ n : ℤ, n ≠ roundEven x → |x - (n : ℝ)| = |x - (roundEven x : ℝ)| → Even (roundEven x))

/-- R101: the tuning word of a frequency is round(freq · 2^32 / FS_HZ) where that is a 32-bit number, and else there is none. -/
def Obligations.TuningWordIsTheRoundedRatio : Prop :=
  ∀ (fs f : ℝ) (w : Word), frequencyToTuningWord fs f = some w ↔ ((w.toNat : ℤ) = roundEven (f * 2 ^ 32 / fs))

/-- R102: a frequency that has a tuning word is decoded from it to within half an LSB. -/
def Obligations.TuningWordRoundTrip : Prop :=
  ∀ (fs f : ℝ) (w : Word), 0 < fs → frequencyToTuningWord fs f = some w → |tuningWordToFrequency fs w - f| ≤ fs / 2 ^ 33

/-- R104: the byte-swapped result packs the rounded count of sixteenths, coarse above fine; outside 0..65535 there is none. -/
def Obligations.DelayFieldPacksTheSixteenths : Prop :=
  ∀ (fs d : ℝ) (c : BitVec 16), delayToEncoded fs d = some c ↔
    (((bswap16 c).toNat : ℤ) = roundEven (d * fs * 16 / 1000000000) ∧
      (coarseDelay (bswap16 c) : ℤ) = roundEven (d * fs * 16 / 1000000000) / 16 ∧
      ((finePhase (bswap16 c)).val : ℤ) = roundEven (d * fs * 16 / 1000000000) % 16)

/-- R105: a delay that has an encoding is decoded from it to within half a sixteenth of a sample. -/
def Obligations.DelayRoundTrip : Prop :=
  ∀ (fs d : ℝ) (c : BitVec 16), 0 < fs → delayToEncoded fs d = some c →
    |encodedToDelay fs c - d| ≤ 1000000000 / (32 * fs)

/-- R106: a gain has an encoding exactly when it lies in [0, 1], and that is its rounded product with 32767, byte-swapped. -/
def Obligations.GainFieldIsTheRoundedProduct : Prop :=
  ∀ g : ℝ, ((g < 0 ∨ 1 < g) → gainToEncoded g = none) ∧
    (0 ≤ g → g ≤ 1 → ∃ c : BitVec 16, gainToEncoded g = some c ∧ ((bswap16 c).toNat : ℤ) = roundEven (g * 32767) ∧
      (bswap16 c).toNat ≤ 32767)

/-- R107: a gain in [0, 1] is decoded from its encoding to within 1 / (2 · 32767). -/
def Obligations.GainRoundTrip : Prop :=
  ∀ (g : ℝ) (c : BitVec 16), gainToEncoded g = some c → |encodedToGain c - g| ≤ 1 / (2 * 32767)

/-! ## The delay-FIR bank (R125 to R129) -/

/-- R125: DFIR.CH on a channel of 1..520 with a 16 × 32 block loads that channel and leaves every other tap, the configuration and
the ports' other contents as they were. -/
def Obligations.DfirChLoadsOneChannel : Prop :=
  ∀ (c : BitVec 16) (block : TapBlock) (s : State), 1 ≤ c.toNat → c.toNat ≤ 520 → block.lists = 16 → block.length = 32 →
    ∃ t, exec (.dfirCh c block) s = .next t ∧
      t.config = s.config ∧ t.commandPort = s.commandPort ∧ t.responsePort = s.responsePort ++ [.ok .empty] ∧
      ∀ (ch : Fin NCHAN) (p : Fin NPHASE) (k : Fin NTAPS), bankTap t.bank ch p k =
        if ch.val + 1 = c.toNat then (block.taps.getD (p.val * 32 + k.val) 0).toInt else bankTap s.bank ch p k

/-- R126: DFIR.ALL with a 16 × 32 block loads every channel and changes nothing else. -/
def Obligations.DfirAllLoadsEveryChannel : Prop :=
  ∀ (block : TapBlock) (s : State), block.lists = 16 → block.length = 32 →
    ∃ t, exec (.dfirAll block) s = .next t ∧
      t.config = s.config ∧ t.commandPort = s.commandPort ∧ t.responsePort = s.responsePort ++ [.ok .empty] ∧
      ∀ (ch : Fin NCHAN) (p : Fin NPHASE) (k : Fin NTAPS), bankTap t.bank ch p k = (block.taps.getD (p.val * 32 + k.val) 0).toInt

/-- R127: DFIR.RESET returns every channel to the hardware defaults and changes nothing else. -/
def Obligations.DfirResetRestoresTheDefaults : Prop :=
  ∀ s : State, exec .dfirReset s = .next (answered { s with bank := Config.params.defaultDelayFir } (.ok .empty))

/-- R125, R126, R128, R129: the checks of DFIR.CH (channel, then shape) and DFIR.ALL (shape), in their order, with `BANK`
unchanged. -/
def Obligations.DfirChecksRaiseInOrder : Prop :=
  ∀ (c : BitVec 16) (block : TapBlock) (s : State),
    ((c.toNat < 1 ∨ 520 < c.toNat) → exec (.dfirCh c block) s = .next (answered s (.error (.invalidConfiguration .channel)))) ∧
    (∀ i : Instr, (i = .dfirAll block ∨ (i = .dfirCh c block ∧ 1 ≤ c.toNat ∧ c.toNat ≤ 520)) →
      ((block.lists = 0 ∨ block.length = 0) → exec i s = .next (answered s (.error (.malformedCoefficients .empty)))) ∧
      (block.lists ≠ 0 → block.length ≠ 0 → block.lists ≠ 16 →
        exec i s = .next (answered s (.error (.malformedCoefficients .listCount)))) ∧
      (block.lists = 16 → block.length ≠ 0 → block.length ≠ 32 →
        exec i s = .next (answered s (.error (.malformedCoefficients .listLength)))))

/-! ## The narrowband path (R121, R140 to R153, R254) -/

/-- R10, R121, R122: the filter table has a pack for exactly the supported pairs; every pack's factors are at least 1 and its
total decimation is their product, 1960 for TBN with filter 7. -/
def Obligations.FilterTableHoldsTheSupportedPairs : Prop :=
  ∀ (p : Params ℝ ℂ) (m : Mode) (f : BitVec 8),
    ((packOf? p.filterTable m f).isSome = true ↔ validFilter m f = true) ∧
    (∀ pack, packOf? p.filterTable m f = some pack →
      1 ≤ pack.cicD ∧ 1 ≤ pack.firD ∧ pack.totalD = pack.cicD * pack.firD ∧ (m = .tbn → f = 7 → pack.totalD = 1960))

/-- R149, R90: a DDC in a configured block, on 1..MAX_STREAMS streams of 1..MAX_LEN samples that all decode, answers with the
per-stream function of each stream, in order, under the configured pack and tuning word, and changes nothing else. -/
def Obligations.DdcAnswersEachStream : Prop :=
  ∀ (s : State) (c : Configuration) (pack : FilterPack ℝ) (count len : Word) (tags : List TimeTag) (samples : List Word)
    (x : Nat → Nat → ℂ),
    DdcReady Config.params s c pack count len samples x →
    exec (.ddc count len tags samples) s = .next (answered s (.ok (streamsPayload Config.params.fmt count.toNat
      (outputLength pack len.toNat)
      ((List.range count.toNat).map (fun r => engine exactArith pack c.tw tags ((List.range len.toNat).map (x r)))))))

/-- R149: the checks of DDC in their order: unconfigured, an empty batch, a batch above the limits, and the first stream with a
sample that does not decode. `execWith exactArith p` is the block with the
parameters p, and `exec` is that at `Config.params`. -/
def Obligations.DdcChecksRaiseInOrder : Prop :=
  (∀ (i : Instr) (s : State), exec i s = execWith exactArith Config.params i s) ∧
  ∀ (p : Params ℝ ℂ) (s : State) (count len : Word) (tags : List TimeTag) (samples : List Word),
    (s.config = none → execWith exactArith p (.ddc count len tags samples) s =
      .next (answered s (.error (.invalidConfiguration .notConfigured)))) ∧
    (s.config ≠ none →
      ((count = 0 ∨ len = 0) → execWith exactArith p (.ddc count len tags samples) s =
        .next (answered s (.error (.processingFailure .emptyBatch 0)))) ∧
      (count ≠ 0 → len ≠ 0 → (p.maxStreams < count.toNat ∨ p.maxLen < len.toNat) →
        execWith exactArith p (.ddc count len tags samples) s = .next (answered s (.error (.processingFailure .tooLarge 0)))) ∧
      (∀ r n : Nat, count ≠ 0 → len ≠ 0 → count.toNat ≤ p.maxStreams → len.toNat ≤ p.maxLen →
        r < count.toNat → n < len.toNat →
        p.fmt.decC (sampleWords p.fmt.swC samples (r * len.toNat + n)) = none →
        (∀ r' < r, ∀ n' < len.toNat,
          p.fmt.decC (sampleWords p.fmt.swC samples (r' * len.toNat + n')) ≠ none) →
        execWith exactArith p (.ddc count len tags samples) s = .next (answered s (.error (.processingFailure .undecodableSample r)))))

/-- R141: the oscillator value of a time tag is `exp(-i·2π·fc·t/FS_HZ)` for the frequency fc the tuning word gives, though the
phase is kept modulo 2^32. -/
def Obligations.NcoPhaseIsTheOscillator : Prop :=
  ∀ (fs : ℝ) (tw : BitVec 32) (t : TimeTag), 0 < fs →
    osc (ncoPhase tw t).toNat =
      Complex.exp (-(Complex.I * (2 * Real.pi * (tuningWordToFrequency fs tw : ℝ) * (t.toNat : ℝ) / fs)))

/-- R145: between any two tags the phase advances by the tuning word times their difference, modulo 2^32. -/
def Obligations.NcoPhaseAccumulates : Prop :=
  ∀ (tw : BitVec 32) (t t' : TimeTag),
    ((ncoPhase tw t').toNat : ℤ) = ((ncoPhase tw t).toNat + tw.toNat * ((t'.toNat : ℤ) - t.toNat)) % 2 ^ 32

/-- R140 to R147: every output of the per-stream function is the complex number the four steps give: mix, mean removal, CIC with
its division, FIR. For rational taps and streams of sums of roots of unity the evaluable arithmetic computes the same numbers. -/
def Obligations.EngineComputesTheFourSteps : Prop :=
  (∀ (pack : FilterPack ℝ) (tw : BitVec 32) (tags : List TimeTag) (x : List ℂ) (j : Nat),
    tags.length = x.length → j < (engine exactArith pack tw tags x).length →
    (engine exactArith pack tw tags x).getD j 0 =
      engineValue pack tw (fun n => tags.getD n 0) x.length (fun n => x.getD n 0) j) ∧
  (∀ (pack : FilterPack Rat) (tw : BitVec 32) (tags : List TimeTag) (x : List Cyc) (j : Nat),
    tags.length = x.length → j < (engine cycArith pack tw tags x).length →
    cycValue ((engine cycArith pack tw tags x).getD j ⟨[]⟩) =
      engineValue (realPack pack) tw (fun n => tags.getD n 0) x.length (fun n => cycValue (x.getD n ⟨[]⟩)) j)

/-- R8, R15, of the evaluable arithmetic (log entry 4): canonical values that stand for one complex number are one datum, so
comparing them as data compares the numbers. -/
def Obligations.CanonicalValuesAreEqualOnlyIfIdentical : Prop :=
  ∀ a b : Cyc, canonicalCyc a = true → canonicalCyc b = true → cycValue a = cycValue b → a = b

/-- R148: the per-stream function answers ceil(ceil(L / cicD) / firD) samples, which is ceil(L / totalD); in the evaluable
arithmetic all are canonical (log entry 4). -/
def Obligations.EngineOutputLength : Prop :=
  (∀ (pack : FilterPack ℝ) (tw : BitVec 32) (tags : List TimeTag) (x : List ℂ), tags.length = x.length →
    (engine exactArith pack tw tags x).length = ceilDiv (ceilDiv x.length pack.cicD) pack.firD ∧
    (engine exactArith pack tw tags x).length = ceilDiv x.length pack.totalD) ∧
  (∀ (pack : FilterPack Rat) (tw : BitVec 32) (tags : List TimeTag) (x : List Cyc),
    ∀ y ∈ engine cycArith pack tw tags x, canonicalCyc y = true)

/-- R153: where the mixed stream is constant every output is exactly 0. -/
def Obligations.ConstantMixGivesZeros : Prop :=
  ∀ (pack : FilterPack ℝ) (tw : BitVec 32) (tags : List TimeTag) (x : List ℂ) (v : ℂ),
    (∀ m ∈ mix exactArith tw tags x, m = v) → ∀ y ∈ engine exactArith pack tw tags x, y = 0

/-- R150, R151: the outputs of a batch are those of its streams sent one by one, in order. -/
def Obligations.DdcBatchIsItsStreamsOneByOne : Prop :=
  ∀ (s : State) (count len : Word) (tags : List TimeTag) (samples : List Word) (n lout : Nat) (ys : List (List Word)),
    exec (.ddc count len tags samples) s = .next (answered s (.ok (.streams n lout ys))) →
    n = count.toNat ∧ ys.length = n ∧
    ∀ r < n, exec (.ddc 1 len tags
        ((samples.drop (r * len.toNat * Config.params.fmt.swC)).take (len.toNat * Config.params.fmt.swC))) s =
      .next (answered s (.ok (.streams 1 lout [ys.getD r []])))

/-- R254: output j of the two decimators depends only on the inputs from `j·totalD - (Mc - 1) - (Mf - 1)·cicD` to `j·totalD`. -/
def Obligations.DecimatorsReadTheirWindow : Prop :=
  ∀ (pack : FilterPack ℝ) (d e : List ℂ) (j : Nat), d.length = e.length → j * pack.totalD < d.length →
    (∀ n ≤ j * pack.totalD, j * pack.totalD ≤ n + (pack.cic.length - 1) + (pack.fir.length - 1) * pack.cicD →
      d.getD n 0 = e.getD n 0) →
    (firStage exactArith pack (cicStage exactArith pack d)).getD j 0 = (firStage exactArith pack (cicStage exactArith pack e)).getD j 0

/-- R149: a DDC's response is a function of the configuration and its frame: blocks with one configuration and different
banks or ports answer alike. -/
def Obligations.DdcReadsOnlyTheConfiguration : Prop :=
  ∀ (s s' : State) (count len : Word) (tags : List TimeTag) (samples : List Word),
    s.config = s'.config → configOk Config.params s = true →
    ∃ r : Response, exec (.ddc count len tags samples) s = .next (answered s r) ∧
      exec (.ddc count len tags samples) s' = .next (answered s' r)

/-! ## The beam path (R170 to R181, R255) -/

/-- R177, R179, R91: a BEAMFORM whose counts, gain rows, records and samples pass every check answers with the two beams of its
antennas and changes nothing else. -/
def Obligations.BeamformAnswersItsBeams : Prop :=
  ∀ (s : State) (ants len nrows : Word) (records : List AntennaRecord) (rows : List GainRow) (samples : List Word)
    (as : List (Antenna ℝ)),
    BeamformReady Config.params ants len nrows records rows samples as →
    exec (.beamform ants len nrows records rows samples) s =
      .next (answered s (.ok (beamsPayload Config.params.fmt (len.toNat - maxCoarse as) (beamsOf exactArith s.bank len.toNat as))))

/-- R172 to R176: the two beams are the sums, over all antennas and without the first Dmax samples, of the gain times the
filtered and shifted stream, whether or not an antenna is skipped. -/
def Obligations.BeamsAreTheWeightedSums : Prop :=
  ∀ (bank : Bank) (len : Nat) (ants : List (Antenna ℝ)), (∀ a ∈ ants, a.samples.length = len ∧ a.coarse < len) →
    (beamsOf exactArith bank len ants).x.length = len - maxCoarse ants ∧ (beamsOf exactArith bank len ants).y.length = len - maxCoarse ants ∧
    ∀ j < len - maxCoarse ants,
      (beamsOf exactArith bank len ants).x.getD j 0 = beamXValue bank ants (j + maxCoarse ants) ∧
      (beamsOf exactArith bank len ants).y.getD j 0 = beamYValue bank ants (j + maxCoarse ants)

/-- R178: the beams are the same in every order of the antennas. -/
def Obligations.BeamsDoNotDependOnAntennaOrder : Prop :=
  ∀ (bank : Bank) (len : Nat) (ants ants' : List (Antenna ℝ)), (∀ a ∈ ants, a.samples.length = len) → ants.Perm ants' →
    beamsOf exactArith bank len ants = beamsOf exactArith bank len ants'

/-- R174, R180: an antenna whose four gain codes are 0 adds nothing: leaving it out gives the same beams wherever its coarse
delay does not exceed the largest of the others. -/
def Obligations.ZeroRowExcludesTheAntenna : Prop :=
  ∀ (bank : Bank) (len : Nat) (before after : List (Antenna ℝ)) (a : Antenna ℝ),
    a.gains.xx = 0 → a.gains.xy = 0 → a.gains.yx = 0 → a.gains.yy = 0 → a.coarse ≤ maxCoarse (before ++ after) →
    beamsOf exactArith bank len (before ++ a :: after) = beamsOf exactArith bank len (before ++ after)

/-- R181: one X antenna with no delay and the gain row {32767, 0, 0, 0}, on a channel whose phase 0 is the unit impulse, answers
its own samples as beamX and zeros as beamY. -/
def Obligations.SingleAntennaPassesThrough : Prop :=
  ∀ (s : State) (c : BitVec 16) (ch : Fin NCHAN) (len : Word) (samples : List Word) (x : List ℝ),
    ch.val + 1 = c.toNat → (∀ k : Fin NTAPS, bankTap s.bank ch 0 k = if k.val = 0 then 32767 else 0) →
    1 ≤ len.toNat → len.toNat ≤ Config.params.maxLen → x.length = len.toNat →
    (∀ n < len.toNat, Config.params.fmt.decR (sampleWords Config.params.fmt.swR samples n) = some (x.getD n 0)) →
    exec (.beamform 1 len 1 [⟨c, 0, 0, 0⟩] [⟨32767, 0, 0, 0⟩] samples) s =
      .next (answered s (.ok (beamsPayload Config.params.fmt len.toNat ⟨x, List.replicate len.toNat 0⟩)))

/-- R179, R228: the checks of BEAMFORM in their order: an empty batch, a count above the limits, the first gain row with a
code above 32767, and the first antenna that fails a check, with the first check it fails. `execWith p` is the block with the
parameters p, and `exec` is that at `Config.params`. -/
def Obligations.BeamformChecksRaiseInOrder : Prop :=
  (∀ (i : Instr) (s : State), exec i s = execWith exactArith Config.params i s) ∧
  ∀ (p : Params ℝ ℂ) (s : State) (ants len nrows : Word) (records : List AntennaRecord) (rows : List GainRow) (samples : List Word),
    ((ants = 0 ∨ len = 0) → execWith exactArith p (.beamform ants len nrows records rows samples) s =
      .next (answered s (.error (.processingFailure .emptyBatch 0)))) ∧
    (ants ≠ 0 → len ≠ 0 →
      ((p.maxAnt < ants.toNat ∨ p.maxLen < len.toNat ∨ p.maxRows < nrows.toNat) →
        execWith exactArith p (.beamform ants len nrows records rows samples) s =
          .next (answered s (.error (.processingFailure .tooLarge 0)))) ∧
      (ants.toNat ≤ p.maxAnt → len.toNat ≤ p.maxLen → nrows.toNat ≤ p.maxRows →
        (∀ (g : Nat) (row : GainRow), rows[g]? = some row →
          (32767 < row.xx.toNat ∨ 32767 < row.xy.toNat ∨ 32767 < row.yx.toNat ∨ 32767 < row.yy.toNat) →
          (∀ (g' : Nat) (row' : GainRow), g' < g → rows[g']? = some row' →
            row'.xx.toNat ≤ 32767 ∧ row'.xy.toNat ≤ 32767 ∧ row'.yx.toNat ≤ 32767 ∧ row'.yy.toNat ≤ 32767) →
          execWith exactArith p (.beamform ants len nrows records rows samples) s =
            .next (answered s (.error (.processingFailure .gainCode g)))) ∧
        ((∀ row ∈ rows, row.xx.toNat ≤ 32767 ∧ row.xy.toNat ≤ 32767 ∧ row.yx.toNat ≤ 32767 ∧ row.yy.toNat ≤ 32767) →
          ∀ (a : Nat) (rec : AntennaRecord) (reason : FailureReason), records[a]? = some rec →
            firstFailure p.fmt len.toNat rows.length samples rec a = some reason →
            (∀ (a' : Nat) (rec' : AntennaRecord), a' < a → records[a']? = some rec' →
              firstFailure p.fmt len.toNat rows.length samples rec' a' = none) →
            execWith exactArith p (.beamform ants len nrows records rows samples) s =
              .next (answered s (.error (.processingFailure reason a))))))

/-- R255: from output 31 on, the beams hold neither wrapped samples nor filter start-up: output j is the gains times the taps
times the samples `x_a[j + Dmax - coarse_a - k]`, all inside the stream. -/
def Obligations.BeamsAreCleanFromSample31 : Prop :=
  ∀ (bank : Bank) (len : Nat) (ants : List (Antenna ℝ)), (∀ a ∈ ants, a.samples.length = len ∧ a.coarse < len) →
    ∀ j, 31 ≤ j → j < len - maxCoarse ants →
      (∀ a ∈ ants, ∀ k : Fin NTAPS, a.coarse + k.val ≤ j + maxCoarse ants) ∧
      (beamsOf exactArith bank len ants).x.getD j 0 = (ants.map (fun a => (gainValues a).1 * ∑ k : Fin NTAPS,
        (bankTap bank a.channel a.fine k : ℝ) / 32767 * a.samples.getD (j + maxCoarse ants - a.coarse - k.val) 0)).sum ∧
      (beamsOf exactArith bank len ants).y.getD j 0 = (ants.map (fun a => (gainValues a).2 * ∑ k : Fin NTAPS,
        (bankTap bank a.channel a.fine k : ℝ) / 32767 * a.samples.getD (j + maxCoarse ants - a.coarse - k.val) 0)).sum

/-- R177: a BEAMFORM's response is a function of `BANK` and its frame: it runs in an unconfigured block, and blocks with one bank
answer alike. -/
def Obligations.BeamformReadsOnlyTheBank : Prop :=
  ∀ (s s' : State) (ants len nrows : Word) (records : List AntennaRecord) (rows : List GainRow) (samples : List Word),
    s.bank = s'.bank →
    ∃ r : Response, exec (.beamform ants len nrows records rows samples) s = .next (answered s r) ∧
      exec (.beamform ants len nrows records rows samples) s' = .next (answered s' r)

/-! ## Responses (R89 to R91, R220 to R225) -/

/-- R89, R220 to R225: the status word of every response: 0 on success, else info · 2^8 + code, where a `ProcessingFailure`'s
info is reason · 2^16 + item for an item below 2^16. -/
def Obligations.StatusWordLayout : Prop :=
  (∀ payload : Payload, statusWord (.ok payload) = 0) ∧
  ([ConfigCause.modeCode, .filterCode, .tuningWord, .channel, .notConfigured].map
    (fun c => (statusWord (.error (.invalidConfiguration c))).toNat) = [0x101, 0x201, 0x301, 0x401, 0x501]) ∧
  ([ShapeCause.empty, .listCount, .listLength].map
    (fun c => (statusWord (.error (.malformedCoefficients c))).toNat) = [0x002, 0x102, 0x202]) ∧
  (∀ item < 65536, [FailureReason.emptyBatch, .tooLarge, .antennaChannel, .polarization, .stand, .gainCode, .coarseDelay,
      .zeroDecimation, .undecodableSample].map (fun r => (statusWord (.error (.processingFailure r item))).toNat) =
    [1, 2, 3, 4, 5, 6, 7, 8, 9].map (fun n => n * 2 ^ 24 + item * 2 ^ 8 + 3)) ∧
  (∀ info : BitVec 24, (statusWord (.error (.illegalCommand info))).toNat = info.toNat * 2 ^ 8 + 4)

/-- R90: in the words of a DDC's response, counting R0 as word 0, word 1 is S, word 2 is Lout, and sample j of stream r is the SW_C
words from word 3 + (r·Lout + j)·SW_C on; nothing follows the last sample. -/
def Obligations.DdcResponseWords : Prop :=
  ∀ (fmt : SampleFormat ℝ ℂ) (count lout : Nat) (ys : List (List ℂ)), ys.length = count → (∀ y ∈ ys, y.length = lout) →
    let ws := responseWords (.ok (streamsPayload fmt count lout ys))
    wordAt ws 0 = 0 ∧ wordAt ws 1 = BitVec.ofNat 32 count ∧ wordAt ws 2 = BitVec.ofNat 32 lout ∧
    ws.length = 3 + count * lout * fmt.swC ∧
    ∀ r < count, ∀ j < lout,
      sampleWords fmt.swC (ws.drop 3) (r * lout + j) = fmt.encC ((ys.getD r []).getD j 0)

/-- R91: in the words of a BEAMFORM's response word 1 is Lout, and then come the samples of beamX and those of beamY. -/
def Obligations.BeamformResponseWords : Prop :=
  ∀ (fmt : SampleFormat ℝ ℂ) (lout : Nat) (bx bY : List ℝ), bx.length = lout → bY.length = lout →
    let ws := responseWords (.ok (beamsPayload fmt lout ⟨bx, bY⟩))
    wordAt ws 0 = 0 ∧ wordAt ws 1 = BitVec.ofNat 32 lout ∧ ws.length = 2 + 2 * lout * fmt.swR ∧
    ∀ j < lout, sampleWords fmt.swR (ws.drop 2) j = fmt.encR (bx.getD j 0) ∧
      sampleWords fmt.swR (ws.drop 2) (lout + j) = fmt.encR (bY.getD j 0)

/-- R80, R149, R177, with R141 to R147 and R172 to R176: every sample of a response that the format keeps, `dec(enc(v)) = v` (R80),
is read from its words as the exact value the block computed: output j of stream r for a DDC, sample j of each beam for a
BEAMFORM. -/
def Obligations.HostReadsTheExactSamples : Prop :=
  (∀ (i : Instr) (s : State), exec i s = execWith exactArith Config.params i s) ∧
  (∀ (p : Params ℝ ℂ) (s : State) (c : Configuration) (pack : FilterPack ℝ) (count len : Word) (tags : List TimeTag)
    (samples : List Word) (x : Nat → Nat → ℂ),
    DdcReady p s c pack count len samples x → tags.length = len.toNat →
    ∃ ys : List (List Word),
      execWith exactArith p (.ddc count len tags samples) s =
        .next (answered s (.ok (.streams count.toNat (outputLength pack len.toNat) ys))) ∧
      ∀ r < count.toNat, ∀ j < outputLength pack len.toNat,
        let v := engineValue pack c.tw (fun n => tags.getD n 0) len.toNat (x r) j
        p.fmt.KeepsC v → p.fmt.decC (sampleWords p.fmt.swC (ys.getD r []) j) = some v) ∧
  (∀ (p : Params ℝ ℂ) (s : State) (ants len nrows : Word) (records : List AntennaRecord) (rows : List GainRow)
    (samples : List Word) (as : List (Antenna ℝ)),
    BeamformReady p ants len nrows records rows samples as →
    ∃ bx bY : List Word,
      execWith exactArith p (.beamform ants len nrows records rows samples) s =
        .next (answered s (.ok (.beams (len.toNat - maxCoarse as) bx bY))) ∧
      ∀ j < len.toNat - maxCoarse as,
        let v := beamXValue s.bank as (j + maxCoarse as)
        let w := beamYValue s.bank as (j + maxCoarse as)
        (p.fmt.KeepsR v → p.fmt.decR (sampleWords p.fmt.swR bx j) = some v) ∧
        (p.fmt.KeepsR w → p.fmt.decR (sampleWords p.fmt.swR bY j) = some w))

/-! ## The assembler (R98, R99) -/

/-- R98: whatever the assembler makes of a line is a well-formed command, so its frame decodes to that command. -/
def Obligations.AssembledCommandsAreWellFormed : Prop :=
  ∀ (p : Params ℝ ℂ) (a : AsmCommand) (i : Instr), assemble exactArith p a = some i → i.wf p.fmt = true

/-- R99, R53: the delay word and the gain code that the pseudo-operands stand for are the codecs' packed values, and every
pseudo-instruction is assembled as its expansion; a `_HZ` one is refused where the codec has no result. -/
def Obligations.PseudoOperandsArePackedFields : Prop :=
  ∀ p : Params ℝ ℂ,
    (∀ d : Rat, delayOperand exactArith p (.nanoseconds d) = delayField p.fsHz (d : ℝ)) ∧
    (∀ g : Rat, gainOperand exactArith (.gain g) = gainField (g : ℝ)) ∧
    (∀ f : Rat, assemble exactArith p (.setCfreqHz f) = (frequencyToTuningWord p.fsHz (f : ℝ)).map Instr.setCfreq) ∧
    (∀ (m : ModeOperand) (c : Nat) (f : Rat), assemble exactArith p (.configureHz m c f) =
      (frequencyToTuningWord p.fsHz (f : ℝ)).bind (fun w => assemble exactArith p (.configure m c w.toNat))) ∧
    (∀ bank : List (List Int), assemble exactArith p (.dfirSet (-1) bank) = assemble exactArith p .dfirReset) ∧
    (∀ bank : List (List Int), assemble exactArith p (.dfirSet 0 bank) = assemble exactArith p (.dfirAll bank)) ∧
    (∀ (c : Nat) (bank : List (List Int)), 1 ≤ c →
      assemble exactArith p (.dfirSet c bank) = assemble exactArith p (.dfirCh c bank)) ∧
    (∀ (c : Int) (bank : List (List Int)), c < -1 →
      assemble exactArith p (.dfirSet c bank) = assemble exactArith p (.dfirCh (c % 65536).toNat bank)) ∧
    (∀ (tags : List Nat) (x : List ComplexOperand),
      assemble exactArith p (.ddc1 tags x) = assemble exactArith p (.ddc tags [x]))
end

