-- ==== Sys2Proof/Laws/Codec.lean ====
section
/-! SUPPORT. Rounding is within a half and monotone, the codec has a result at both bounds of R204, and the bounds are in order. -/

namespace Sys2Proof.Machine

section Rounding

variable {K : Type} [Field K] [LinearOrder K] [IsStrictOrderedRing K] [FloorRing K]

/-- `round(x)` is the floor of x or the integer above it, whichever is within a half. -/
theorem roundEven_cases (x : K) :
    (roundEven x = ⌊x⌋ ∧ x - (⌊x⌋ : K) ≤ 1 / 2) ∨ (roundEven x = ⌊x⌋ + 1 ∧ 1 / 2 ≤ x - (⌊x⌋ : K)) := by
  unfold roundEven
  dsimp only
  split
  · exact .inl ⟨rfl, by linarith⟩
  · split
    · exact .inr ⟨rfl, by linarith⟩
    · split
      · exact .inl ⟨rfl, by linarith⟩
      · exact .inr ⟨rfl, by linarith⟩

theorem roundEven_bounds (x : K) : (roundEven x : K) - 1 / 2 ≤ x ∧ x ≤ (roundEven x : K) + 1 / 2 := by
  have h1 := Int.floor_le x
  have h2 := Int.lt_floor_add_one x
  rcases roundEven_cases x with ⟨h, h'⟩ | ⟨h, h'⟩ <;> rw [h] <;> push_cast <;> constructor <;> linarith

theorem roundEven_mono {x y : K} (h : x ≤ y) : roundEven x ≤ roundEven y := by
  rcases h.lt_or_eq with hlt | rfl
  · by_contra hc
    have hc' : (roundEven y : K) + 1 ≤ (roundEven x : K) := by exact_mod_cast (by omega : roundEven y + 1 ≤ roundEven x)
    have h1 := (roundEven_bounds x).1
    have h2 := (roundEven_bounds y).2
    linarith
  · exact le_rfl

end Rounding

theorem fieldOf?_eq_some_iff (n : Nat) (k : Int) (v : BitVec n) : fieldOf? n k = some v ↔ (v.toNat : Int) = k := by
  unfold fieldOf?
  have hv : (v.toNat : Int) < 2 ^ n := by exact_mod_cast v.isLt
  split
  · rename_i h
    simp only [Option.some.injEq]
    constructor
    · rintro rfl
      rw [BitVec.toNat_ofInt, Int.toNat_of_nonneg (Int.emod_nonneg _ (by positivity))]
      exact Int.emod_eq_of_lt h.1 (by simpa using h.2)
    · intro h'
      apply BitVec.eq_of_toNat_eq
      rw [BitVec.toNat_ofInt, ← h']
      have : ((v.toNat : Int) % ((2 ^ n : Nat) : Int)) = (v.toNat : Int) := Int.emod_eq_of_lt (by positivity) (by exact_mod_cast v.isLt)
      rw [this]; simp
  · rename_i h; simp only [reduceCtorEq, false_iff]; intro h'; exact h ⟨by omega, by omega⟩

theorem fieldOf?_isSome (n : Nat) (k : Int) (h0 : 0 ≤ k) (h1 : k < 2 ^ n) : fieldOf? n k = some (BitVec.ofInt n k) := by
  simp [fieldOf?, h0, h1]

/-! ## The bounds of R204 -/

/-- The tuning word of a frequency, as an integer (R101). -/
theorem frequencyToTuningWord_eq_some_iff {K : Type} [Field K] [LinearOrder K] [FloorRing K] (fs f : K) (w : Word) :
    frequencyToTuningWord fs f = some w ↔ (w.toNat : Int) = roundEven (f * 2 ^ 32 / fs) :=
  fieldOf?_eq_some_iff _ _ _

section Bounds

variable {p : Params ℝ ℂ} (h : Admissible p)

include h

theorem twMin_toNat : (p.twMin.toNat : Int) = roundEven (10000000 * 2 ^ 32 / p.fsHz) := by
  have := (frequencyToTuningWord_eq_some_iff _ _ _).mp h.twMin_eq
  rwa [show ((F_MIN : Nat) : ℝ) = 10000000 by norm_num] at this

theorem twMax_toNat : (p.twMax.toNat : Int) = roundEven (88000000 * 2 ^ 32 / p.fsHz) := by
  have := (frequencyToTuningWord_eq_some_iff _ _ _).mp h.twMax_eq
  rwa [show ((F_MAX : Nat) : ℝ) = 88000000 by norm_num] at this

theorem twMin_le_twMax : p.twMin.toNat ≤ p.twMax.toNat := by
  have hp := h.fsHz_pos
  have : roundEven (10000000 * 2 ^ 32 / p.fsHz) ≤ roundEven (88000000 * 2 ^ 32 / p.fsHz) :=
    roundEven_mono (by gcongr; norm_num)
  have h1 := twMin_toNat h
  have h2 := twMax_toNat h
  omega

/-- The block accepts `TW_MIN` (R203, corner cases). -/
theorem validTW_twMin : validTW p p.twMin = true := by
  simp [validTW, twMin_le_twMax h]

end Bounds

end Sys2Proof.Machine
end

