-- ==== Sys2Proof/Laws/Operands.lean ====
section
/-! SUPPORT. What the shared readers and checks answer, each said once: lists of checks, codes, channels and shapes. -/

namespace Sys2Proof.Machine

/-! ## Lists of checks -/

theorem collect_eq_ok_iff {ε α : Type} (xs : List (Except ε α)) (as : List α) :
    collect xs = .ok as ↔ xs = as.map .ok := by
  induction xs generalizing as with
  | nil => cases as <;> simp [collect]
  | cons x xs ih =>
    cases x with
    | error e => cases as <;> simp [collect]
    | ok a =>
      cases as with
      | nil => cases h : collect xs <;> simp [collect, h]
      | cons b bs =>
        have := ih bs
        cases h : collect xs with
        | error e => simp [collect, h] at this ⊢; intro _; exact this
        | ok cs => simp [collect, h] at this ⊢; intro _; exact this

/-- `collect` fails with the first failing item's error (R228). -/
theorem collect_eq_error_iff {ε α : Type} (xs : List (Except ε α)) (e : ε) :
    collect xs = .error e ↔ ∃ n : Nat, xs[n]? = some (.error e) ∧ ∀ m < n, ∃ a, xs[m]? = some (.ok a) := by
  induction xs with
  | nil => simp [collect]
  | cons x xs ih =>
    cases x with
    | error e' =>
      simp only [collect, Except.error.injEq]
      constructor
      · rintro rfl; exact ⟨0, by simp⟩
      · rintro ⟨n, hn, hm⟩
        cases n with
        | zero => simpa using hn
        | succ n => obtain ⟨a, ha⟩ := hm 0 (by omega); simp at ha
    | ok a =>
      have key : collect (.ok a :: xs) = .error e ↔ collect xs = .error e := by
        cases h : collect xs <;> simp [collect, h]
      rw [key, ih]
      constructor
      · rintro ⟨n, hn, hm⟩
        refine ⟨n + 1, by simpa using hn, fun m hlt => ?_⟩
        cases m with
        | zero => exact ⟨a, by simp⟩
        | succ m => simpa using hm m (by omega)
      · rintro ⟨n, hn, hm⟩
        cases n with
        | zero => simp at hn
        | succ n => exact ⟨n, by simpa using hn, fun m hlt => by simpa using hm (m + 1) (by omega)⟩

theorem allSome_eq_some_iff {α : Type} (xs : List (Option α)) (as : List α) : allSome xs = some as ↔ xs = as.map some := by
  induction xs generalizing as with
  | nil => cases as <;> simp [allSome]
  | cons x xs ih =>
    cases x with
    | none => cases as <;> simp [allSome]
    | some a =>
      cases as with
      | nil => simp [allSome]
      | cons b bs => simp [allSome, ih, and_comm]

theorem allSome_eq_none_iff {α : Type} (xs : List (Option α)) : allSome xs = none ↔ none ∈ xs := by
  induction xs with
  | nil => simp [allSome]
  | cons x xs ih => cases x <;> simp [allSome, ih]

/-- All the readings of a stream of L samples, where each of them is there. -/
theorem allSome_range_map {α : Type} (len : Nat) (f : Nat → Option α) (x : Nat → α) (h : ∀ n < len, f n = some (x n)) :
    allSome ((List.range len).map f) = some ((List.range len).map x) := by
  rw [allSome_eq_some_iff, List.map_map]
  exact List.map_congr_left (fun n hn => h n (List.mem_range.mp hn))

theorem allSome_length {α : Type} (xs : List (Option α)) (as : List α) (h : allSome xs = some as) : as.length = xs.length := by
  rw [allSome_eq_some_iff] at h; simp [h]

theorem allFields_length {α β : Type} (f : α → Option β) (xs : List α) (ys : List β) (h : allFields f xs = some ys) :
    ys.length = xs.length := by
  induction xs generalizing ys with
  | nil => simp [allFields] at h; simp [← h]
  | cons x xs ih =>
    simp only [allFields] at h
    cases hx : f x with
    | none => simp [hx] at h
    | some b =>
      simp only [hx, Option.map_eq_some_iff] at h
      obtain ⟨bs, hbs, rfl⟩ := h
      simp [ih bs hbs]

/-! ## Codes (R22, R82, R129) -/

theorem modeOf?_eq_none_iff (m : BitVec 8) : modeOf? m = none ↔ m ≠ 0 ∧ m ≠ 1 := by
  unfold modeOf?; split <;> simp_all

theorem polarizationOf?_eq_none_iff (m : BitVec 8) : polarizationOf? m = none ↔ m ≠ 0 ∧ m ≠ 1 := by
  unfold polarizationOf?; split <;> simp_all

/-- Channels 1..520 are the indices 0..519 (R27). -/
theorem channelIndex?_eq_some_iff (c : BitVec 16) (ch : Fin NCHAN) : channelIndex? c = some ch ↔ ch.val + 1 = c.toNat := by
  unfold channelIndex?
  have := ch.isLt
  split
  · rename_i h; simp only [Option.some.injEq]
    constructor
    · rintro rfl; simp; omega
    · intro h'; ext; simp; omega
  · rename_i h; simp; omega

theorem channelIndex?_eq_none_iff (c : BitVec 16) : channelIndex? c = none ↔ c.toNat < 1 ∨ NCHAN < c.toNat := by
  unfold channelIndex?; split <;> simp <;> omega

/-- A block passes the shape check exactly when it is 16 × 32 (R128). -/
theorem shapeCause?_eq_none_iff (b : TapBlock) : shapeCause? b = none ↔ b.lists = 16 ∧ b.length = 32 := by
  unfold shapeCause?
  have h1 : b.lists.toNat = 16 ↔ b.lists = 16 := by constructor <;> intro h <;> [exact BitVec.eq_of_toNat_eq (by simpa using h); simp [h]]
  have h2 : b.length.toNat = 32 ↔ b.length = 32 := by constructor <;> intro h <;> [exact BitVec.eq_of_toNat_eq (by simpa using h); simp [h]]
  split
  · rename_i h; rcases h with h | h <;> simp [h]
  · split <;> (try split) <;> simp_all

/-! ## Supported filters and packs (R10, R121) -/

theorem validFilter_tbn (f : BitVec 8) : validFilter .tbn f = true ↔ f = 5 ∨ f = 6 ∨ f = 7 := by
  simp [validFilter, supportedFilters]

theorem validFilter_drx (f : BitVec 8) : validFilter .drx f = true ↔ f = 3 ∨ f = 4 ∨ f = 5 ∨ f = 6 ∨ f = 7 := by
  simp [validFilter, supportedFilters]

end Sys2Proof.Machine
end

