-- ==== Sys2Proof/Laws/State.lean ====
section
/-! SUPPORT. What each write of the state changes and what it leaves, one lemma per field and operation, and the machine as its
parametric form at `exactArith` and `Config.params`. -/

namespace Sys2Proof.Machine

/-! ## respond -/

@[simp] theorem respond_config (s : State) (p : Payload) : (s.respond p).config = s.config := rfl
@[simp] theorem respond_bank (s : State) (p : Payload) : (s.respond p).bank = s.bank := rfl
@[simp] theorem respond_commandPort (s : State) (p : Payload) : (s.respond p).commandPort = s.commandPort := rfl
@[simp] theorem respond_responsePort (s : State) (p : Payload) : (s.respond p).responsePort = s.responsePort ++ [.ok p] := rfl

/-! ## raise -/

@[simp] theorem raise_config (s : State) (e : CommandError) : (s.raise e).config = s.config := rfl
@[simp] theorem raise_bank (s : State) (e : CommandError) : (s.raise e).bank = s.bank := rfl
@[simp] theorem raise_commandPort (s : State) (e : CommandError) : (s.raise e).commandPort = s.commandPort := rfl
@[simp] theorem raise_responsePort (s : State) (e : CommandError) : (s.raise e).responsePort = s.responsePort ++ [.error e] := rfl

/-! ## setConfig -/

@[simp] theorem setConfig_config (s : State) (c : Configuration) : (s.setConfig c).config = some c := rfl
@[simp] theorem setConfig_bank (s : State) (c : Configuration) : (s.setConfig c).bank = s.bank := rfl
@[simp] theorem setConfig_commandPort (s : State) (c : Configuration) : (s.setConfig c).commandPort = s.commandPort := rfl
@[simp] theorem setConfig_responsePort (s : State) (c : Configuration) : (s.setConfig c).responsePort = s.responsePort := rfl

/-! ## setBank and the writes over it -/

@[simp] theorem setBank_config (s : State) (b : Bank) : (s.setBank b).config = s.config := rfl
@[simp] theorem setBank_bank (s : State) (b : Bank) : (s.setBank b).bank = b := rfl
@[simp] theorem setBank_commandPort (s : State) (b : Bank) : (s.setBank b).commandPort = s.commandPort := rfl
@[simp] theorem setBank_responsePort (s : State) (b : Bank) : (s.setBank b).responsePort = s.responsePort := rfl

@[simp] theorem setChannel_config (s : State) (c : Fin NCHAN) (f : ChannelBank) : (s.setChannel c f).config = s.config := rfl
@[simp] theorem setChannel_bank (s : State) (c : Fin NCHAN) (f : ChannelBank) : (s.setChannel c f).bank = s.bank.set c f := rfl
@[simp] theorem setChannel_commandPort (s : State) (c : Fin NCHAN) (f : ChannelBank) :
    (s.setChannel c f).commandPort = s.commandPort := rfl
@[simp] theorem setChannel_responsePort (s : State) (c : Fin NCHAN) (f : ChannelBank) :
    (s.setChannel c f).responsePort = s.responsePort := rfl

@[simp] theorem setAllChannels_config (s : State) (f : ChannelBank) : (s.setAllChannels f).config = s.config := rfl
@[simp] theorem setAllChannels_bank (s : State) (f : ChannelBank) : (s.setAllChannels f).bank = Vector.replicate NCHAN f := rfl
@[simp] theorem setAllChannels_commandPort (s : State) (f : ChannelBank) : (s.setAllChannels f).commandPort = s.commandPort := rfl
@[simp] theorem setAllChannels_responsePort (s : State) (f : ChannelBank) :
    (s.setAllChannels f).responsePort = s.responsePort := rfl

/-- Reading a tap after one channel is written: the written filters there, the old taps elsewhere. -/
theorem bankTap_set (b : Bank) (c c' : Fin NCHAN) (f : ChannelBank) (p : Fin NPHASE) (k : Fin NTAPS) :
    bankTap (b.set c f) c' p k = if c' = c then tapValue f[p][k] else bankTap b c' p k := by
  unfold bankTap
  by_cases h : c' = c
  · subst h; simp
  · have h' : c.val ≠ c'.val := fun e => h (Fin.ext e.symm)
    simp [h, h']

/-- Reading a tap after every channel is written. -/
theorem bankTap_replicate (c : Fin NCHAN) (f : ChannelBank) (p : Fin NPHASE) (k : Fin NTAPS) :
    bankTap (Vector.replicate NCHAN f) c p k = tapValue f[p][k] := by
  simp [bankTap]

/-- The filters a block loads: list p, tap k. -/
theorem channelBankOf_get (b : TapBlock) (p : Fin NPHASE) (k : Fin NTAPS) :
    (channelBankOf b)[p][k] = blockTap b p.val k.val := by
  simp [channelBankOf]

/-! ## The ports -/

@[simp] theorem consume_config (s : State) (ws : List Word) : (s.consume ws).config = s.config := rfl
@[simp] theorem consume_bank (s : State) (ws : List Word) : (s.consume ws).bank = s.bank := rfl
@[simp] theorem consume_commandPort (s : State) (ws : List Word) : (s.consume ws).commandPort = ws := rfl
@[simp] theorem consume_responsePort (s : State) (ws : List Word) : (s.consume ws).responsePort = s.responsePort := rfl

@[simp] theorem placeFrame_config (ws : List Word) (s : State) : (placeFrame ws s).config = s.config := rfl
@[simp] theorem placeFrame_bank (ws : List Word) (s : State) : (placeFrame ws s).bank = s.bank := rfl
@[simp] theorem placeFrame_commandPort (ws : List Word) (s : State) : (placeFrame ws s).commandPort = ws ++ s.commandPort := rfl
@[simp] theorem placeFrame_responsePort (ws : List Word) (s : State) : (placeFrame ws s).responsePort = s.responsePort := rfl

@[simp] theorem send_config (s : State) (ws : List Word) : (s.send ws).config = s.config := rfl
@[simp] theorem send_bank (s : State) (ws : List Word) : (s.send ws).bank = s.bank := rfl
@[simp] theorem send_commandPort (s : State) (ws : List Word) : (s.send ws).commandPort = s.commandPort ++ ws := rfl
@[simp] theorem send_responsePort (s : State) (ws : List Word) : (s.send ws).responsePort = s.responsePort := rfl

@[simp] theorem rejectFrame_config (k : Nat) (f r : List Word) (s : State) : (rejectFrame k f r s).config = s.config := rfl
@[simp] theorem rejectFrame_bank (k : Nat) (f r : List Word) (s : State) : (rejectFrame k f r s).bank = s.bank := rfl
@[simp] theorem rejectFrame_commandPort (k : Nat) (f r : List Word) (s : State) : (rejectFrame k f r s).commandPort = r := rfl
@[simp] theorem rejectFrame_responsePort (k : Nat) (f r : List Word) (s : State) :
    (rejectFrame k f r s).responsePort = s.responsePort ++ [.error (.illegalCommand (illegalInfo k f))] := rfl

/-! ## The parametric machine -/

theorem exec_eq_execWith (i : Instr) (s : State) : exec i s = execWith exactArith Config.params i s := by cases i <;> rfl

theorem step_eq_stepWith (s : State) : step s = stepWith exactArith Config.params s := by
  unfold step stepWith
  cases fetch Config.params s with
  | incomplete => rfl
  | illegal k f r => rfl
  | command i r => exact exec_eq_execWith i _

theorem reset_eq_resetWith : State.reset = resetWith Config.params := rfl

end Sys2Proof.Machine
end

