-- ==== Sys2Proof/Laws/Commands.lean ====
section
/-! SUPPORT. What a command can do, said once: the whole of every command's effect, as one of a few cases. -/

namespace Sys2Proof.Machine

/-- What `exec` can answer: a fault of a DDC in a state that R25 rules out, or one response behind the others, with the
configuration and `BANK` as they were unless the command succeeded and is one of those that write them. -/
inductive Effect (i : Instr) (s : State) : Host.Outcome State Fault Refusal → Prop where
  | raised (e : CommandError) : Effect i s (.next (answered s (.error e)))
  | wroteConfig (c : Configuration) : writesConfig i = true → Effect i s (.next (answered { s with config := some c } (.ok .empty)))
  | wroteBank (b : Bank) : writesBank i = true → Effect i s (.next (answered { s with bank := b } (.ok .empty)))
  | processed (payload : Payload) : writesConfig i = false → writesBank i = false →
      Effect i s (.next (answered s (.ok payload)))
  | noPack (c : Configuration) : s.config = some c → packOf? Config.params.filterTable c.mode c.filter = none →
      (∃ count len tags samples, i = .ddc count len tags samples) → Effect i s (.fault .noFilterPack)

/-- Every command's effect is one of these. -/
theorem exec_effect (i : Instr) (s : State) : Effect i s (exec i s) := by
  cases i with
  | configure m f tw =>
    simp only [exec, execConfigure, configure]
    split
    · exact .raised _
    · split
      · exact .raised _
      · split
        · exact .raised _
        · exact .wroteConfig _ rfl
  | setMode m =>
    simp only [exec, execSetMode, setMode]
    split
    · exact .raised _
    · split
      · exact .raised _
      · split
        · exact .raised _
        · exact .wroteConfig _ rfl
  | setFilter f =>
    simp only [exec, execSetFilter, setFilter]
    split
    · exact .raised _
    · split
      · exact .raised _
      · exact .wroteConfig _ rfl
  | setCfreq tw =>
    simp only [exec, execSetCfreq, setCfreq]
    split
    · exact .raised _
    · split
      · exact .raised _
      · exact .wroteConfig _ rfl
  | dfirCh c block =>
    simp only [exec, execDfirCh, dfirCh]
    split
    · exact .raised _
    · split
      · exact .raised _
      · exact .wroteBank _ rfl
  | dfirAll block =>
    simp only [exec, execDfirAll, dfirAll]
    split
    · exact .raised _
    · exact .wroteBank _ rfl
  | dfirReset => exact .wroteBank _ rfl
  | ddc count len tags samples =>
    simp only [exec, execDdc, ddc]
    split
    · exact .raised _
    · rename_i c hc
      split
      · exact .raised _
      · split
        · exact .raised _
        · split
          · exact .raised _
          · split
            · exact .noPack c hc (by assumption) ⟨_, _, _, _, rfl⟩
            · unfold ddcResult
              split
              · exact .raised _
              · exact .processed _ rfl rfl
  | beamform ants len nrows records rows samples =>
    simp only [exec, execBeamform, beamform]
    split
    · exact .raised _
    · exact .processed _ rfl rfl

/-- What a step does: it waits, rejects a frame, or runs a command (R95). -/
theorem step_cases (s : State) :
    (decode Config.params.fmt s.commandPort = .incomplete ∧ step s = .next s) ∨
    (∃ k f r, decode Config.params.fmt s.commandPort = .illegal k f r ∧ step s = .next (rejectFrame k f r s)) ∨
    (∃ i r, decode Config.params.fmt s.commandPort = .command i r ∧ step s = exec i (s.consume r)) := by
  unfold step fetch
  cases h : decode Config.params.fmt s.commandPort with
  | incomplete => exact .inl ⟨rfl, rfl⟩
  | illegal k f r => exact .inr (.inl ⟨k, f, r, rfl, rfl⟩)
  | command i r => exact .inr (.inr ⟨i, r, rfl, rfl⟩)

/-- Opcodes are distinct, so a header has one meaning (R72). -/
theorem opcodeByte_injective (a b : Opcode) (h : opcodeByte a = opcodeByte b) : a = b := by
  cases a <;> cases b <;> first | rfl | exact absurd h (by decide)

/-- A header with an assigned opcode byte is that opcode's (R72). -/
theorem opcodeOf?_eq_some_iff (h : Word) (op : Opcode) : opcodeOf? h = some op ↔ byte3 h = opcodeByte op := by
  unfold opcodeOf?
  constructor
  · intro e
    have := List.find?_some e
    exact (by simpa using this : opcodeByte op = byte3 h).symm
  · intro e
    rw [e]
    cases op <;> rfl

end Sys2Proof.Machine
end

