-- ==== Sys2Proof/Laws/Exact.lean ====
section
/-! SUPPORT. What the block's arithmetic computes, one lemma per operation; the lengths of the filtering primitives; and the
evaluable arithmetic keeps the canonical form, whatever it is given. -/

namespace Sys2Proof.Machine

/-! ## The block's arithmetic (R8) -/

@[simp] theorem exact_ofRat (q : Rat) : exactArith.ofRat q = (q : ℝ) := rfl
@[simp] theorem exact_ofParts (re im : ℝ) : exactArith.ofParts re im = ⟨re, im⟩ := rfl
@[simp] theorem exact_real : exactArith.real = realOps := rfl
@[simp] theorem exact_complex : exactArith.complex = complexOps := rfl
@[simp] theorem exact_rotate (phi : BitVec 32) (z : ℂ) : exactArith.rotate phi z = z * osc phi.toNat := by
  show z * (oscillator phi).val = _
  rw [(oscillator phi).property, osc]

@[simp] theorem real_zero : realOps.zero = 0 := rfl
@[simp] theorem real_add (a b : ℝ) : realOps.add a b = a + b := rfl
@[simp] theorem real_scale (a b : ℝ) : realOps.scale a b = a * b := rfl
@[simp] theorem complex_zero : complexOps.zero = 0 := rfl
@[simp] theorem complex_add (a b : ℂ) : complexOps.add a b = a + b := rfl
@[simp] theorem complex_sub (a b : ℂ) : complexOps.sub a b = a - b := (sub_eq_add_neg a b).symm
@[simp] theorem complex_scale (q : ℝ) (z : ℂ) : complexOps.scale q z = (q : ℂ) * z := rfl

theorem real_sum (xs : List ℝ) : realOps.sum xs = xs.sum := rfl
theorem complex_sum (xs : List ℂ) : complexOps.sum xs = xs.sum := rfl

/-! ## The filtering primitives (R17) -/

section Primitives

variable {S K : Type} (o : StreamOps S K)

@[simp] theorem firf_length (h : List S) (x : List K) : (o.firf h x).length = x.length := by simp [StreamOps.firf]

@[simp] theorem decim_length (y : List K) (d : Nat) : (o.decim y d).length = ceilDiv y.length d := by simp [StreamOps.decim]

/-- Output n of FIRF (R17). -/
theorem firf_getElem? (h : List S) (x : List K) (n : Nat) (hn : n < x.length) : (o.firf h x)[n]? = some (o.firAt h x n) := by
  simp [StreamOps.firf, hn]

/-- Output j of DECIM (R17). -/
theorem decim_getElem? (y : List K) (d j : Nat) (hj : j < ceilDiv y.length d) : (o.decim y d)[j]? = some (o.sampleAt y (j * d)) := by
  simp [StreamOps.decim, hj]

end Primitives

/-! ## The evaluable arithmetic -/

theorem canonicalFrom_mono {a b : Nat} (h : a ≤ b) (ts : List (Nat × Rat)) (hb : canonicalFrom b ts = true) :
    canonicalFrom a ts = true := by
  cases ts with
  | nil => rfl
  | cons t ts =>
    obtain ⟨e, q⟩ := t
    simp only [canonicalFrom, Bool.and_eq_true, decide_eq_true_eq] at hb ⊢
    exact ⟨⟨⟨by omega, hb.1.1.2⟩, hb.1.2⟩, hb.2⟩

/-- Inserting a term keeps the canonical form. -/
theorem insertTerm_canonical (low e : Nat) (q : Rat) (ts : List (Nat × Rat)) (hlow : low ≤ e) (he : e < halfTurn)
    (h : canonicalFrom low ts = true) : canonicalFrom low (insertTerm e q ts) = true := by
  induction ts generalizing low with
  | nil => unfold insertTerm; split <;> simp_all [canonicalFrom]
  | cons t ts ih =>
    obtain ⟨e', q'⟩ := t
    simp only [canonicalFrom, Bool.and_eq_true, decide_eq_true_eq] at h
    obtain ⟨⟨⟨h1, h2⟩, h3⟩, h4⟩ := h
    unfold insertTerm
    split
    · split
      · simp [canonicalFrom, *]
      · have : e + 1 ≤ e' := by omega
        simp [canonicalFrom, *]
    · split
      · split
        · exact canonicalFrom_mono (by omega) ts h4
        · subst_vars; simp [canonicalFrom, *]
      · have := ih (e' + 1) (by omega) h4
        simp [canonicalFrom, *]

theorem addTerm_canonical (e : Nat) (q : Rat) (ts : List (Nat × Rat)) (h : canonicalFrom 0 ts = true) :
    canonicalFrom 0 (addTerm e q ts) = true := by
  have hr : e % fullTurn < fullTurn := Nat.mod_lt _ (by decide)
  have hf : fullTurn = halfTurn + halfTurn := by decide
  unfold addTerm
  dsimp only
  split
  · exact insertTerm_canonical _ _ _ _ (by omega) (by assumption) h
  · exact insertTerm_canonical _ _ _ _ (by omega) (by omega) h

theorem addTerms_canonical (turn : Nat) (q : Rat) (xs ts : List (Nat × Rat)) (h : canonicalFrom 0 ts = true) :
    canonicalFrom 0 (addTerms turn q xs ts) = true := by
  unfold addTerms
  induction xs with
  | nil => exact h
  | cons x xs ih => exact addTerm_canonical _ _ _ ih

@[simp] theorem zero_canonical : canonicalCyc Cyc.zero = true := rfl

theorem add_canonical (a b : Cyc) (hb : canonicalCyc b = true) : canonicalCyc (Cyc.add a b) = true :=
  addTerms_canonical _ _ _ _ hb

@[simp] theorem scale_canonical (q : Rat) (a : Cyc) : canonicalCyc (Cyc.scale q a) = true := addTerms_canonical _ _ _ _ rfl

@[simp] theorem rotate_canonical (phi : BitVec 32) (a : Cyc) : canonicalCyc (Cyc.rotate phi a) = true :=
  addTerms_canonical _ _ _ _ rfl

/-- A sum is canonical. -/
theorem sum_canonical (xs : List Cyc) : canonicalCyc (cycOps.sum xs) = true := by
  unfold StreamOps.sum
  induction xs with
  | nil => rfl
  | cons x xs ih => exact add_canonical _ _ ih

/-- Every sample of a filtered stream is canonical. -/
theorem firf_canonical (h : List Rat) (x : List Cyc) : ∀ y ∈ cycOps.firf h x, canonicalCyc y = true := by
  simp only [StreamOps.firf, List.mem_map]
  rintro y ⟨n, -, rfl⟩
  exact sum_canonical _

end Sys2Proof.Machine
end

