-- ==== Sys2Proof/Laws/Fields.lean ====
section
/-! SUPPORT. Reading a field back from the word it was packed into. -/

namespace Sys2Proof

@[simp] theorem hi16_pack16 (a b : BitVec 16) : hi16 (pack16 a b) = a := BitVec.extractLsb'_append_eq_left

@[simp] theorem lo16_pack16 (a b : BitVec 16) : lo16 (pack16 a b) = b := BitVec.extractLsb'_append_eq_right

@[simp] theorem byte3_header (op : Opcode) (f : BitVec 24) : byte3 (header op f) = opcodeByte op :=
  BitVec.extractLsb'_append_eq_left

theorem getLsbD_headerFields (a : BitVec 8) (b : BitVec 16) (i : Nat) :
    (headerFields a b).getLsbD i = if i < 16 then b.getLsbD i else a.getLsbD (i - 16) := by
  simpa [headerFields] using BitVec.getLsbD_append (x := a) (y := b) (i := i)

theorem getLsbD_header (op : Opcode) (f : BitVec 24) (i : Nat) :
    (header op f).getLsbD i = if i < 24 then f.getLsbD i else (opcodeByte op).getLsbD (i - 24) := by
  simpa [header] using BitVec.getLsbD_append (x := opcodeByte op) (y := f) (i := i)

theorem getLsbD_pack16 (a b : BitVec 16) (i : Nat) :
    (pack16 a b).getLsbD i = if i < 16 then b.getLsbD i else a.getLsbD (i - 16) := by
  simpa [pack16] using BitVec.getLsbD_append (x := a) (y := b) (i := i)

theorem getLsbD_pack8 (a b : BitVec 8) (i : Nat) :
    (pack8 a b).getLsbD i = if i < 8 then b.getLsbD i else a.getLsbD (i - 8) := by
  simpa [pack8] using BitVec.getLsbD_append (x := a) (y := b) (i := i)

@[simp] theorem byte2_header (op : Opcode) (a : BitVec 8) (b : BitVec 16) : byte2 (header op (headerFields a b)) = a := by
  apply BitVec.eq_of_getLsbD_eq
  intro i hi
  have h : 16 + i < 24 := by omega
  simp only [byte2, BitVec.getLsbD_extractLsb', decide_true, Bool.true_and, getLsbD_header, getLsbD_headerFields, hi, h, if_true]
  rw [if_neg (by omega)]; congr 1; omega

@[simp] theorem lo16_header (op : Opcode) (a : BitVec 8) (b : BitVec 16) : lo16 (header op (headerFields a b)) = b := by
  apply BitVec.eq_of_getLsbD_eq
  intro i hi
  have h : i < 24 := by omega
  simp only [lo16, BitVec.getLsbD_extractLsb', decide_true, Bool.true_and, Nat.zero_add, getLsbD_header, getLsbD_headerFields, hi, h, if_true]

@[simp] theorem byte1_header (op : Opcode) (a b c : BitVec 8) : byte1 (header op (headerFields a (pack8 b c))) = b := by
  apply BitVec.eq_of_getLsbD_eq
  intro i hi
  have h : 8 + i < 24 := by omega
  have h' : 8 + i < 16 := by omega
  simp only [byte1, BitVec.getLsbD_extractLsb', decide_true, Bool.true_and, getLsbD_header, getLsbD_headerFields, getLsbD_pack8, hi, h, h', if_true]
  rw [if_neg (by omega)]; congr 1; omega

@[simp] theorem byte1_pack16 (a : BitVec 16) (b c : BitVec 8) : byte1 (pack16 a (pack8 b c)) = b := by
  apply BitVec.eq_of_getLsbD_eq
  intro i hi
  have h' : 8 + i < 16 := by omega
  simp only [byte1, BitVec.getLsbD_extractLsb', decide_true, Bool.true_and, getLsbD_pack16, getLsbD_pack8, hi, h', if_true]
  rw [if_neg (by omega)]; congr 1; omega

@[simp] theorem byte0_pack16 (a : BitVec 16) (b c : BitVec 8) : byte0 (pack16 a (pack8 b c)) = c := by
  apply BitVec.eq_of_getLsbD_eq
  intro i hi
  have h' : i < 16 := by omega
  simp only [byte0, BitVec.getLsbD_extractLsb', decide_true, Bool.true_and, Nat.zero_add, getLsbD_pack16, getLsbD_pack8, hi, h', if_true]

/-- A header whose format-specific bits are 0 under a mask that leaves the opcode out has none of the mask's bits. -/
theorem header_and_mask (op : Opcode) (f : BitVec 24) (mask : Word)
    (h : ∀ i < 24, (f.getLsbD i && mask.getLsbD i) = false) (h' : ∀ i < 8, mask.getLsbD (24 + i) = false) :
    header op f &&& mask = 0 := by
  apply BitVec.eq_of_getLsbD_eq
  intro i hi
  rw [BitVec.getLsbD_and, getLsbD_header]
  by_cases c : i < 24
  · simpa [c] using h i c
  · have := h' (i - 24) (by omega)
    rw [show 24 + (i - 24) = i by omega] at this
    simp [c, this]

end Sys2Proof
end

