-- ==== Sys2Proof/Laws/PerInstr.lean ====
section
/-! SUPPORT. Statements about every instruction, one lemma per constructor. FrameLength: the frame of a well-formed command has
the length R97 gives, and its first word is a header with that command's opcode and no reserved bit (R71, R72). -/

namespace Sys2Proof.Laws

/-- The opcode of a command (R72). -/
def opcode : Instr → Opcode
  | .configure _ _ _ => .configure
  | .setMode _ => .setMode
  | .setFilter _ => .setFilter
  | .setCfreq _ => .setCfreq
  | .dfirCh _ _ => .dfirCh
  | .dfirAll _ => .dfirAll
  | .dfirReset => .dfirReset
  | .ddc _ _ _ _ => .ddc
  | .beamform _ _ _ _ _ _ => .beamform

/-- The length of a command's frame in words (R97). -/
def frameWords {R C : Type} (fmt : SampleFormat R C) : Instr → Nat
  | .configure _ _ _ => 2
  | .setMode _ => 1
  | .setFilter _ => 1
  | .setCfreq _ => 2
  | .dfirCh _ b => 2 + ceilDiv (b.lists.toNat * b.length.toNat) 2
  | .dfirAll b => 2 + ceilDiv (b.lists.toNat * b.length.toNat) 2
  | .dfirReset => 1
  | .ddc count len _ _ => 3 + 2 * len.toNat + fmt.swC * (count.toNat * len.toNat)
  | .beamform ants len nrows _ _ _ => 4 + 2 * ants.toNat + 2 * nrows.toNat + fmt.swR * (ants.toNat * len.toNat)

/-- R97 and R71 of a command's frame. -/
def FrameLength.Statement (i : Instr) : Prop :=
  ∀ fmt : SampleFormat ℝ ℂ, i.wf fmt = true →
    (encode i).length = frameWords fmt i ∧ byte3 (wordAt (encode i) 0) = opcodeByte (opcode i) ∧
      wordAt (encode i) 0 &&& reservedMask (opcode i) = 0

theorem encodeTaps_length (ts : List (BitVec 16)) : (encodeTaps ts).length = ceilDiv ts.length 2 := by
  induction ts using encodeTaps.induct with
  | case1 => rfl
  | case2 t => simp [encodeTaps, ceilDiv]
  | case3 t u rest ih => simp only [encodeTaps, List.length_cons, ih, ceilDiv]; omega

/-- No reserved mask reaches the opcode byte (R71). -/
theorem mask_free (op : Opcode) (f : BitVec 24) (h : ∀ i < 24, (f.getLsbD i && (reservedMask op).getLsbD i) = false) :
    header op f &&& reservedMask op = 0 :=
  header_and_mask op f _ h (by cases op <;> decide)

theorem FrameLength.configure (m f : BitVec 8) (tw : Word) : FrameLength.Statement (.configure m f tw) := by
  intro fmt _
  refine ⟨rfl, byte3_header _ _, ?_⟩
  exact mask_free _ _ (by intro i hi; simp only [getLsbD_headerFields, getLsbD_pack8]; interval_cases i <;> simp [reservedMask, -BitVec.getLsbD_eq_getElem])

theorem FrameLength.setMode (m : BitVec 8) : FrameLength.Statement (.setMode m) := by
  intro fmt _
  refine ⟨rfl, byte3_header _ _, ?_⟩
  exact mask_free _ _ (by intro i hi; simp only [getLsbD_headerFields]; interval_cases i <;> simp [reservedMask, -BitVec.getLsbD_eq_getElem])

theorem FrameLength.setFilter (f : BitVec 8) : FrameLength.Statement (.setFilter f) := by
  intro fmt _
  refine ⟨rfl, byte3_header _ _, ?_⟩
  exact mask_free _ _ (by intro i hi; simp only [getLsbD_headerFields]; interval_cases i <;> simp [reservedMask, -BitVec.getLsbD_eq_getElem])

theorem FrameLength.setCfreq (tw : Word) : FrameLength.Statement (.setCfreq tw) := by
  intro fmt _
  exact ⟨rfl, byte3_header _ _, by simp only [encode, wordAt, List.getD_cons_zero, opcode]; decide⟩

theorem FrameLength.dfirCh (c : BitVec 16) (b : TapBlock) : FrameLength.Statement (.dfirCh c b) := by
  intro fmt h
  refine ⟨?_, byte3_header _ _, ?_⟩
  · simp only [Instr.wf, TapBlock.wf, beq_iff_eq] at h
    simp only [encode, encodeBlock, List.length_cons, encodeTaps_length, h, frameWords, TapBlock.count]; omega
  · exact mask_free _ _ (by intro i hi; simp only [getLsbD_headerFields]; interval_cases i <;> simp [reservedMask, -BitVec.getLsbD_eq_getElem])

theorem FrameLength.dfirAll (b : TapBlock) : FrameLength.Statement (.dfirAll b) := by
  intro fmt h
  refine ⟨?_, byte3_header _ _, by simp only [encode, wordAt, List.getD_cons_zero, opcode]; decide⟩
  simp only [Instr.wf, TapBlock.wf, beq_iff_eq] at h
  simp only [encode, encodeBlock, List.length_cons, encodeTaps_length, h, frameWords, TapBlock.count]; omega

theorem FrameLength.dfirReset : FrameLength.Statement .dfirReset := by
  intro fmt _
  exact ⟨rfl, byte3_header _ _, by simp only [encode, wordAt, List.getD_cons_zero, opcode]; decide⟩

theorem flatMap_pair_length {α : Type} (f : α → List Word) (h : ∀ a, (f a).length = 2) (xs : List α) :
    (xs.flatMap f).length = 2 * xs.length := by
  induction xs with
  | nil => rfl
  | cons x xs ih => simp [List.flatMap_cons, h, ih]; omega

theorem FrameLength.ddc (count len : Word) (tags : List TimeTag) (samples : List Word) :
    FrameLength.Statement (.ddc count len tags samples) := by
  intro fmt h
  refine ⟨?_, byte3_header _ _, by simp only [encode, wordAt, List.getD_cons_zero, opcode]; decide⟩
  simp only [Instr.wf, Bool.and_eq_true, beq_iff_eq] at h
  simp only [encode, List.length_cons, List.length_append, frameWords,
    flatMap_pair_length encodeTag (fun _ => rfl), h.1, h.2]
  omega

theorem FrameLength.beamform (ants len nrows : Word) (records : List AntennaRecord) (rows : List GainRow) (samples : List Word) :
    FrameLength.Statement (.beamform ants len nrows records rows samples) := by
  intro fmt h
  refine ⟨?_, byte3_header _ _, by simp only [encode, wordAt, List.getD_cons_zero, opcode]; decide⟩
  simp only [Instr.wf, Bool.and_eq_true, beq_iff_eq] at h
  simp only [encode, List.length_cons, List.length_append, frameWords,
    flatMap_pair_length encodeRecord (fun _ => rfl), flatMap_pair_length encodeRow (fun _ => rfl), h.1.1, h.1.2, h.2]
  omega

end Sys2Proof.Laws
end

