-- ==== Sys2Proof/Laws/RoundTrip.lean ====
section
/-! SUPPORT. What R80's assumption asks of a sample format when it is read as one about every input (log entry 7). -/

namespace Sys2Proof.Machine

theorem list_sum_zero (xs : List ℝ) (h : ∀ x ∈ xs, x = 0) : xs.sum = 0 := by
  induction xs with
  | nil => rfl
  | cons x xs ih => rw [List.sum_cons, h x (by simp), ih (fun y hy => h y (by simp [hy])), add_zero]

/-- Output 0 of a filter is its first tap times the first sample. -/
theorem firAt_zero (t : ℝ) (ts x : List ℝ) : realOps.firAt (t :: ts) x 0 = t * x.getD 0 0 := by
  have h0 : ∀ z ∈ (ts.zipIdx 1).map (realOps.term x 0), z = 0 := by
    intro z hz
    obtain ⟨⟨q, k⟩, hk, rfl⟩ := List.mem_map.mp hz
    have := List.le_snd_of_mem_zipIdx hk
    simp [StreamOps.term, show ¬ k ≤ 0 by simpa using Nat.pos_iff_ne_zero.mp this]
  rw [StreamOps.firAt, List.zipIdx_cons, List.map_cons, real_sum, List.sum_cons, list_sum_zero _ h0]
  simp [StreamOps.term, StreamOps.sampleAt]

/-- A bank whose taps are all 1. -/
def onesBank : Bank := Vector.replicate _ (Vector.replicate _ (Vector.replicate _ 1#16))

/-- One antenna of one sample, with the gain code 1 into beamX. -/
def oneSample (x : ℝ) : Antenna ℝ := ⟨0, .x, ⟨1, 0, 0, 0⟩, 0, 0, [x]⟩

theorem delayTaps_onesBank : ∃ ts, delayTaps exactArith onesBank 0 0 = (1 / 32767 : ℝ) :: ts := by
  have h : bankTap onesBank 0 0 0 = 1 := by simp [bankTap, onesBank, tapValue]
  simp [delayTaps, List.finRange_succ, h]

theorem antennaStream_oneSample (x : ℝ) : antennaStream exactArith onesBank (oneSample x) = [1 / 32767 * x] := by
  obtain ⟨ts, ht⟩ := delayTaps_onesBank
  have hs : coarseShift exactArith 0 [x] = [x] := by simp [coarseShift, StreamOps.sampleAt]
  show exactArith.real.firf (delayTaps exactArith onesBank 0 0) (coarseShift exactArith 0 [x]) = _
  rw [hs, ht]
  simp [StreamOps.firf, firAt_zero]

theorem beamX_oneSample (x : ℝ) : (1 / 32767 * (1 / 32767)) * x ∈ (beamsOf exactArith onesBank 1 [oneSample x]).x := by
  have hz : zeroRow (oneSample x).gains = false := rfl
  have hg : gainToX (oneSample x) = 1 / 32767 := by simp [gainToX, oneSample, gainValue]
  have hm : maxCoarse [oneSample x] = 0 := rfl
  simp only [beamsOf, sumAntennas, List.foldl_cons, List.foldl_nil, addAntenna, hz, antennaStream_oneSample, accumulate, hm, hg]
  simp
  ring

/-- Parameters whose every real output survives writing and reading read no real sample but 0: a format has finitely many sample
words, and a beam of one sample x can be `x / 32767^2`. -/
theorem roundTrips_reads_zero (p : Params ℝ ℂ) (h : RoundTrips exactArith p) (x : ℝ) (hx : p.fmt.ReadsR x) : x = 0 := by
  by_contra hne
  have step : ∀ y, p.fmt.ReadsR y → p.fmt.ReadsR ((1 / 32767 * (1 / 32767)) * y) := fun y hy =>
    ⟨_, p.fmt.encR_length _, h.2 _ ⟨onesBank, 1, [oneSample y], p.maxLen_pos, p.maxAnt_pos,
      by simp [oneSample, hy], .inl (beamX_oneSample y)⟩⟩
  have all : ∀ n : Nat, p.fmt.ReadsR ((1 / 32767 * (1 / 32767)) ^ n * x) := fun n => by
    induction n with
    | zero => simpa using hx
    | succ n ih => have := step _ ih; rwa [← mul_assoc, ← pow_succ'] at this
  have fin : {y | p.fmt.ReadsR y}.Finite := by
    refine ((List.finite_length_eq Word p.fmt.swR).image (fun ws => (p.fmt.decR ws).getD 0)).subset ?_
    rintro y ⟨ws, hl, hd⟩
    exact ⟨ws, hl, by simp [hd]⟩
  refine Set.infinite_of_injective_forall_mem (f := fun n : Nat => (1 / 32767 * (1 / 32767) : ℝ) ^ n * x) ?_ all fin
  intro a b hab
  exact pow_right_injective₀ (by norm_num) (by norm_num) (mul_right_cancel₀ hne hab)

end Sys2Proof.Machine
end

