-- ==== Sys2Proof/Tests/Slice0.lean ====
section
/-! SUPPORT. Tests: ill-formed terms, words written out from the layouts, one-step vectors of spec/95_test_vectors.md (each named
where it is used), and for every statement with hypotheses a witness that meets them. The vectors run in the evaluable arithmetic,
under the parameters of section 0 there. -/

namespace Sys2Proof.Tests

open Sys2Proof Sys2Proof.Machine

/-! ## Parameters of the vectors (95_test_vectors.md section 0) -/

/-- The coefficient of `ζ^e`. -/
def coefficient (e : Nat) (v : Cyc) : Rat := ((v.terms.find? (fun t => t.1 == e)).map (·.2)).getD 0

/-- `VEC_FORMAT`: signed 32-bit integers, real part first. -/
def vecFormat : SampleFormat Rat Cyc where
  swC := 2
  swR := 1
  decC ws := match ws with
    | [a, b] => some (Cyc.ofParts a.toInt b.toInt)
    | _ => none
  encC v := [BitVec.ofInt 32 (coefficient 0 v).num, BitVec.ofInt 32 (-(coefficient (2 ^ 30) v)).num]
  decR ws := match ws with
    | [a] => some a.toInt
    | _ => none
  encR v := [BitVec.ofInt 32 v.num]

/-- `PACK_T`. -/
def packT : FilterPack Rat := { cic := [1, 1], cicD := 2, fir := [1 / 2, 1 / 2], firD := 2, totalD := 4 }

/-- The block of the vectors. Only the pack of (DRX, 7) is theirs. -/
def vecParams : Params Rat Cyc where
  fsHz := 196000000
  twMin := 0x0D0FAC68
  twMax := 0x72F05398
  filterTable :=
    { tbn5 := packT, tbn6 := packT, tbn7 := { cic := [1], cicD := 1960, fir := [1], firD := 1, totalD := 1960 },
      drx3 := packT, drx4 := packT, drx5 := packT, drx6 := packT, drx7 := packT }
  defaultDelayFir := Vector.replicate _ (Vector.replicate _ (Vector.replicate _ 0#16))
  fmt := vecFormat
  maxStreams := 4
  maxLen := 16
  maxAnt := 4
  maxRows := 4

/-- `VEC_FORMAT` over the real and the complex numbers, writing the integer part. -/
noncomputable def intFormat : SampleFormat ℝ ℂ where
  swC := 2
  swR := 1
  decC ws := match ws with
    | [a, b] => some ⟨a.toInt, b.toInt⟩
    | _ => none
  encC v := [BitVec.ofInt 32 ⌊v.re⌋, BitVec.ofInt 32 ⌊v.im⌋]
  decR ws := match ws with
    | [a] => some a.toInt
    | _ => none
  encR v := [BitVec.ofInt 32 ⌊v⌋]

/-- One word a sample, of which all but 0 are undecodable. -/
def zeroFormat : SampleFormat ℝ ℂ where
  swC := 1
  swR := 1
  decC ws := if ws = [0] then some 0 else none
  encC _ := [0]
  decR ws := if ws = [0] then some 0 else none
  encR _ := [0]

/-- The example block of Config.lean for up to 4 streams, antennas and rows of up to 16 samples, in a given format. -/
noncomputable def testParams (fmt : SampleFormat ℝ ℂ) : Params ℝ ℂ :=
  { exampleParams with
    fmt := fmt, maxStreams := 4, maxLen := 16, maxAnt := 4, maxRows := 4, maxStreams_pos := by decide, maxStreams_le := by decide,
    maxLen_pos := by decide, maxAnt_pos := by decide, maxAnt_le := by decide, maxRows_pos := by decide, maxRows_le := by decide }

/-- The block after reset with words on its command port. -/
def fresh (ws : List Word) : State := (resetWith vecParams).send ws

/-- `cfg(m, f, w)` with words on its command port. -/
def configuredWith (m : Mode) (f : BitVec 8) (w : Word) (ws : List Word) : State := (fresh ws).setConfig ⟨m, f, w⟩

/-- What one step answers. -/
def answers (s : State) : List Response :=
  match stepWith cycArith vecParams s with
  | .next t => t.responsePort
  | .fault _ => []
  | .refused _ => []

/-- What one step answers, as the words of its responses. -/
def answerWords (s : State) : List Word := (answers s).flatMap responseWords

/-- The configuration and the words left over after one step. -/
def after (s : State) : Option Configuration × List Word :=
  match stepWith cycArith vecParams s with
  | .next t => (t.config, t.commandPort)
  | .fault _ => (none, [])
  | .refused _ => (none, [])

/-- The tap words of `BANK_T`. -/
def bankTWords : List Word :=
  [0x7FFF0000] ++ List.replicate 15 0 ++ [0x00007FFF] ++ List.replicate 111 0 ++ [0x40003FFF] ++ List.replicate 127 0

/-- The state after one step, with its responses taken away. -/
def stepped (s : State) : State :=
  match stepWith cycArith vecParams s with
  | .next t => { t with responsePort := [] }
  | .fault _ => s
  | .refused _ => s

/-- Channel 1 holds `BANK_T` (vector F-1). -/
def withBankT (ws : List Word) : State := (stepped (fresh ([0x10000001, 0x00100020] ++ bankTWords))).send ws

/-! ## Ill-formed terms -/

theorem test_wf_tap_count : Instr.wf vecFormat (.dfirCh 1 ⟨1, 3, [1, 2]⟩) = false := by decide
theorem test_wf_tap_count_all : Instr.wf vecFormat (.dfirAll ⟨2, 1, [1, 2, 3]⟩) = false := by decide
theorem test_wf_ddc_tags : Instr.wf vecFormat (.ddc 1 2 [0] [0, 0, 0, 0]) = false := by decide
theorem test_wf_ddc_samples : Instr.wf vecFormat (.ddc 1 1 [0] [0]) = false := by decide
theorem test_wf_beamform_records : Instr.wf vecFormat (.beamform 1 1 0 [] [] [7]) = false := by decide
theorem test_wf_beamform_rows : Instr.wf vecFormat (.beamform 1 1 1 [⟨1, 0, 0, 0⟩] [] [7]) = false := by decide
theorem test_wf_beamform_samples : Instr.wf vecFormat (.beamform 1 2 0 [⟨1, 0, 0, 0⟩] [] [7]) = false := by decide

/-! ## Words written out from the layouts (R72 to R83) -/

/-- R73: opcode 0x01, mode 1, filter 3, reserved 0; then the tuning word (vector C-2). -/
theorem test_decode_configure :
    decode vecFormat [0x01#8 ++ 0x01#8 ++ 0x03#8 ++ 0x00#8, 0x60A72F05] = .command (.configure 1 3 0x60A72F05) [] := by decide

/-- R74: opcode 0x02, mode 255, reserved 0 (vector C-15). -/
theorem test_decode_setMode : decode vecFormat [0x02#8 ++ 0xFF#8 ++ 0x0000#16] = .command (.setMode 255) [] := by decide

/-- R75: opcode 0x03, filter 8, reserved 0; the next word is the next header (vector C-18). -/
theorem test_decode_setFilter :
    decode vecFormat [0x03#8 ++ 0x08#8 ++ 0x0000#16, 0x12000000] = .command (.setFilter 8) [0x12000000] := by decide

/-- R76: opcode 0x04, reserved 0; then the tuning word (vector C-20). -/
theorem test_decode_setCfreq : decode vecFormat [0x04#8 ++ 0x000000#24, 0x0D0FAC68] = .command (.setCfreq 0x0D0FAC68) [] := by
  decide

/-- R77: opcode 0x10, reserved 0, channel 1; P = 1 above T = 3; tap 0 above tap 1, tap 2 above 0. -/
theorem test_decode_dfirCh :
    decode vecFormat [0x10#8 ++ 0x00#8 ++ 0x0001#16, 0x0001#16 ++ 0x0003#16, 0x0001#16 ++ 0xFFFE#16, 0x0003#16 ++ 0x0000#16] =
      .command (.dfirCh 1 ⟨1, 3, [1, 0xFFFE, 3]⟩) [] := by decide

/-- R77: opcode 0x11, reserved 0; P = 2 above T = 2; four taps. -/
theorem test_decode_dfirAll :
    decode vecFormat [0x11#8 ++ 0x000000#24, 0x0002#16 ++ 0x0002#16, 0x8000#16 ++ 0x0001#16, 0x0002#16 ++ 0x7FFF#16] =
      .command (.dfirAll ⟨2, 2, [0x8000, 1, 2, 0x7FFF]⟩) [] := by decide

/-- R78: opcode 0x12, reserved 0. -/
theorem test_decode_dfirReset : decode vecFormat [0x12#8 ++ 0x000000#24] = .command .dfirReset [] := by decide

/-- R79, R88: opcode 0x20; S = 1, L = 2; two tags, high word first; two samples of two words. -/
theorem test_decode_ddc :
    decode vecFormat [0x20#8 ++ 0x000000#24, 1, 2, 0x00000001, 0x00000002, 0xFFFFFFFF, 0x80000000, 10, 11, 12, 13] =
      .command (.ddc 1 2 [0x0000000100000002, 0xFFFFFFFF80000000] [10, 11, 12, 13]) [] := by decide

/-- R81 to R84: opcode 0x30; A = 1, L = 2, G = 1; channel 520, polarization 1, reserved 0; stand 0, coarse 1, fine 8; the row's
four codes; two samples. -/
theorem test_decode_beamform :
    decode vecFormat [0x30#8 ++ 0x000000#24, 1, 2, 1, 0x0208#16 ++ 0x01#8 ++ 0x00#8, 0x0000#16 ++ (0x001#12 ++ 0x8#4),
        0x0001#16 ++ 0x0002#16, 0x0003#16 ++ 0x0004#16, 21, 22] =
      .command (.beamform 1 2 1 [⟨520, 1, 0, 0x0018⟩] [⟨1, 2, 3, 4⟩] [21, 22]) [] := by decide

/-- R92: vector X-3, an unassigned opcode and the next header after it. -/
theorem test_unassigned_opcode : answerWords (fresh [0x05000000, 0x03070000]) = [0x00000004] ∧
    after (fresh [0x05000000, 0x03070000]) = (none, [0x03070000]) := by decide +kernel

/-- R93: vectors X-5, F-16 and BE-12, a reserved bit in a header, in the odd tap half-word and in an antenna record. -/
theorem test_reserved_bits :
    answerWords (fresh [0x01000701, 0x60A72F05]) = [0x00000004] ∧ after (fresh [0x01000701, 0x60A72F05]) = (none, []) ∧
    answerWords (fresh [0x10000001, 0x00010003, 0x00010002, 0x00030001]) = [0x00000304] ∧
    answerWords (fresh [0x30000000, 1, 4, 1, 0x00010001, 0, 0x7FFF0000, 0, 1, 2, 3, 4]) = [0x00000404] := by decide +kernel

/-- R240: a frame that has not arrived whole is waited for. -/
theorem test_incomplete_frame : answers (fresh [0x01000700]) = [] ∧ after (fresh [0x01000700]) = (none, [0x01000700]) := by
  decide +kernel

/-- The opcode table's numbering: the second word of a CONFIGURE stands above its header. -/
theorem test_decodeTableWord : decodeTableWord 64 0x60A72F0501000700 = some (.configure 0 7 0x60A72F05) := by decide

/-- The first step after reset runs the instruction that `withFetchWord` places. -/
theorem test_withFetchWord : step (State.reset.withFetchWord 32 0x12000000) = exec .dfirReset State.reset := rfl

/-! ## One step of each command -/

/-- Vector C-1. -/
theorem test_configure : answerWords (fresh [0x01000700, 0x60A72F05]) = [0] ∧
    after (fresh [0x01000700, 0x60A72F05]) = (some ⟨.tbn, 7, 0x60A72F05⟩, []) := by decide +kernel

/-- Vectors C-4 and C-7: the mode is checked first; TW_MAX + 1 is refused. -/
theorem test_configure_checks : answerWords (fresh [0x01020900, 0]) = [0x00000101] ∧
    answerWords (fresh [0x01010500, 0x72F05399]) = [0x00000301] := by decide +kernel

/-- Vector C-12. -/
theorem test_setMode : after (configuredWith .drx 5 0x40000000 [0x02000000]) = (some ⟨.tbn, 5, 0x40000000⟩, []) := by
  decide +kernel

/-- Vectors C-8 and C-11: unconfigured; filter 3 is not a TBN code. -/
theorem test_setMode_checks : answerWords (fresh [0x02010000]) = [0x00000501] ∧
    answerWords (configuredWith .drx 3 0x40000000 [0x02000000]) = [0x00000201] := by decide +kernel

/-- Vector C-17. -/
theorem test_setFilter : after (configuredWith .drx 7 0x40000000 [0x03030000]) = (some ⟨.drx, 3, 0x40000000⟩, []) := by
  decide +kernel

/-- Vector C-16. -/
theorem test_setFilter_checks : answerWords (configuredWith .tbn 7 0x40000000 [0x03030000]) = [0x00000201] := by decide +kernel

/-- Vector C-20, at TW_MIN. -/
theorem test_setCfreq :
    after (configuredWith .tbn 7 0x40000000 [0x04000000, 0x0D0FAC68]) = (some ⟨.tbn, 7, 0x0D0FAC68⟩, []) := by decide +kernel

/-- Vector C-21, below TW_MIN. -/
theorem test_setCfreq_checks : answerWords (configuredWith .tbn 7 0x40000000 [0x04000000, 0x0D0FAC67]) = [0x00000301] := by
  decide +kernel

/-- Vector F-1: channel 1 holds BANK_T and channel 2 what it held. -/
theorem test_dfirCh : (bankTap (withBankT []).bank 0 0 0, bankTap (withBankT []).bank 0 1 1, bankTap (withBankT []).bank 0 8 0,
    bankTap (withBankT []).bank 0 8 1, bankTap (withBankT []).bank 1 0 0) = (32767, 32767, 16384, 16383, 0) := by decide +kernel

/-- Vectors F-6 and F-7: the channel before the shape; an empty shape. -/
theorem test_dfirCh_checks : answerWords (fresh ([0x10000258, 0x000F0020] ++ List.replicate 240 0)) = [0x00000401] ∧
    answerWords (fresh [0x10000001, 0x00000020]) = [0x00000002] := by decide +kernel

/-- Vector F-12, on channels 1 and 520. -/
theorem test_dfirAll :
    (bankTap (stepped (fresh ([0x11000000, 0x00100020] ++ bankTWords))).bank 0 8 1,
      bankTap (stepped (fresh ([0x11000000, 0x00100020] ++ bankTWords))).bank 519 8 1) = (16383, 16383) := by decide +kernel

/-- Vectors F-10 and F-11. -/
theorem test_dfirAll_checks : answerWords (fresh ([0x11000000, 0x0010001F] ++ List.replicate 248 0)) = [0x00000202] ∧
    answerWords (fresh ([0x11000000, 0x00080014] ++ List.replicate 80 0)) = [0x00000102] := by decide +kernel

/-- Vector F-13, one tap of channel 1. -/
theorem test_dfirReset : bankTap (stepped (withBankT [0x12000000])).bank 0 0 0 = 0 := by decide +kernel

/-- Vector DV-1, whose values are not integers. -/
theorem test_engine : engine cycArith packT 0x40000000 ((List.range 8).map (fun n => BitVec.ofNat 64 n))
    (Cyc.ofRat 4 :: List.replicate 7 Cyc.zero) = [Cyc.ofRat (7 / 8), Cyc.ofRat (-1 / 2)] := by decide +kernel

/-- Program P3, step 2: vectors DV-1 and DV-3 as one batch; stream 1 is four words 0. -/
theorem test_ddc :
    answerWords (configuredWith .drx 7 0x40000000
      ([0x20000000, 2, 8] ++ (List.range 8).flatMap (fun n => [0, BitVec.ofNat 32 n]) ++
        [4, 0, 0, 0, 0, 0, 0, 0, 0, 0, 0, 0, 0, 0, 0, 0] ++
        [3, 0, 0, 3, 0xFFFFFFFD, 0, 0, 0xFFFFFFFD, 3, 0, 0, 3, 0xFFFFFFFD, 0, 0, 0xFFFFFFFD])) =
      [0, 2, 2] ++ (vecFormat.encC (Cyc.ofRat (7 / 8)) ++ vecFormat.encC (Cyc.ofRat (-1 / 2))) ++ [0, 0, 0, 0] := by decide +kernel

/-- Program P3, step 5 (vector DV-8), and program P4, step 1: unconfigured. -/
theorem test_ddc_small : answerWords (configuredWith .drx 7 0x40000000 [0x20000000, 1, 1, 0, 5, 7, 0]) = [0, 1, 1, 0, 0] ∧
    answerWords (fresh [0x20000000, 1, 1, 0, 0, 5, 0]) = [0x00000501] := by decide +kernel

/-- Vector B2. -/
theorem test_beamform :
    answerWords (withBankT [0x30000000, 2, 5, 1, 0x00010000, 0x10, 0x00010100, 0, 0x7FFF0000, 0x00007FFF,
      1, 2, 3, 4, 5, 10, 20, 30, 40, 50]) = [0, 4, 1, 2, 3, 4, 20, 30, 40, 50] := by decide +kernel

/-- Vectors BE-3 and BE-9: coarse 4 of a stream of 4; the gain rows before the antennas. -/
theorem test_beamform_checks :
    answerWords (fresh [0x30000000, 2, 4, 1, 0x00010000, 0, 0x00010000, 0x40, 0x7FFF0000, 0, 1, 2, 3, 4, 5, 6, 7, 8]) =
      [0x07000103] ∧
    answerWords (fresh [0x30000000, 2, 1, 2, 0, 0, 0x00010000, 0x00050000, 0x00010000, 0, 0x9C400000, 0, 1, 2]) =
      [0x06000103] := by decide +kernel

/-! ## Codecs and assembler -/

/-- Section 2.1, and TW_MIN and TW_MAX of R9. -/
theorem test_tuningWord : (frequencyToTuningWord (196000000 : Rat) 10000000, frequencyToTuningWord (196000000 : Rat) 88000000,
    frequencyToTuningWord (196000000 : Rat) (588000000 / 2 ^ 33),
    frequencyToTuningWord (196000000 : Rat) 196000000) = (some 0x0D0FAC68#32, some 0x72F05398#32, some 2, none) := by decide +kernel

/-- Section 2.1. -/
theorem test_delay : [1000, 375 / 784, 20897, 20898, -1].map (delayToEncoded (196000000 : Rat)) =
    [some 0x400C, some 0x0200, some 0xFDFF, none, none] ∧ encodedToDelay (196000000 : Rat) 0xFFFF = 8191875 / 392 := by
  decide +kernel

/-- Section 2.1. -/
theorem test_gain : [1, 1 / 2, 1 / 3, 3 / 65534, 1 / 65534, 10001 / 10000, -1 / 10].map (gainToEncoded (K := Rat)) =
    [some 0xFF7F, some 0x0040, some 0xAA2A, some 0x0200, some 0, none, none] := by decide +kernel

/-- Program P1, step 2: `CONFIGURE DRX, 3, 0x60A72F05`. -/
theorem test_asm_configure : assembleLine cycArith vecParams ['C', 'O', 'N', 'F', 'I', 'G', 'U', 'R', 'E', ' ', 'D', 'R', 'X', ',', ' ', '3',
    ',', '0', 'x', '6', '0', 'A', '7', '2', 'F', '0', '5'] = some [0x01010300, 0x60A72F05] := by decide +kernel

/-- Program P3, step 5: `DDC1` of one tag and one sample, with a comment. -/
theorem test_asm_ddc1 : assembleLine cycArith vecParams ['D', 'D', 'C', '1', ' ', braceOpen, '5', braceClose, ',', ' ', braceOpen, '7',
    braceClose, ';', 'x'] = some [0x20000000, 1, 1, 0, 5, 7, 0] := by decide +kernel

/-- R98: samples 1.5-2i and -3i (log entry 13 for their text). -/
theorem test_asm_complex : parseLine ['D', 'D', 'C', '1', ' ', braceOpen, '0', braceClose, ',', braceOpen, '1', '.', '5', '-', '2',
    'i', ',', '-', '3', 'i', braceClose] = some (.ddc1 [0] [⟨3 / 2, -2⟩, ⟨0, -3⟩]) := by decide +kernel

/-- Program P4, step 7: `BEAMFORM` with a coarse delay of 4. -/
theorem test_asm_beamform : assembleLine cycArith vecParams (['B', 'E', 'A', 'M', 'F', 'O', 'R', 'M', ' ', braceOpen, '(', '1', ',', 'X', ',',
      '0', ',', '4', '.', '0', ')', braceClose, ',', braceOpen, '(', '3', '2', '7', '6', '7', ',', '0', ',', '0', ',', '0', ')',
      braceClose, ',', braceOpen, braceOpen, '1', ',', '2', ',', '3', ',', '4', braceClose, braceClose]) =
    some [0x30000000, 1, 4, 1, 0x00010000, 0x40, 0x7FFF0000, 0, 1, 2, 3, 4] := by decide +kernel

/-- R99: `SET_CFREQ_HZ 5000000` and the channel that `DFIR.SET -2` writes raw. -/
theorem test_asm_pseudo : (assemble cycArith vecParams (.setCfreqHz 5000000)).map encode = some [0x04000000, 0x0687D634] ∧
    (assemble cycArith vecParams (.dfirSet (-2) [[1]])).map encode = some [0x1000FFFE, 0x00010001, 0x00010000] := by decide +kernel

/-! ## Witnesses: states and operands that meet each statement's hypotheses -/

/-- A state with words on its command port, whatever the parameters are. -/
def portState (ws : List Word) : State := State.reset.send ws

/-- A configured state: TBN, filter 7, the lowest tuning word. -/
def tbn7 : State := State.reset.setConfig ⟨.tbn, 7, Config.params.twMin⟩

theorem tbn7_ok : configOk Config.params tbn7 = true := by
  simp [configOk, tbn7, State.setConfig, validConfig, validTW_twMin Config.params_admissible, validFilter, supportedFilters]

/-- Some tuning word is refused. -/
theorem some_tuning_word_invalid : ∃ tw : Word, validTW Config.params tw = false := by
  by_contra h
  have all : ∀ tw : Word, validTW Config.params tw = true := by simpa using h
  have h0 := all 0
  have h1 := all 0xFFFFFFFF
  simp only [validTW, decide_eq_true_eq] at h0 h1
  have a : Config.params.twMin.toNat = 0 := by simpa using h0.1
  have b : Config.params.twMax.toNat = 4294967295 := by have := Config.params.twMax.isLt; have := h1.2; simp at this; omega
  have ea := twMin_toNat Config.params_admissible
  have eb := twMax_toNat Config.params_admissible
  have ba := (roundEven_bounds (10000000 * 2 ^ 32 / Config.params.fsHz)).2
  have bb := (roundEven_bounds (88000000 * 2 ^ 32 / Config.params.fsHz)).1
  rw [← ea, a] at ba
  rw [← eb, b] at bb
  have e : 88000000 * 2 ^ 32 / Config.params.fsHz = 44 / 5 * (10000000 * 2 ^ 32 / Config.params.fsHz) := by ring
  rw [e] at bb
  norm_num at ba bb
  linarith

/-- The words of one zero sample decode, whatever the format is. -/
theorem zero_complex_sample :
    Config.params.fmt.decC (sampleWords Config.params.fmt.swC (Config.params.fmt.encC 0) 0) = some 0 := by
  have := Config.params.fmt.encC_length 0
  have h : Config.params.fmt.decC (Config.params.fmt.encC 0) = some 0 := Config.params_admissible.zeroC
  simp [sampleWords, ← this, h]

theorem zero_real_sample :
    Config.params.fmt.decR (sampleWords Config.params.fmt.swR (Config.params.fmt.encR 0) 0) = some 0 := by
  have := Config.params.fmt.encR_length 0
  have h : Config.params.fmt.decR (Config.params.fmt.encR 0) = some 0 := Config.params_admissible.zeroR
  simp [sampleWords, ← this, h]

theorem witness_DecodeOfEncodeIsCommand :
    Instr.wf intFormat (.beamform 1 2 1 [⟨520, 1, 0, 0x0018⟩] [⟨1, 2, 3, 4⟩] [21, 22]) = true ∧
    Instr.wf intFormat (.ddc 1 1 [5] [7, 0]) = true ∧ Instr.wf intFormat (.dfirCh 1 ⟨1, 3, [1, 2, 3]⟩) = true := ⟨rfl, rfl, rfl⟩

theorem witness_DecodedCommandIsItsFrame : decode intFormat [0x20000000, 1, 1, 0, 5, 7, 0, 0x12000000] =
    .command (.ddc 1 1 [5] [7, 0]) [0x12000000] := rfl

theorem witness_FramesWrittenFromTheLayoutsDecode : ([7, 0] : List Word).length = intFormat.swC ∧ ([7] : List Word).length = intFormat.swR :=
  ⟨rfl, rfl⟩

theorem witness_UnassignedOpcodeIsOneIllegalWord :
    byte3 (0xFF123456 : Word) ∉ [0x01, 0x02, 0x03, 0x04, 0x10, 0x11, 0x12, 0x20, 0x30] ∧
    (portState [0xFF123456, 0x12000000]).commandPort = 0xFF123456 :: [0x12000000] := ⟨by decide, rfl⟩

/-- A header bit, the half-word after an odd tap count, an antenna record. -/
theorem witness_ReservedBitsMakeTheFrameIllegal :
    (opcodeOf? (wordAt (portState [0x02000001]).commandPort 0) = some .setMode ∧
      frameLength? Config.params.fmt (portState [0x02000001]).commandPort = some 1 ∧
      wordAt (portState [0x02000001]).commandPort 0 &&& reservedBits .setMode (portState [0x02000001]).commandPort 0 ≠ 0) ∧
    (∃ s : State, s.commandPort = [0x10000001, 0x00010003, 0x00010002, 0x00030001] ∧
      opcodeOf? (wordAt s.commandPort 0) = some .dfirCh ∧ frameLength? Config.params.fmt s.commandPort = some 4 ∧
      wordAt s.commandPort 3 &&& reservedBits .dfirCh s.commandPort 3 ≠ 0 ∧
      ∀ j < 3, wordAt s.commandPort j &&& reservedBits .dfirCh s.commandPort j = 0) ∧
    (∃ s : State, s.commandPort = [0x30000000, 1, 0, 0, 0x00010001, 0] ∧
      opcodeOf? (wordAt s.commandPort 0) = some .beamform ∧ frameLength? Config.params.fmt s.commandPort = some 6 ∧
      wordAt s.commandPort 4 &&& reservedBits .beamform s.commandPort 4 ≠ 0 ∧
      ∀ j < 4, wordAt s.commandPort j &&& reservedBits .beamform s.commandPort j = 0) := by
  refine ⟨⟨by decide, by rfl, by decide⟩, ⟨portState [0x10000001, 0x00010003, 0x00010002, 0x00030001], rfl, by decide, by rfl, by decide, by decide⟩,
    ⟨portState [0x30000000, 1, 0, 0, 0x00010001, 0], rfl, by decide, ?_, by decide, by decide⟩⟩
  show some (4 + 2 * 1 + 2 * 0 + Config.params.fmt.swR * (1 * 0)) = some 6
  simp

theorem witness_IncompleteFrameLeavesTheStateUnchanged :
    (∀ n, frameLength? Config.params.fmt (portState [0x01000700]).commandPort = some n →
      (portState [0x01000700]).commandPort.length < n) ∧
    frameLength? Config.params.fmt (portState [0x20000000, 1]).commandPort = none := by
  refine ⟨fun n h => ?_, rfl⟩
  have e : (2 : Nat) = n := Option.some.inj h
  subst e; decide

theorem witness_StepRunsTheDecodedCommand : decode Config.params.fmt (portState [0x03050000, 0x12000000]).commandPort =
    .command (.setFilter 5) [0x12000000] := rfl

theorem witness_FramesRunInTheOrderReceived :
    ∀ i ∈ [Instr.setFilter 5, .dfirReset, .dfirAll ⟨1, 1, [7]⟩], i.wf Config.params.fmt = true := by decide

theorem witness_PortsAreBigEndian : ([1, 2, 3, 4, 5] : List Byte).length % 4 ≠ 0 := by decide

theorem witness_OneResponsePerCommand : exec .dfirReset State.reset = .next (dfirReset Config.params State.reset) := rfl

theorem witness_ErrorsWriteNoState :
    (∃ t, exec (.setFilter 5) State.reset = .next t ∧
      t.responsePort = State.reset.responsePort ++ [.error (.invalidConfiguration .notConfigured)]) ∧
    (∃ t, step (portState [0x02000001]) = .next t ∧
      t.responsePort = (portState [0x02000001]).responsePort ++ [.error (.illegalCommand 0)]) :=
  ⟨⟨_, rfl, rfl⟩, ⟨_, rfl, rfl⟩⟩

theorem step_configure_tbn7 (s : State) (h : s.commandPort = [0x01000700, Config.params.twMin]) :
    step s = .next ((((s.consume [])).setConfig ⟨.tbn, 7, Config.params.twMin⟩).respond .empty) := by
  have d : decode Config.params.fmt s.commandPort = .command (.configure 0 7 (Config.params.twMin)) [] := by rw [h]; rfl
  unfold step fetch
  rw [d]
  simp [exec, execConfigure, configure, modeOf?, validFilter, supportedFilters, validTW_twMin Config.params_admissible]

theorem witness_OnlyTheSettersWriteTheConfiguration :
    (∃ s t : State, step s = .next t ∧ t.config ≠ s.config) ∧ (∃ t, exec (.setMode 1) tbn7 = .next t) :=
  ⟨⟨portState [0x01000700, Config.params.twMin], _, step_configure_tbn7 _ rfl, by simp [portState, State.reset]⟩, ⟨_, rfl⟩⟩

/-- A bank that is not the default one. -/
def otherBank : Bank := Vector.replicate NCHAN (Vector.replicate NPHASE (Vector.replicate NTAPS (Config.params.defaultDelayFir[0][0][0] + 1)))

theorem witness_OnlyDfirCommandsWriteTheBank : ∃ s t : State, step s = .next t ∧ t.bank ≠ s.bank := by
  refine ⟨(portState [0x12000000]).setBank otherBank, _, rfl, fun h => ?_⟩
  have h' : Config.params.defaultDelayFir = otherBank := h
  have e : Config.params.defaultDelayFir[0][0][0] = Config.params.defaultDelayFir[0][0][0] + 1 := by
    conv_lhs => rw [h']
    simp [otherBank]
  have := congrArg BitVec.toNat e
  rw [BitVec.toNat_add] at this
  have h16 := (Config.params.defaultDelayFir[0][0][0]).isLt
  rw [show (1 : BitVec 16).toNat = 1 from rfl] at this
  omega

theorem witness_ConfiguredIsSetByConfigureAndNeverCleared :
    (∃ s t : State, step s = .next t ∧ s.configured = true) ∧
    (∃ s t : State, step s = .next t ∧ s.configured = false ∧ t.configured = true) :=
  ⟨⟨tbn7, tbn7, rfl, rfl⟩, ⟨portState [0x01000700, Config.params.twMin], _, step_configure_tbn7 _ rfl, rfl, rfl⟩⟩

theorem witness_StepKeepsInvariant : ∃ s t : State, inv Config.params s = true ∧ step s = .next t ∧ t.configured = true :=
  ⟨portState [0x01000700, Config.params.twMin], _, rfl, step_configure_tbn7 _ rfl, rfl⟩

theorem witness_ValidStatesNeverStop : inv Config.params tbn7 = true := by
  rw [inv, tbn7_ok]; rfl

theorem witness_EveryFrequencyInRangeIsAccepted : Admissible exampleParams ∧ ((10000000 : ℝ) ≤ 10000000 ∧ (10000000 : ℝ) ≤ 88000000) ∧
    ((10000000 : ℝ) ≤ 88000000 ∧ (88000000 : ℝ) ≤ 88000000) := ⟨exampleParams_admissible, by norm_num⟩

theorem witness_ConfigureWritesAllOrRaises :
    ((2 : BitVec 8) ≠ 0 ∧ (2 : BitVec 8) ≠ 1) ∧ (modeOf? 0 = some .tbn ∧ validFilter .tbn 3 = false) ∧
    (∃ tw, modeOf? 1 = some .drx ∧ validFilter .drx 3 = true ∧ validTW Config.params tw = false) ∧
    (modeOf? 1 = some .drx ∧ validFilter .drx 3 = true ∧ validTW Config.params (Config.params.twMin) = true) := by
  obtain ⟨tw, h⟩ := some_tuning_word_invalid
  exact ⟨by decide, by decide, ⟨tw, by decide, by decide, h⟩, by decide, by decide, validTW_twMin Config.params_admissible⟩

theorem witness_SetModeWritesTheModeOrRaises :
    State.reset.config = none ∧ tbn7.config = some ⟨.tbn, 7, Config.params.twMin⟩ ∧ ((2 : BitVec 8) ≠ 0 ∧ (2 : BitVec 8) ≠ 1) ∧
    (modeOf? 0 = some .tbn ∧ validFilter .tbn 3 = false) ∧ (modeOf? 1 = some .drx ∧ validFilter .drx 7 = true) :=
  ⟨rfl, rfl, by decide, by decide, by decide⟩

theorem witness_SetFilterWritesTheFilterOrRaises :
    State.reset.config = none ∧ tbn7.config = some ⟨.tbn, 7, Config.params.twMin⟩ ∧ validFilter .tbn 4 = false ∧
    validFilter .tbn 5 = true := ⟨rfl, rfl, by decide, by decide⟩

theorem witness_SetCfreqWritesTheTuningWordOrRaises :
    State.reset.config = none ∧ tbn7.config = some ⟨.tbn, 7, Config.params.twMin⟩ ∧
    (∃ tw, validTW Config.params tw = false) ∧ validTW Config.params (Config.params.twMin) = true :=
  ⟨rfl, rfl, some_tuning_word_invalid, validTW_twMin Config.params_admissible⟩

/-- Rounding an integer. -/
theorem roundEven_int (n : ℤ) : roundEven ((n : ℤ) : ℝ) = n := by
  simp [roundEven]

theorem witness_RoundIsNearestTiesToEven :
    (1 : ℤ) ≠ roundEven (1 / 2 : ℝ) ∧ |(1 / 2 : ℝ) - ((1 : ℤ) : ℝ)| = |(1 / 2 : ℝ) - (roundEven (1 / 2 : ℝ) : ℝ)| := by
  have e : roundEven (1 / 2 : ℝ) = 0 := by
    have f : ⌊(1 / 2 : ℝ)⌋ = 0 := by norm_num
    unfold roundEven; rw [f]; norm_num
  rw [e]; norm_num

theorem witness_TuningWordRoundTrip : (0 : ℝ) < 196000000 ∧
    frequencyToTuningWord (196000000 : ℝ) 49000000 = some 0x40000000 := by
  refine ⟨by norm_num, ?_⟩
  rw [frequencyToTuningWord, fieldOf?_eq_some_iff, show (49000000 * 2 ^ 32 / 196000000 : ℝ) = ((1073741824 : ℤ) : ℝ) by norm_num,
    roundEven_int]
  rfl

theorem witness_DelayRoundTrip : (0 : ℝ) < 196000000 ∧ delayToEncoded (196000000 : ℝ) 1000 = some 0x400C := by
  refine ⟨by norm_num, ?_⟩
  rw [delayToEncoded, delayField, show (1000 * 196000000 * 16 / 1000000000 : ℝ) = ((3136 : ℤ) : ℝ) by norm_num, roundEven_int]
  decide

theorem witness_GainFieldIsTheRoundedProduct : ((-1 : ℝ) < 0 ∨ (1 : ℝ) < -1) ∧ ((0 : ℝ) ≤ 1 ∧ (1 : ℝ) ≤ 1) := by norm_num

theorem witness_GainRoundTrip : gainToEncoded (1 : ℝ) = some 0xFF7F := by
  rw [gainToEncoded, gainField, show ((1 : ℝ) * 32767) = ((32767 : ℤ) : ℝ) by norm_num, roundEven_int,
    if_neg (by norm_num)]
  decide

theorem witness_DfirChLoadsOneChannel : 1 ≤ (520 : BitVec 16).toNat ∧ (520 : BitVec 16).toNat ≤ 520 ∧
    (TapBlock.mk 16 32 (List.replicate 512 0x8000)).lists = 16 ∧ (TapBlock.mk 16 32 (List.replicate 512 0x8000)).length = 32 :=
  ⟨by decide, by decide, rfl, rfl⟩

theorem witness_DfirAllLoadsEveryChannel : (TapBlock.mk 16 32 (List.replicate 512 0x8000)).lists = 16 ∧
    (TapBlock.mk 16 32 (List.replicate 512 0x8000)).length = 32 := ⟨rfl, rfl⟩

theorem witness_DfirChecksRaiseInOrder :
    ((0 : BitVec 16).toNat < 1 ∧ 520 < (521 : BitVec 16).toNat) ∧ (1 ≤ (1 : BitVec 16).toNat ∧ (1 : BitVec 16).toNat ≤ 520) ∧
    ((TapBlock.mk 0 32 []).lists = 0 ∧ (TapBlock.mk 16 0 []).length = 0) ∧
    ((TapBlock.mk 15 1 (List.replicate 15 0)).lists ≠ 0 ∧ (TapBlock.mk 15 1 (List.replicate 15 0)).length ≠ 0 ∧
      (TapBlock.mk 15 1 (List.replicate 15 0)).lists ≠ 16) ∧
    ((TapBlock.mk 16 1 (List.replicate 16 0)).lists = 16 ∧ (TapBlock.mk 16 1 (List.replicate 16 0)).length ≠ 0 ∧
      (TapBlock.mk 16 1 (List.replicate 16 0)).length ≠ 32) := by decide

theorem witness_FilterTableHoldsTheSupportedPairs : packOf? exampleParams.filterTable .drx 7 = some passPack ∧
    packOf? Config.params.filterTable .tbn 7 = some Config.params.filterTable.tbn7 := ⟨rfl, rfl⟩

/-- One zero sample with one tag. -/
theorem witness_DdcAnswersEachStream : DdcReady Config.params tbn7 ⟨.tbn, 7, Config.params.twMin⟩ Config.params.filterTable.tbn7 1 1
    (Config.params.fmt.encC 0) (fun _ _ => 0) where
  configured := rfl
  hasPack := rfl
  streams := ⟨by decide, Config.params.maxStreams_pos⟩
  length := ⟨by decide, Config.params.maxLen_pos⟩
  decodes r hr n hn := by
    obtain rfl : r = 0 := by simpa using hr
    obtain rfl : n = 0 := by simpa using hn
    exact zero_complex_sample

theorem witness_DdcChecksRaiseInOrder :
    State.reset.config = none ∧ tbn7.config ≠ none ∧ ((0 : Word) = 0 ∨ (1 : Word) = 0) ∧
    ((65537 : Word) ≠ 0 ∧ (1 : Word) ≠ 0 ∧ Config.params.maxStreams < (65537 : Word).toNat) ∧
    ((2 : Word) ≠ 0 ∧ (1 : Word) ≠ 0 ∧ (2 : Word).toNat ≤ (testParams zeroFormat).maxStreams ∧
      (1 : Word).toNat ≤ (testParams zeroFormat).maxLen ∧
      zeroFormat.decC (sampleWords zeroFormat.swC [0, 7] (1 * (1 : Word).toNat + 0)) = none ∧
      ∀ r' < 1, ∀ n' < (1 : Word).toNat, zeroFormat.decC (sampleWords zeroFormat.swC [0, 7] (r' * (1 : Word).toNat + n')) ≠ none) := by
  refine ⟨rfl, by simp [tbn7, State.setConfig], .inl rfl, ⟨by decide, by decide, ?_⟩, by decide, by decide, by decide, by decide,
    rfl, fun r hr n hn => ?_⟩
  · have := Config.params.maxStreams_le
    show Config.params.maxStreams < 65537
    omega
  · obtain rfl : r = 0 := by simpa using hr
    obtain rfl : n = 0 := by simpa using hn
    exact Option.some_ne_none 0

theorem witness_NcoPhaseIsTheOscillator : (0 : ℝ) < 196000000 := by norm_num

theorem witness_EngineComputesTheFourSteps :
    (([0, 1, 2] : List TimeTag).length = ([3, 0, Complex.I] : List ℂ).length ∧
      0 < (engine exactArith passPack 0x40000000 [0, 1, 2] [3, 0, Complex.I]).length) ∧
    (([0, 1, 2] : List TimeTag).length = [Cyc.ofRat 3, Cyc.zero, Cyc.zero].length ∧
      0 < (engine cycArith packT 0x40000000 [0, 1, 2] [Cyc.ofRat 3, Cyc.zero, Cyc.zero]).length) :=
  ⟨⟨rfl, by simp [engine, firStage, cicStage, removeDc, mix, ceilDiv, passPack]⟩, by decide +kernel⟩

theorem witness_CanonicalValuesAreEqualOnlyIfIdentical : canonicalCyc (Cyc.ofParts (1 / 2) (-3)) = true := by decide +kernel

theorem witness_EngineOutputLength : ([0, 1, 2] : List TimeTag).length = ([3, 0, Complex.I] : List ℂ).length := rfl

/-- A constant stream whose tags are all 0. -/
theorem witness_ConstantMixGivesZeros : ∀ m ∈ mix exactArith 0x40000000 [0, 0, 0] [3, 3, 3], m = 3 := by
  simp [mix, ncoPhase, osc]

theorem witness_DdcBatchIsItsStreamsOneByOne : ∃ ys, exec (.ddc 1 1 [0] (Config.params.fmt.encC 0)) tbn7 =
    .next (answered tbn7 (.ok (.streams 1 (outputLength Config.params.filterTable.tbn7 1) ys))) := by
  have h1 := Config.params.maxStreams_pos
  have h2 := Config.params.maxLen_pos
  have r : readStreams Config.params.fmt (Config.params.fmt.encC 0) 1 1 = .ok [[0]] := by
    simp [readStreams, readComplexStream, zero_complex_sample, allSome, collect]
  have hc := Config.params.filterTable.tbn7.cicD_pos
  have hf := Config.params.filterTable.tbn7.firD_pos
  refine ⟨[(engine exactArith Config.params.filterTable.tbn7 Config.params.twMin [0] [0]).flatMap Config.params.fmt.encC], ?_⟩
  simp only [exec, execDdc, ddc, tbn7, setConfig_config]
  rw [if_neg (by decide), if_neg (by simp; omega)]
  simp only [show (1 : Word).toNat = 1 from rfl]
  rw [r]
  rw [show packOf? Config.params.filterTable .tbn 7 = some Config.params.filterTable.tbn7 from rfl]
  simp only [ddcResult]
  rw [if_neg (by omega)]
  rfl

theorem witness_DecimatorsReadTheirWindow :
    ([1, 2] : List ℂ).length = ([1, 3] : List ℂ).length ∧ 0 * passPack.totalD < ([1, 2] : List ℂ).length ∧
    (∀ n ≤ 0 * passPack.totalD, 0 * passPack.totalD ≤ n + (passPack.cic.length - 1) + (passPack.fir.length - 1) * passPack.cicD →
      ([1, 2] : List ℂ).getD n 0 = ([1, 3] : List ℂ).getD n 0) :=
  ⟨rfl, by simp, fun n hn _ => by obtain rfl : n = 0 := by simpa using hn
                                  rfl⟩

theorem witness_DdcReadsOnlyTheConfiguration : tbn7.config = (tbn7.setBank otherBank).config ∧ configOk Config.params tbn7 = true :=
  ⟨rfl, tbn7_ok⟩

/-- One zero sample of an X antenna on channel 520, stand 0, no delay. -/
theorem witness_BeamformAnswersItsBeams : BeamformReady Config.params 1 1 1 [⟨520, 0, 0, 0x0005⟩] [⟨32767, 0, 0, 1⟩]
    (Config.params.fmt.encR 0) [⟨519, .x, ⟨32767, 0, 0, 1⟩, 0, 5, [0]⟩] where
  antennas := ⟨by decide, Config.params.maxAnt_pos⟩
  length := ⟨by decide, Config.params.maxLen_pos⟩
  rowCount := Config.params.maxRows_pos
  codes := by decide
  oneEach := rfl
  denotes a rec an hr ha := by
    match a, hr, ha with
    | 0, hr, ha =>
      obtain rfl : _ = rec := Option.some.inj hr
      obtain rfl : _ = an := Option.some.inj ha
      refine ⟨by decide, .inl ⟨rfl, rfl⟩, rfl, rfl, Nat.one_pos, rfl, rfl, fun n hn => ?_⟩
      obtain rfl : n = 0 := by simpa using hn
      exact zero_real_sample
    | a + 1, hr, _ => simp at hr

/-- An X and a Y antenna, channel 1 and channel 520, with different delays. -/
noncomputable def twoAntennas : List (Antenna ℝ) :=
  [⟨0, .x, ⟨1, 2, 3, 4⟩, 1, 0, [5, 6, 7]⟩, ⟨519, .y, ⟨0, 0, 0, 0⟩, 2, 15, [1, 2, 3]⟩]

theorem witness_BeamsAreTheWeightedSums : ∀ a ∈ twoAntennas, a.samples.length = 3 ∧ a.coarse < 3 := by simp [twoAntennas]

theorem witness_BeamsDoNotDependOnAntennaOrder :
    (∀ a ∈ twoAntennas, a.samples.length = 3) ∧ twoAntennas.Perm twoAntennas.reverse :=
  ⟨by simp [twoAntennas], (List.reverse_perm _).symm⟩

theorem witness_ZeroRowExcludesTheAntenna :
    (⟨519, .y, ⟨0, 0, 0, 0⟩, 1, 15, [1, 2, 3]⟩ : Antenna ℝ).coarse ≤ maxCoarse (twoAntennas ++ []) := by
  simp [twoAntennas, maxCoarse]

/-- A bank whose every phase is the unit impulse. -/
def impulseBank : Bank :=
  Vector.replicate NCHAN (Vector.replicate NPHASE (Vector.ofFn (fun k => if k.val = 0 then 32767 else 0)))

theorem bankTap_impulse (c : Fin NCHAN) (p : Fin NPHASE) (k : Fin NTAPS) :
    bankTap impulseBank c p k = if k.val = 0 then 32767 else 0 := by
  simp only [impulseBank, bankTap, tapValue, Fin.getElem_fin, Vector.getElem_replicate, Vector.getElem_ofFn]
  split <;> decide

theorem witness_SingleAntennaPassesThrough :
    (519 : Fin NCHAN).val + 1 = (520 : BitVec 16).toNat ∧
    (∀ k : Fin NTAPS, bankTap (State.reset.setBank impulseBank).bank 519 0 k = if k.val = 0 then 32767 else 0) ∧
    1 ≤ (1 : Word).toNat ∧ (1 : Word).toNat ≤ Config.params.maxLen ∧ ([0] : List ℝ).length = (1 : Word).toNat ∧
    (∀ n < (1 : Word).toNat, Config.params.fmt.decR (sampleWords Config.params.fmt.swR (Config.params.fmt.encR 0) n) =
      some (([0] : List ℝ).getD n 0)) := by
  refine ⟨by decide, bankTap_impulse 519 0, by decide, Config.params.maxLen_pos, rfl, fun n hn => ?_⟩
  obtain rfl : n = 0 := by simpa using hn
  exact zero_real_sample

theorem witness_BeamformChecksRaiseInOrder :
    ((0 : Word) = 0 ∨ (1 : Word) = 0) ∧
    ((65537 : Word) ≠ 0 ∧ (1 : Word) ≠ 0 ∧ Config.params.maxAnt < (65537 : Word).toNat) ∧
    ((1 : Word).toNat ≤ Config.params.maxAnt ∧ (1 : Word).toNat ≤ Config.params.maxLen ∧ (1 : Word).toNat ≤ Config.params.maxRows ∧
      [GainRow.mk 0 0 0 32768][0]? = some ⟨0, 0, 0, 32768⟩ ∧ 32767 < (GainRow.mk 0 0 0 32768).yy.toNat) ∧
    ([AntennaRecord.mk 521 0 0 0].map (fun r => firstFailure Config.params.fmt 1 1 [] r 0) = [some .antennaChannel] ∧
      [AntennaRecord.mk 1 2 0 0].map (fun r => firstFailure Config.params.fmt 1 1 [] r 0) = [some .polarization] ∧
      [AntennaRecord.mk 1 1 1 0].map (fun r => firstFailure Config.params.fmt 1 1 [] r 0) = [some .stand] ∧
      [AntennaRecord.mk 1 0 0 0x0010].map (fun r => firstFailure Config.params.fmt 1 1 [] r 0) = [some .coarseDelay] ∧
      [AntennaRecord.mk 1 0 0 0].map (fun r => firstFailure zeroFormat 1 1 [7] r 0) = [some .undecodableSample]) := by
  refine ⟨.inl rfl, ⟨by decide, by decide, ?_⟩, ⟨Config.params.maxAnt_pos, Config.params.maxLen_pos, Config.params.maxRows_pos, rfl, by decide⟩,
    by rfl, by rfl, by rfl, by rfl, by decide⟩
  have := Config.params.maxAnt_le
  show Config.params.maxAnt < 65537
  omega

theorem witness_BeamsAreCleanFromSample31 :
    (∀ a ∈ [(⟨0, .x, ⟨1, 2, 3, 4⟩, 1, 0, List.replicate 33 7⟩ : Antenna ℝ)], a.samples.length = 33 ∧ a.coarse < 33) ∧
    31 < 33 - maxCoarse [(⟨0, .x, ⟨1, 2, 3, 4⟩, 1, 0, List.replicate 33 7⟩ : Antenna ℝ)] := by
  simp [maxCoarse]

theorem witness_BeamformReadsOnlyTheBank : State.reset.bank = tbn7.bank := rfl

theorem witness_DdcResponseWords : ([[1, 0], [0, 0]] : List (List ℂ)).length = 2 ∧
    ∀ y ∈ ([[1, 0], [0, 0]] : List (List ℂ)), y.length = 2 := by simp

theorem witness_BeamformResponseWords : ([1, 2] : List ℝ).length = 2 ∧ ([0, 0] : List ℝ).length = 2 := ⟨rfl, rfl⟩

/-- The per-stream function of a pack that passes its input, on two samples 2 and 0 with tag 0: each minus the mean 1. -/
theorem engineValue_example (tw : BitVec 32) : engineValue passPack tw (fun n => ([0, 0] : List TimeTag).getD n 0) 2
    (fun n => ([2, 0] : List ℂ).getD n 0) 0 = 1 := by
  norm_num [engineValue, firOutValue, cicValue, firValue, dcFreeValue, mixValue, passPack, osc, Finset.sum_range_succ,
    show BitVec.toNat (0 : TimeTag) = 0 from rfl]

/-- A Y antenna on channel 520 with gain 1 into beamY and one sample 7. -/
noncomputable def yAntenna : Antenna ℝ := ⟨519, .y, ⟨0, 0, 0, 32767⟩, 0, 0, [7]⟩

theorem beamYValue_example : beamYValue impulseBank [yAntenna] 0 = 7 := by
  have h : ∀ k : Fin NTAPS, (bankTap impulseBank 519 0 k : ℝ) = if k.val = 0 then 32767 else 0 := fun k => by
    rw [show bankTap impulseBank 519 0 k = if k.val = 0 then 32767 else 0 from bankTap_impulse 519 0 k]
    split <;> simp
  simp [beamYValue, gainValues, yAntenna, streamValue, h]

theorem int_zero : (((0 : Word).toInt : ℤ) : ℝ) = 0 := by rw [show (0 : Word).toInt = 0 from rfl]; simp
theorem int_two : (((2 : Word).toInt : ℤ) : ℝ) = 2 := by rw [show (2 : Word).toInt = 2 from rfl]; simp
theorem int_seven : (((7 : Word).toInt : ℤ) : ℝ) = 7 := by rw [show (7 : Word).toInt = 7 from rfl]; simp

/-- Values the block of `intFormat` reads back: an output 1 of a DDC, and a sample 7 of beamY. -/
theorem witness_HostReadsTheExactSamples :
    (DdcReady (testParams intFormat) (State.reset.setConfig ⟨.drx, 7, 0x40000000⟩) ⟨.drx, 7, 0x40000000⟩ passPack 1 2 [2, 0, 0, 0]
        (fun _ n => ([2, 0] : List ℂ).getD n 0) ∧
      ([0, 0] : List TimeTag).length = (2 : Word).toNat ∧ 0 < (1 : Word).toNat ∧ 0 < outputLength passPack (2 : Word).toNat ∧
      intFormat.KeepsC (engineValue passPack 0x40000000 (fun n => ([0, 0] : List TimeTag).getD n 0) (2 : Word).toNat
        (fun n => ([2, 0] : List ℂ).getD n 0) 0)) ∧
    (BeamformReady (testParams intFormat) 1 1 1 [⟨520, 1, 0, 0⟩] [⟨0, 0, 0, 32767⟩] [7] [yAntenna] ∧
      0 < (1 : Word).toNat - maxCoarse [yAntenna] ∧
      intFormat.KeepsR (beamYValue (State.reset.setBank impulseBank).bank [yAntenna] (0 + maxCoarse [yAntenna]))) := by
  refine ⟨⟨⟨rfl, rfl, by decide, by decide, fun r hr n hn => ?_⟩, rfl, by decide, by decide, ?_⟩,
    ⟨by decide, by decide, by decide, by decide, rfl, fun a rec an hr ha => ?_⟩, Nat.one_pos, ?_⟩
  · obtain rfl : r = 0 := by simpa using hr
    have : n = 0 ∨ n = 1 := by have : n < 2 := hn; omega
    rcases this with rfl | rfl
    · exact congrArg some (Complex.ext int_two int_zero)
    · exact congrArg some (Complex.ext int_zero int_zero)
  · rw [show (2 : Word).toNat = 2 from rfl, engineValue_example]
    exact congrArg some (Complex.ext (by norm_num [intFormat]) (by norm_num [intFormat]))
  · match a, hr, ha with
    | 0, hr, ha =>
      obtain rfl : _ = rec := Option.some.inj hr
      obtain rfl : _ = an := Option.some.inj ha
      refine ⟨rfl, .inr ⟨rfl, rfl⟩, rfl, rfl, Nat.one_pos, rfl, rfl, fun n hn => ?_⟩
      obtain rfl : n = 0 := by simpa using hn
      exact congrArg some int_seven
    | a + 1, hr, _ => simp at hr
  · show intFormat.KeepsR (beamYValue impulseBank [yAntenna] 0)
    rw [beamYValue_example]
    exact congrArg some (by norm_num [show (7#32).toInt = 7 from rfl])

theorem witness_AssembledCommandsAreWellFormed : assemble exactArith exampleParams (.dfirAll [[1, 2], [3, -4]]) =
    some (.dfirAll ⟨2, 2, [1, 2, 3, 0xFFFC]⟩) := by rfl

theorem witness_PseudoOperandsArePackedFields : 1 ≤ (65536 : Nat) ∧ (-2 : Int) < -1 := by decide

end Sys2Proof.Tests
end

section
/-! SUPPORT. The scope rules (R7, R8, R10, R13, R15, R240): what a step and a command answer, which pairs have a filter pack, what
`round` is, and that the canonical form of the evaluable arithmetic is unique. -/

namespace Sys2Proof.Machine

/-! ## One command per step, one response per command (R7, R61, R89, R95) -/

/-- A step whose command port begins with a command's frame is that command, with the frame taken off. -/
theorem step_of_decode_command {s : State} {i : Instr} {rest : List Word}
    (h : decode Config.params.fmt s.commandPort = .command i rest) : step s = exec i (s.consume rest) := by
  simp only [step, fetch, h]

/-- Settles O7: `step` is `fetch`, that is `decode` of the command port, then `exec` on what `consume` leaves. -/
theorem stepRunsTheDecodedCommand : Obligations.StepRunsTheDecodedCommand := fun _ _ _ h => step_of_decode_command h

/-- Settles O10: every effect of a command that ends is one `answered`. -/
theorem oneResponsePerCommand : Obligations.OneResponsePerCommand := by
  intro i s t h
  have effect := exec_effect i s
  rw [h] at effect
  cases effect with
  | raised e => exact ⟨rfl, _, rfl⟩
  | wroteConfig c _ => exact ⟨rfl, _, rfl⟩
  | wroteBank b _ => exact ⟨rfl, _, rfl⟩
  | processed payload _ _ => exact ⟨rfl, _, rfl⟩

/-! ## The filter table (R10, R121, R122) -/

/-- A pair has a pack exactly when the mode supports the filter code. -/
theorem packOf?_isSome_iff {R : Type} (table : FilterTable R) (m : Mode) (f : BitVec 8) :
    (packOf? table m f).isSome = true ↔ validFilter m f = true := by
  cases m with
  | tbn => rw [validFilter_tbn]; unfold packOf?; split_ifs <;> simp_all
  | drx => rw [validFilter_drx]; unfold packOf?; split_ifs <;> simp_all

/-- The pack of TBN with filter code 7 decimates by 1960 (R122). -/
theorem packOf?_tbn_seven_totalD {R : Type} (table : FilterTable R) {pack : FilterPack R}
    (h : packOf? table .tbn 7 = some pack) : pack.totalD = 1960 := by
  obtain rfl : table.tbn7 = pack := Option.some.inj h
  exact table.tbn7_totalD

/-- Settles O35: the pairs by `packOf?_isSome_iff`, the factors by the constraints a pack carries. -/
theorem filterTableHoldsTheSupportedPairs : Obligations.FilterTableHoldsTheSupportedPairs := by
  refine fun p m f => ⟨packOf?_isSome_iff _ m f, fun pack hpack => ⟨pack.cicD_pos, pack.firD_pos, pack.totalD_eq, ?_⟩⟩
  rintro rfl rfl
  exact packOf?_tbn_seven_totalD _ hpack

/-! ## No stop in a valid state (R25, R240) -/

/-- In a state that meets the invariant the configured pair has a pack. -/
theorem packOf?_ne_none_of_inv {R C : Type} {p : Params R C} {s : State} {c : Configuration} (hinv : inv p s = true)
    (hc : s.config = some c) : packOf? p.filterTable c.mode c.filter ≠ none := by
  have hvalid : configOk p s = true := (Bool.and_eq_true_iff.mp hinv).1
  rw [configOk, hc] at hvalid
  have hfilter : validFilter c.mode c.filter = true := (Bool.and_eq_true_iff.mp hvalid).1
  exact Option.isSome_iff_ne_none.mp ((packOf?_isSome_iff _ _ _).mpr hfilter)

/-- Taking words off the command port keeps the invariant. -/
theorem inv_consume {R C : Type} (p : Params R C) (s : State) (rest : List Word) : inv p (s.consume rest) = inv p s := rfl

/-- In a state that meets the invariant every command answers a next state: the one fault needs a pair without a pack. -/
theorem exec_next_of_inv {s : State} (hinv : inv Config.params s = true) (i : Instr) : ∃ t, exec i s = .next t := by
  have effect := exec_effect i s
  generalize exec i s = outcome at effect
  cases effect with
  | raised e => exact ⟨_, rfl⟩
  | wroteConfig c _ => exact ⟨_, rfl⟩
  | wroteBank b _ => exact ⟨_, rfl⟩
  | processed payload _ _ => exact ⟨_, rfl⟩
  | noPack c hc hpack _ => exact absurd hpack (packOf?_ne_none_of_inv hinv hc)

/-- Settles O17: a step waits, rejects a frame or runs a command, and no command stops. -/
theorem validStatesNeverStop : Obligations.ValidStatesNeverStop := by
  refine fun s hinv => ⟨?_, exec_next_of_inv hinv⟩
  rcases step_cases s with ⟨-, hstep⟩ | ⟨k, f, r, -, hstep⟩ | ⟨i, r, -, hstep⟩
  · exact ⟨_, hstep⟩
  · exact ⟨_, hstep⟩
  · rw [hstep]
    exact exec_next_of_inv ((inv_consume _ s r).trans hinv) i

/-! ## Rounding (R13) -/

section Rounding

variable {K : Type} [Field K] [LinearOrder K] [IsStrictOrderedRing K] [FloorRing K]

theorem abs_sub_roundEven_le_half (x : K) : |x - roundEven x| ≤ 1 / 2 := by
  obtain ⟨hlow, hhigh⟩ := roundEven_bounds x
  rw [abs_le]
  constructor <;> linarith

/-- Any other integer is at least a half away, since two integers are at least 1 apart. -/
theorem half_le_abs_sub_of_ne_roundEven {x : K} {n : ℤ} (hn : n ≠ roundEven x) : 1 / 2 ≤ |x - n| := by
  have hapart : (1 : K) ≤ |(n : K) - roundEven x| := by
    exact_mod_cast Int.one_le_abs (sub_ne_zero.mpr hn)
  have htri := abs_sub_le (n : K) x (roundEven x)
  rw [abs_sub_comm (n : K) x] at htri
  linarith [abs_sub_roundEven_le_half x]

omit [IsStrictOrderedRing K] in
/-- Half-way between two integers `round` takes the even one. -/
theorem even_roundEven_of_floor_half {x : K} (h : x - ⌊x⌋ = 1 / 2) : Even (roundEven x) := by
  unfold roundEven
  dsimp only
  rw [h, if_neg (lt_irrefl _), if_neg (lt_irrefl _), Int.even_iff]
  split <;> omega

/-- A value a half away from its rounding is half-way between two integers. -/
theorem sub_floor_eq_half_of_abs_sub_roundEven {x : K} (h : |x - roundEven x| = 1 / 2) : x - ⌊x⌋ = 1 / 2 := by
  rcases roundEven_cases x with ⟨hround, hle⟩ | ⟨hround, hge⟩
  · rwa [hround, abs_of_nonneg (sub_nonneg.mpr (Int.floor_le x))] at h
  · have hlt := Int.lt_floor_add_one x
    rw [hround, abs_sub_comm, Int.cast_add, Int.cast_one, abs_of_pos (sub_pos.mpr hlt)] at h
    linarith

end Rounding

/-- Settles O24: the rounding is within a half and every other integer at least a half away, so a tie is at a half. -/
theorem roundIsNearestTiesToEven : Obligations.RoundIsNearestTiesToEven := by
  refine fun x => ⟨fun n => ?_, fun n hn htie => ?_⟩
  · rcases eq_or_ne n (roundEven x) with rfl | hn
    · exact le_rfl
    · exact (abs_sub_roundEven_le_half x).trans (half_le_abs_sub_of_ne_roundEven hn)
  · have hhalf : |x - roundEven x| = 1 / 2 :=
      le_antisymm (abs_sub_roundEven_le_half x) (htie ▸ half_le_abs_sub_of_ne_roundEven hn)
    exact even_roundEven_of_floor_half (sub_floor_eq_half_of_abs_sub_roundEven hhalf)

/-! ## The canonical form of the evaluable arithmetic (R8, R15)

A canonical value is a rational polynomial of degree below 2^31 in ζ = `osc 1`, and the minimal polynomial of ζ over the rationals,
the 2^32-nd cyclotomic one, has that degree. -/

section Canonical

open Polynomial

/-- The terms as a polynomial in the root of unity. -/
noncomputable def termsPoly (ts : List (Nat × Rat)) : ℚ[X] := (ts.map (fun t => monomial t.1 t.2)).sum

@[simp] theorem termsPoly_nil : termsPoly [] = 0 := rfl

@[simp] theorem termsPoly_cons (e : Nat) (q : Rat) (ts : List (Nat × Rat)) :
    termsPoly ((e, q) :: ts) = monomial e q + termsPoly ts := rfl

theorem canonicalFrom_cons_iff (low e : Nat) (q : Rat) (ts : List (Nat × Rat)) :
    canonicalFrom low ((e, q) :: ts) = true ↔ low ≤ e ∧ e < halfTurn ∧ q ≠ 0 ∧ canonicalFrom (e + 1) ts = true := by
  simp [canonicalFrom, and_assoc]

theorem termsPoly_coeff_eq_zero_of_lt {low n : Nat} {ts : List (Nat × Rat)} (h : canonicalFrom low ts = true) (hn : n < low) :
    (termsPoly ts).coeff n = 0 := by
  induction ts generalizing low with
  | nil => simp
  | cons t ts ih =>
    obtain ⟨hlow, -, -, htail⟩ := (canonicalFrom_cons_iff low t.1 t.2 ts).mp h
    rw [termsPoly_cons, coeff_add, coeff_monomial_of_ne _ (by omega), ih htail (by omega), add_zero]

theorem termsPoly_degree_lt {low : Nat} {ts : List (Nat × Rat)} (h : canonicalFrom low ts = true) :
    (termsPoly ts).degree < halfTurn := by
  induction ts generalizing low with
  | nil => simp
  | cons t ts ih =>
    obtain ⟨-, hhalf, -, htail⟩ := (canonicalFrom_cons_iff low t.1 t.2 ts).mp h
    have hhead : (monomial t.1 t.2).degree < halfTurn := (degree_monomial_le _ _).trans_lt (by exact_mod_cast hhalf)
    exact (degree_add_le _ _).trans_lt (max_lt hhead (ih htail))

/-- The first term of a canonical list is its lowest coefficient. -/
theorem termsPoly_coeff_head {low e : Nat} {q : Rat} {ts : List (Nat × Rat)} (h : canonicalFrom low ((e, q) :: ts) = true) :
    (termsPoly ((e, q) :: ts)).coeff e = q := by
  obtain ⟨-, -, -, htail⟩ := (canonicalFrom_cons_iff low e q ts).mp h
  rw [termsPoly_cons, coeff_add, coeff_monomial_same, termsPoly_coeff_eq_zero_of_lt htail e.lt_succ_self, add_zero]

/-- Where two canonical lists are one polynomial, no first term lies below every exponent of the other list. -/
theorem not_canonicalFrom_of_termsPoly_eq {low low' e : Nat} {q : Rat} {ts us : List (Nat × Rat)}
    (h : canonicalFrom low ((e, q) :: ts) = true) (heq : termsPoly ((e, q) :: ts) = termsPoly us) (he : e < low') :
    canonicalFrom low' us ≠ true := by
  intro h'
  obtain ⟨-, -, hq, -⟩ := (canonicalFrom_cons_iff low e q ts).mp h
  apply hq
  rw [← termsPoly_coeff_head h, heq, termsPoly_coeff_eq_zero_of_lt h' he]

/-- Canonical lists of one polynomial are the same list. -/
theorem termsPoly_injective {low low' : Nat} {ts us : List (Nat × Rat)} (h : canonicalFrom low ts = true)
    (h' : canonicalFrom low' us = true) (heq : termsPoly ts = termsPoly us) : ts = us := by
  induction ts generalizing low low' us with
  | nil =>
    cases us with
    | nil => rfl
    | cons u us => exact absurd rfl (not_canonicalFrom_of_termsPoly_eq (low' := u.1 + 1) h' heq.symm (Nat.lt_succ_self _))
  | cons t ts ih =>
    obtain ⟨e, q⟩ := t
    cases us with
    | nil => exact absurd rfl (not_canonicalFrom_of_termsPoly_eq (low' := e + 1) h heq (Nat.lt_succ_self _))
    | cons u us =>
      obtain ⟨e', q'⟩ := u
      obtain ⟨-, hhalf, hq, htail⟩ := (canonicalFrom_cons_iff low e q ts).mp h
      obtain ⟨-, hhalf', hq', htail'⟩ := (canonicalFrom_cons_iff low' e' q' us).mp h'
      have hle : e' ≤ e := not_lt.mp fun hlt => not_canonicalFrom_of_termsPoly_eq h heq hlt
        ((canonicalFrom_cons_iff e' e' q' us).mpr ⟨le_rfl, hhalf', hq', htail'⟩)
      have hge : e ≤ e' := not_lt.mp fun hlt => not_canonicalFrom_of_termsPoly_eq h' heq.symm hlt
        ((canonicalFrom_cons_iff e e q ts).mpr ⟨le_rfl, hhalf, hq, htail⟩)
      obtain rfl : e = e' := le_antisymm hge hle
      obtain rfl : q = q' := by rw [← termsPoly_coeff_head h, heq, termsPoly_coeff_head h']
      rw [ih htail htail' (add_left_cancel heq)]

theorem osc_eq_pow (k : Nat) : osc k = osc 1 ^ k := by
  rw [osc, osc, ← Complex.exp_nat_mul]
  push_cast
  ring_nf

/-- ζ is a primitive 2^32-nd root of unity. -/
theorem osc_one_isPrimitiveRoot : IsPrimitiveRoot (osc 1) fullTurn := by
  have hinv : osc 1 = (Complex.exp (2 * Real.pi * Complex.I / fullTurn))⁻¹ := by
    rw [osc, ← Complex.exp_neg]
    push_cast [fullTurn]
    ring_nf
  rw [hinv]
  exact (Complex.isPrimitiveRoot_exp fullTurn (by decide)).inv

theorem minpoly_osc_one_degree : (minpoly ℚ (osc 1)).degree = halfTurn := by
  rw [← cyclotomic_eq_minpoly_rat osc_one_isPrimitiveRoot (by decide), degree_cyclotomic, fullTurn,
    Nat.totient_prime_pow Nat.prime_two (by decide)]
  rfl

theorem cycValue_eq_aeval (a : Cyc) : cycValue a = aeval (osc 1) (termsPoly a.terms) := by
  rw [cycValue, termsPoly, map_list_sum, List.map_map]
  congr 1
  refine List.map_congr_left fun t _ => ?_
  rw [Function.comp_apply, aeval_monomial, ← osc_eq_pow]
  rfl

/-- Rational polynomials of degree below 2^31 with one value at ζ are equal. -/
theorem poly_eq_of_aeval_osc_one_eq {f g : ℚ[X]} (hf : f.degree < halfTurn) (hg : g.degree < halfTurn)
    (h : aeval (osc 1) f = aeval (osc 1) g) : f = g := by
  have hdvd : minpoly ℚ (osc 1) ∣ f - g := minpoly.dvd _ _ (by rw [map_sub, h, sub_self])
  have hdeg : (f - g).degree < (minpoly ℚ (osc 1)).degree := by
    rw [minpoly_osc_one_degree]
    exact (degree_sub_le f g).trans_lt (max_lt hf hg)
  exact sub_eq_zero.mp (eq_zero_of_dvd_of_degree_lt hdvd hdeg)

/-- Settles O41: one number at ζ means one polynomial, and a canonical list is read off its polynomial. -/
theorem canonicalValuesAreEqualOnlyIfIdentical : Obligations.CanonicalValuesAreEqualOnlyIfIdentical := by
  rintro ⟨ts⟩ ⟨us⟩ ha hb hvalue
  rw [cycValue_eq_aeval, cycValue_eq_aeval] at hvalue
  have hpoly := poly_eq_of_aeval_osc_one_eq (termsPoly_degree_lt ha) (termsPoly_degree_lt hb) hvalue
  exact congrArg Cyc.mk (termsPoly_injective ha hb hpoly)

end Canonical

end Sys2Proof.Machine
end

section
/-! SUPPORT. Decoding (R95, R97): what it takes for words to decode to a command, and that such a command is well formed. -/

namespace Sys2Proof

/-! ## Words and lengths of a frame (R97) -/

theorem wordAt_take {ws : List Word} {n k : Nat} (hk : k < n) : wordAt (ws.take n) k = wordAt ws k := by
  simp [wordAt, List.getElem?_take_of_lt hk]

theorem wordAt_of_getElem? {ws : List Word} {k : Nat} {w : Word} (h : ws[k]? = some w) : wordAt ws k = w := by
  simp [wordAt, h]

theorem frameLength?_ddc {R C : Type} {fmt : SampleFormat R C} {ws : List Word} {n : Nat}
    (h : frameLength? fmt ws = some n) (hop : opcodeOf? (wordAt ws 0) = some .ddc) :
    n = 3 + 2 * (wordAt ws 2).toNat + fmt.swC * ((wordAt ws 1).toNat * (wordAt ws 2).toNat) := by
  unfold frameLength? at h
  split at h
  · cases h
  · rename_i hd hhd
    rw [wordAt_of_getElem? hhd] at hop
    simp only [hop] at h
    split at h
    · rename_i s l hs hl
      rw [wordAt_of_getElem? hs, wordAt_of_getElem? hl]
      exact (Option.some.inj h).symm
    · cases h

theorem frameLength?_beamform {R C : Type} {fmt : SampleFormat R C} {ws : List Word} {n : Nat}
    (h : frameLength? fmt ws = some n) (hop : opcodeOf? (wordAt ws 0) = some .beamform) :
    n = 4 + 2 * (wordAt ws 1).toNat + 2 * (wordAt ws 3).toNat + fmt.swR * ((wordAt ws 1).toNat * (wordAt ws 2).toNat) := by
  unfold frameLength? at h
  split at h
  · cases h
  · rename_i hd hhd
    rw [wordAt_of_getElem? hhd] at hop
    simp only [hop] at h
    split at h
    · rename_i a l g ha hl hg
      rw [wordAt_of_getElem? ha, wordAt_of_getElem? hl, wordAt_of_getElem? hg]
      exact (Option.some.inj h).symm
    · cases h

theorem frameLength?_pos {R C : Type} {fmt : SampleFormat R C} {ws : List Word} {n : Nat} (h : frameLength? fmt ws = some n) :
    0 < n := by
  refine Nat.pos_of_ne_zero fun hzero => ?_
  subst hzero
  unfold frameLength? at h
  repeat' split at h
  all_goals simp at h

/-! ## What decodes to a command (R95) -/

theorem readBlock_wf (frame : List Word) : (readBlock frame).wf = true := by
  simp [TapBlock.wf, readBlock, TapBlock.count, tapCount]

/-- A complete frame's command is well formed (R77, R79, R81, R97). -/
theorem readCommand_wf {R C : Type} {fmt : SampleFormat R C} {op : Opcode} {ws : List Word} {n : Nat}
    (hlen : frameLength? fmt ws = some n) (hop : opcodeOf? (wordAt ws 0) = some op) (hn : n ≤ ws.length) :
    (readCommand op (ws.take n)).wf fmt = true := by
  cases op with
  | configure => rfl
  | setMode => rfl
  | setFilter => rfl
  | setCfreq => rfl
  | dfirCh => exact readBlock_wf _
  | dfirAll => exact readBlock_wf _
  | dfirReset => rfl
  | ddc =>
    have hlength := frameLength?_ddc hlen hop
    have h1 : wordAt (ws.take n) 1 = wordAt ws 1 := wordAt_take (by omega)
    have h2 : wordAt (ws.take n) 2 = wordAt ws 2 := wordAt_take (by omega)
    simp only [readCommand, Instr.wf, h1, h2, List.length_map, List.length_range, List.length_drop, List.length_take,
      Bool.and_eq_true, beq_iff_eq, true_and]
    omega
  | beamform =>
    have hlength := frameLength?_beamform hlen hop
    have h1 : wordAt (ws.take n) 1 = wordAt ws 1 := wordAt_take (by omega)
    have h2 : wordAt (ws.take n) 2 = wordAt ws 2 := wordAt_take (by omega)
    have h3 : wordAt (ws.take n) 3 = wordAt ws 3 := wordAt_take (by omega)
    simp only [readCommand, Instr.wf, h1, h2, h3, List.length_map, List.length_range, List.length_drop, List.length_take,
      Bool.and_eq_true, beq_iff_eq, true_and]
    omega

/-- What it takes for words to decode to a command (R95). -/
theorem decode_eq_command {R C : Type} {fmt : SampleFormat R C} {ws rest : List Word} {i : Instr}
    (h : decode fmt ws = .command i rest) :
    ∃ n op, frameLength? fmt ws = some n ∧ n ≤ ws.length ∧ opcodeOf? (wordAt ws 0) = some op ∧
      reservedIndex? op (ws.take n) = none ∧ i = readCommand op (ws.take n) ∧ rest = ws.drop n := by
  unfold decode at h
  split at h
  · cases h
  · rename_i n hn
    split at h
    · cases h
    · rename_i hle
      unfold decodeFrame at h
      rw [wordAt_take (frameLength?_pos hn)] at h
      split at h
      · cases h
      · rename_i op hop
        split at h
        · cases h
        · rename_i hreserved
          cases h
          exact ⟨n, op, hn, not_lt.mp hle, hop, hreserved, rfl, rfl⟩

theorem decode_command_wf {R C : Type} {fmt : SampleFormat R C} {ws rest : List Word} {i : Instr}
    (h : decode fmt ws = .command i rest) : i.wf fmt = true := by
  obtain ⟨n, op, hlen, hle, hop, -, rfl, -⟩ := decode_eq_command h
  exact readCommand_wf hlen hop hle

end Sys2Proof
end

section
/-! SUPPORT. What every step keeps: which commands write `BANK` and the configuration (R21, R27), and the invariant (R25, R90, R91,
R223), one lemma per command. -/

namespace Sys2Proof.Machine

/-! ## What a command leaves unchanged (R27, R206) -/

theorem exec_bank_eq {i : Instr} {s t : State} (hi : writesBank i = false) (h : exec i s = .next t) : t.bank = s.bank := by
  have effect := exec_effect i s
  rw [h] at effect
  cases effect with
  | raised e => rfl
  | wroteConfig c _ => rfl
  | wroteBank b hwrites => rw [hi] at hwrites; cases hwrites
  | processed payload _ _ => rfl

theorem exec_config_eq {i : Instr} {s t : State} (hi : writesConfig i = false) (h : exec i s = .next t) : t.config = s.config := by
  have effect := exec_effect i s
  rw [h] at effect
  cases effect with
  | raised e => rfl
  | wroteConfig c hwrites => rw [hi] at hwrites; cases hwrites
  | wroteBank b _ => rfl
  | processed payload _ _ => rfl

/-- Where a step leads (R95): to the same state, past a rejected frame, or to where the decoded command leads. -/
theorem step_next_cases {s t : State} (h : step s = .next t) :
    t = s ∨ (∃ k f r, t = rejectFrame k f r s) ∨
      ∃ i r, decode Config.params.fmt s.commandPort = .command i r ∧ exec i (s.consume r) = .next t := by
  rcases step_cases s with ⟨-, hstep⟩ | ⟨k, f, r, -, hstep⟩ | ⟨i, r, hdecode, hstep⟩
  · cases hstep.symm.trans h
    exact .inl rfl
  · cases hstep.symm.trans h
    exact .inr (.inl ⟨k, f, r, rfl⟩)
  · exact .inr (.inr ⟨i, r, hdecode, hstep.symm.trans h⟩)

/-- Settles O13: a command that is not one of the three leaves `BANK` as it was. -/
theorem onlyDfirCommandsWriteTheBank : Obligations.OnlyDfirCommandsWriteTheBank := by
  intro s t hstep hne
  obtain rfl | ⟨k, f, r, rfl⟩ | ⟨i, r, hdecode, hexec⟩ := step_next_cases hstep
  · exact absurd rfl hne
  · exact absurd (rejectFrame_bank k f r s) hne
  · refine ⟨i, r, hdecode, ?_⟩
    by_contra hwrites
    exact hne (exec_bank_eq (s := s.consume r) (Bool.eq_false_iff.mpr hwrites) hexec)

/-! ## CONFIGURED (R21) -/

theorem configured_eq_false_iff (s : State) : s.configured = false ↔ s.config = none :=
  Option.isSome_eq_false_iff.trans Option.isNone_iff_eq_none

/-- No command clears `CONFIGURED`. -/
theorem exec_keeps_configured {i : Instr} {s t : State} (hs : s.configured = true) (h : exec i s = .next t) :
    t.configured = true := by
  have effect := exec_effect i s
  rw [h] at effect
  cases effect with
  | raised e => exact hs
  | wroteConfig c _ => rfl
  | wroteBank b _ => exact hs
  | processed payload _ _ => exact hs

/-- In an unconfigured block every command but CONFIGURE leaves the configuration as it was: the other three setters raise
(R201 to R203). -/
theorem exec_unconfigured {i : Instr} {s t : State} (hs : s.config = none) (hi : ∀ m f tw, i ≠ .configure m f tw)
    (h : exec i s = .next t) : t.config = s.config := by
  cases i with
  | configure m f tw => exact absurd rfl (hi m f tw)
  | setMode m =>
    rw [exec, execSetMode, setMode, hs] at h
    cases h
    rfl
  | setFilter f =>
    rw [exec, execSetFilter, setFilter, hs] at h
    cases h
    rfl
  | setCfreq tw =>
    rw [exec, execSetCfreq, setCfreq, hs] at h
    cases h
    rfl
  | dfirCh c block => exact exec_config_eq rfl h
  | dfirAll block => exact exec_config_eq rfl h
  | dfirReset => exact exec_config_eq rfl h
  | ddc count len tags samples => exact exec_config_eq rfl h
  | beamform ants len nrows records rows samples => exact exec_config_eq rfl h

theorem step_keeps_configured {s t : State} (hs : s.configured = true) (h : step s = .next t) : t.configured = true := by
  obtain rfl | ⟨k, f, r, rfl⟩ | ⟨i, r, -, hexec⟩ := step_next_cases h
  · exact hs
  · exact hs
  · exact exec_keeps_configured (s := s.consume r) hs hexec

/-- A step that sets `CONFIGURED` ran a CONFIGURE. -/
theorem step_sets_configured {s t : State} (hs : s.configured = false) (ht : t.configured = true) (h : step s = .next t) :
    ∃ m f tw r, decode Config.params.fmt s.commandPort = .command (.configure m f tw) r := by
  have hne : t.config ≠ s.config := fun heq => by
    rw [State.configured, heq] at ht
    exact Bool.false_ne_true (hs.symm.trans ht)
  obtain rfl | ⟨k, f, r, rfl⟩ | ⟨i, r, hdecode, hexec⟩ := step_next_cases h
  · exact absurd rfl hne
  · exact absurd (rejectFrame_config k f r s) hne
  · by_contra hconfigure
    refine hne (exec_unconfigured (s := s.consume r) ((configured_eq_false_iff s).mp hs) (fun m f tw hi => ?_) hexec)
    exact hconfigure ⟨m, f, tw, r, hi ▸ hdecode⟩

/-- Settles O14: no command clears the configuration, and in an unconfigured block only CONFIGURE writes one. -/
theorem configuredIsSetByConfigureAndNeverCleared : Obligations.ConfiguredIsSetByConfigureAndNeverCleared :=
  fun _ _ hstep => ⟨fun hs => step_keeps_configured hs hstep, fun hs ht => step_sets_configured hs ht hstep⟩

/-! ## The writes of a command and the invariant -/

section Writes

variable {R C : Type} {p : Params R C} {s : State}

theorem inv_iff : inv p s = true ↔ configOk p s = true ∧ ∀ r ∈ s.responsePort, responseOk p r = true := by
  rw [inv, Bool.and_eq_true, List.all_eq_true]

/-- The configuration of a state that meets the invariant has a valid filter code and a valid tuning word (R25). -/
theorem valid_of_inv {c : Configuration} (hinv : inv p s = true) (hc : s.config = some c) :
    validFilter c.mode c.filter = true ∧ validTW p c.tw = true := by
  have hconfig := (inv_iff.mp hinv).1
  rw [configOk, hc] at hconfig
  exact Bool.and_eq_true_iff.mp hconfig

/-- A response that counts its payload keeps the invariant. -/
theorem inv_answered {r : Response} (hinv : inv p s = true) (hr : responseOk p r = true) : inv p (answered s r) = true := by
  obtain ⟨hconfig, hport⟩ := inv_iff.mp hinv
  refine inv_iff.mpr ⟨hconfig, fun r' hr' => ?_⟩
  rcases List.mem_append.mp hr' with hold | hnew
  · exact hport r' hold
  · rwa [List.mem_singleton.mp hnew]

theorem inv_raise {e : CommandError} (hinv : inv p s = true) (he : responseOk p (.error e) = true) : inv p (s.raise e) = true :=
  inv_answered hinv he

theorem inv_respond {payload : Payload} (hinv : inv p s = true) (hpayload : responseOk p (.ok payload) = true) :
    inv p (s.respond payload) = true := inv_answered hinv hpayload

theorem inv_setConfig {c : Configuration} (hinv : inv p s = true) (hc : validConfig p c = true) : inv p (s.setConfig c) = true :=
  inv_iff.mpr ⟨hc, (inv_iff.mp hinv).2⟩

theorem inv_setBank (b : Bank) : inv p (s.setBank b) = inv p s := rfl

/-- A valid filter code and a valid tuning word, written and answered, keep the invariant (R25, R205). -/
theorem inv_respond_setConfig {c : Configuration} (hinv : inv p s = true) (hfilter : validFilter c.mode c.filter = true)
    (htw : validTW p c.tw = true) : inv p ((s.setConfig c).respond .empty) = true :=
  inv_respond (inv_setConfig hinv (Bool.and_eq_true_iff.mpr ⟨hfilter, htw⟩)) rfl

/-- A written bank, answered, keeps the invariant. -/
theorem inv_respond_setBank (b : Bank) (hinv : inv p s = true) : inv p ((s.setBank b).respond .empty) = true :=
  inv_respond ((inv_setBank b).trans hinv) rfl

end Writes

/-! ## CONFIGURE and the three setters (R25, R205) -/

section Setters

variable {R C : Type} {p : Params R C} {s : State} (hinv : inv p s = true)

include hinv

theorem inv_configure (m f : BitVec 8) (tw : Word) : inv p (configure p m f tw s) = true := by
  unfold configure
  split
  · exact inv_raise hinv rfl
  · split
    · exact inv_raise hinv rfl
    · rename_i hfilter
      split
      · exact inv_raise hinv rfl
      · rename_i htw
        exact inv_respond_setConfig hinv (by simpa using hfilter) (by simpa using htw)

theorem inv_setMode (m : BitVec 8) : inv p (setMode m s) = true := by
  unfold setMode
  split
  · exact inv_raise hinv rfl
  · rename_i c hc
    obtain ⟨-, htw⟩ := valid_of_inv hinv hc
    split
    · exact inv_raise hinv rfl
    · split
      · exact inv_raise hinv rfl
      · rename_i hfilter
        exact inv_respond_setConfig hinv (by simpa using hfilter) htw

theorem inv_setFilter (f : BitVec 8) : inv p (setFilter f s) = true := by
  unfold setFilter
  split
  · exact inv_raise hinv rfl
  · rename_i c hc
    obtain ⟨-, htw⟩ := valid_of_inv hinv hc
    split
    · exact inv_raise hinv rfl
    · rename_i hfilter
      exact inv_respond_setConfig hinv (by simpa using hfilter) htw

theorem inv_setCfreq (tw : Word) : inv p (setCfreq p tw s) = true := by
  unfold setCfreq
  split
  · exact inv_raise hinv rfl
  · rename_i c hc
    obtain ⟨hfilter, -⟩ := valid_of_inv hinv hc
    split
    · exact inv_raise hinv rfl
    · rename_i htw
      exact inv_respond_setConfig hinv hfilter (by simpa using htw)

end Setters

/-! ## The delay-FIR commands (R128) -/

section BankWrites

variable {R C : Type} {p : Params R C} {s : State} (hinv : inv p s = true)

include hinv

theorem inv_dfirCh (c : BitVec 16) (block : TapBlock) : inv p (dfirCh c block s) = true := by
  unfold dfirCh
  split
  · exact inv_raise hinv rfl
  · split
    · exact inv_raise hinv rfl
    · exact inv_respond_setBank _ hinv

theorem inv_dfirAll (block : TapBlock) : inv p (dfirAll block s) = true := by
  unfold dfirAll
  split
  · exact inv_raise hinv rfl
  · exact inv_respond_setBank _ hinv

theorem inv_dfirReset : inv p (dfirReset p s) = true := inv_respond_setBank _ hinv

end BankWrites

/-! ## Lists of checks (R228) -/

theorem mem_of_collect_ok {ε α : Type} {xs : List (Except ε α)} {as : List α} (h : collect xs = .ok as) {a : α} (ha : a ∈ as) :
    Except.ok a ∈ xs := by
  rw [(collect_eq_ok_iff xs as).mp h]
  exact List.mem_map_of_mem ha

/-- A failing list of checks fails with the error of one of its items, at that item's index. -/
theorem collect_zipIdx_error {ε α β : Type} {check : α → Nat → Except ε β} {xs : List α} {e : ε}
    (h : collect (xs.zipIdx.map (fun xi => check xi.1 xi.2)) = .error e) :
    ∃ n x, n < xs.length ∧ check x n = .error e := by
  obtain ⟨n, hn, -⟩ := (collect_eq_error_iff _ _).mp h
  obtain ⟨hlt, hget⟩ := List.getElem?_eq_some_iff.mp hn
  simp only [List.getElem_map, List.getElem_zipIdx, Nat.zero_add, List.length_map, List.length_zipIdx] at hlt hget
  exact ⟨n, xs[n], hlt, hget⟩

/-! ## DDC: its streams and their lengths (R90, R148, R149) -/

theorem ceilDiv_pos {a b : Nat} (ha : 1 ≤ a) (hb : 1 ≤ b) : 1 ≤ ceilDiv a b :=
  (Nat.one_le_div_iff hb).mpr (by omega)

theorem outputLength_pos {R : Type} (pack : FilterPack R) {len : Nat} (hlen : 1 ≤ len) : 1 ≤ outputLength pack len :=
  ceilDiv_pos (ceilDiv_pos hlen pack.cicD_pos) pack.firD_pos

theorem flatMap_length_of_const {α β : Type} {f : α → List β} {k : Nat} (h : ∀ a, (f a).length = k) (xs : List α) :
    (xs.flatMap f).length = xs.length * k := by
  simp [List.length_flatMap, h]

theorem engine_length {R C : Type} (A : Arith R C) (pack : FilterPack R) (tw : BitVec 32) {tags : List TimeTag} {x : List C}
    (h : tags.length = x.length) : (engine A pack tw tags x).length = outputLength pack x.length := by
  simp [engine, firStage, cicStage, removeDc, mix, outputLength, h]

section Ddc

variable {R C : Type} {fmt : SampleFormat R C} {samples : List Word} {count len : Nat}

theorem readComplexStream_length {r : Nat} {x : List C} (h : readComplexStream fmt samples len r = some x) : x.length = len := by
  simpa using allSome_length _ _ h

theorem readStreams_error {e : CommandError} (h : readStreams fmt samples count len = .error e) :
    ∃ r < count, e = .processingFailure .undecodableSample r := by
  obtain ⟨r, hr, -⟩ := (collect_eq_error_iff _ _).mp h
  obtain ⟨hlt, hget⟩ := List.getElem?_eq_some_iff.mp hr
  simp only [List.getElem_map, List.getElem_range, List.length_map, List.length_range] at hlt hget
  refine ⟨r, hlt, ?_⟩
  split at hget
  · exact (Except.error.inj hget).symm
  · cases hget

theorem readStreams_ok {xs : List (List C)} (h : readStreams fmt samples count len = .ok xs) :
    xs.length = count ∧ ∀ x ∈ xs, x.length = len := by
  have hmap := (collect_eq_ok_iff _ _).mp h
  refine ⟨by simpa using (congrArg List.length hmap).symm, fun x hx => ?_⟩
  obtain ⟨r, -, hr⟩ := List.mem_map.mp (mem_of_collect_ok h hx)
  split at hr
  · cases hr
  · rename_i x' hread
    cases hr
    exact readComplexStream_length hread

end Ddc

theorem responseOk_failure {R C : Type} (p : Params R C) (reason : FailureReason) {item bound : Nat} (hitem : item < bound)
    (hbound : bound ≤ 65536) : responseOk p (.error (.processingFailure reason item)) = true :=
  decide_eq_true (hitem.trans_le hbound)

theorem responseOk_streams {R C : Type} {p : Params R C} {count lout : Nat} {ys : List (List C)}
    (hcount : 1 ≤ count ∧ count ≤ p.maxStreams) (hlout : 1 ≤ lout) (hys : ys.length = count) (hlen : ∀ y ∈ ys, y.length = lout) :
    responseOk p (.ok (streamsPayload p.fmt count lout ys)) = true := by
  simp only [responseOk, streamsPayload, Bool.and_eq_true, decide_eq_true_eq, beq_iff_eq, List.length_map, List.all_map,
    List.all_eq_true, Function.comp_apply]
  exact ⟨⟨⟨hcount.1, hcount.2, hlout⟩, hys⟩, fun y hy => by rw [flatMap_length_of_const p.fmt.encC_length, hlen y hy]⟩

theorem inv_ddcResult {R C : Type} (A : Arith R C) {p : Params R C} {pack : FilterPack R} {tw : BitVec 32} {count len : Nat}
    {tags : List TimeTag} {xs : List (List C)} {s : State} (hinv : inv p s = true) (hcount : 1 ≤ count ∧ count ≤ p.maxStreams)
    (hlen : 1 ≤ len) (htags : tags.length = len) (hxs : xs.length = count) (hx : ∀ x ∈ xs, x.length = len) :
    inv p (ddcResult A p pack tw count len tags xs s) = true := by
  unfold ddcResult
  split
  · exact inv_raise hinv rfl
  · refine inv_respond hinv (responseOk_streams hcount (outputLength_pos pack hlen) (by rw [List.length_map, hxs]) fun y hy => ?_)
    obtain ⟨x, hmem, rfl⟩ := List.mem_map.mp hy
    rw [engine_length A pack tw (htags.trans (hx x hmem).symm), hx x hmem]

/-- A count word that is not 0 is at least 1. -/
theorem one_le_toNat {w : Word} (h : w ≠ 0) : 1 ≤ w.toNat :=
  Nat.one_le_iff_ne_zero.mpr fun hzero => h (BitVec.eq_of_toNat_eq hzero)

theorem inv_ddc {R C : Type} (A : Arith R C) {p : Params R C} {count len : Word} {tags : List TimeTag} {samples : List Word}
    {s t : State} (hinv : inv p s = true) (htags : tags.length = len.toNat) (h : ddc A p count len tags samples s = .next t) :
    inv p t = true := by
  unfold ddc at h
  split at h
  · cases h
    exact inv_raise hinv rfl
  · split at h
    · cases h
      exact inv_raise hinv rfl
    · rename_i hnonempty
      split at h
      · cases h
        exact inv_raise hinv rfl
      · rename_i hlimits
        obtain ⟨hcount, hlen⟩ := not_or.mp hnonempty
        obtain ⟨hmaxStreams, -⟩ := not_or.mp hlimits
        have hstreams : 1 ≤ count.toNat ∧ count.toNat ≤ p.maxStreams := ⟨one_le_toNat hcount, not_lt.mp hmaxStreams⟩
        split at h
        · rename_i e herror
          cases h
          obtain ⟨r, hr, rfl⟩ := readStreams_error herror
          exact inv_raise hinv (responseOk_failure p _ hr (hstreams.2.trans p.maxStreams_le))
        · rename_i xs hok
          obtain ⟨hxs, hx⟩ := readStreams_ok hok
          split at h
          · cases h
          · cases h
            exact inv_ddcResult A hinv hstreams (one_le_toNat hlen) htags hxs hx

/-! ## BEAMFORM: its checks and its beams (R91, R176, R179) -/

section Beams

variable {R C : Type} (A : Arith R C)

/-- What an antenna's last two checks (R179) give of its delay and its samples. -/
def FitsLength (len : Nat) (a : Antenna R) : Prop := a.coarse < len ∧ a.samples.length = len

@[simp] theorem antennaStream_length (bank : Bank) (a : Antenna R) : (antennaStream A bank a).length = a.samples.length := by
  simp [antennaStream, coarseShift]

theorem accumulate_length (gain : Rat) {v sum : List R} (h : v.length = sum.length) :
    (accumulate A gain v sum).length = sum.length := by
  simp [accumulate, h]

theorem addAntenna_length {bank : Bank} {b : Beams R} {a : Antenna R} {len : Nat} (hx : b.x.length = len) (hy : b.y.length = len)
    (ha : a.samples.length = len) :
    (addAntenna A bank b a).x.length = len ∧ (addAntenna A bank b a).y.length = len := by
  unfold addAntenna
  split
  · exact ⟨hx, hy⟩
  · have hv : (antennaStream A bank a).length = len := (antennaStream_length A bank a).trans ha
    exact ⟨(accumulate_length A _ (hv.trans hx.symm)).trans hx, (accumulate_length A _ (hv.trans hy.symm)).trans hy⟩

theorem foldl_addAntenna_length {bank : Bank} {as : List (Antenna R)} {len : Nat} (has : ∀ a ∈ as, a.samples.length = len)
    {b : Beams R} (hx : b.x.length = len) (hy : b.y.length = len) :
    (as.foldl (addAntenna A bank) b).x.length = len ∧ (as.foldl (addAntenna A bank) b).y.length = len := by
  induction as generalizing b with
  | nil => exact ⟨hx, hy⟩
  | cons a as ih =>
    obtain ⟨hx', hy'⟩ := addAntenna_length A (bank := bank) hx hy (has a List.mem_cons_self)
    exact ih (fun a' ha' => has a' (List.mem_cons_of_mem a ha')) hx' hy'

/-- Both beams have `L - Dmax` samples (R176). -/
theorem beamsOf_length {bank : Bank} {as : List (Antenna R)} {len : Nat} (has : ∀ a ∈ as, a.samples.length = len) :
    (beamsOf A bank len as).x.length = len - maxCoarse as ∧ (beamsOf A bank len as).y.length = len - maxCoarse as := by
  obtain ⟨hx, hy⟩ := foldl_addAntenna_length A (bank := bank) has
    (b := ⟨List.replicate len A.real.zero, List.replicate len A.real.zero⟩) List.length_replicate List.length_replicate
  simp only [beamsOf, sumAntennas, List.length_drop, hx, hy, and_self]

theorem maxCoarse_lt {as : List (Antenna R)} {len : Nat} (hlen : 1 ≤ len) (has : ∀ a ∈ as, a.coarse < len) :
    maxCoarse as < len := by
  induction as with
  | nil => exact hlen
  | cons a as ih => exact max_lt (has a List.mem_cons_self) (ih fun a' ha' => has a' (List.mem_cons_of_mem a ha'))

theorem responseOk_beams {p : Params R C} {lout : Nat} {b : Beams R} (hlout : 1 ≤ lout) (hx : b.x.length = lout)
    (hy : b.y.length = lout) : responseOk p (.ok (beamsPayload p.fmt lout b)) = true := by
  simp only [responseOk, beamsPayload, flatMap_length_of_const p.fmt.encR_length, hx, hy, beq_self_eq_true, Bool.and_true,
    decide_eq_true hlout]

end Beams

section Checks

variable {R C : Type} {fmt : SampleFormat R C} {len : Nat} {rows : List GainRow} {samples : List Word}

theorem checkRow_error {row : GainRow} {g : Nat} {e : CommandError} (h : checkRow row g = .error e) :
    e = .processingFailure .gainCode g := by
  unfold checkRow at h
  split at h
  · exact (Except.error.inj h).symm
  · cases h

theorem checkAntenna_error {rec : AntennaRecord} {a : Nat} {e : CommandError}
    (h : checkAntenna fmt len rows samples rec a = .error e) : ∃ reason, e = .processingFailure reason a := by
  unfold checkAntenna at h
  repeat' split at h
  all_goals cases h
  all_goals exact ⟨_, rfl⟩

theorem readRealStream_length {a : Nat} {x : List R} (h : readRealStream fmt samples len a = some x) : x.length = len := by
  simpa using allSome_length _ _ h

theorem checkAntenna_ok {rec : AntennaRecord} {a : Nat} {an : Antenna R}
    (h : checkAntenna fmt len rows samples rec a = .ok an) : FitsLength len an := by
  unfold checkAntenna at h
  split at h
  · cases h
  · split at h
    · cases h
    · split at h
      · cases h
      · split at h
        · cases h
        · rename_i hcoarse
          split at h
          · cases h
          · rename_i x hread
            cases h
            exact ⟨not_le.mp hcoarse, readRealStream_length hread⟩

theorem checkAntennas_ok {records : List AntennaRecord} {as : List (Antenna R)}
    (h : checkAntennas fmt len rows samples records = .ok as) : ∀ a ∈ as, FitsLength len a := by
  intro a ha
  obtain ⟨_, -, hcheck⟩ := List.mem_map.mp (mem_of_collect_ok h ha)
  exact checkAntenna_ok hcheck

end Checks

theorem validate_error {R C : Type} {p : Params R C} {ants len nrows : Word} {records : List AntennaRecord} {rows : List GainRow}
    {samples : List Word} (hrecords : records.length = ants.toNat) (hrows : rows.length = nrows.toNat) {e : CommandError}
    (h : validate p ants len nrows records rows samples = .error e) : responseOk p (.error e) = true := by
  unfold validate at h
  split at h
  · cases h
    rfl
  · split at h
    · cases h
      rfl
    · rename_i hlimits
      obtain ⟨hants, -, hnrows⟩ : ants.toNat ≤ p.maxAnt ∧ len.toNat ≤ p.maxLen ∧ nrows.toNat ≤ p.maxRows := by
        simpa only [not_or, not_lt] using hlimits
      split at h
      · rename_i hcheck
        cases h
        obtain ⟨g, row, hg, hrow⟩ := collect_zipIdx_error hcheck
        rw [checkRow_error hrow]
        exact responseOk_failure p _ (hrows ▸ hg) (hnrows.trans p.maxRows_le)
      · obtain ⟨a, rec, ha, hantenna⟩ := collect_zipIdx_error h
        obtain ⟨reason, rfl⟩ := checkAntenna_error hantenna
        exact responseOk_failure p _ (hrecords ▸ ha) (hants.trans p.maxAnt_le)

theorem validate_ok {R C : Type} {p : Params R C} {ants len nrows : Word} {records : List AntennaRecord} {rows : List GainRow}
    {samples : List Word} {as : List (Antenna R)} (h : validate p ants len nrows records rows samples = .ok as) :
    1 ≤ len.toNat ∧ ∀ a ∈ as, FitsLength len.toNat a := by
  unfold validate at h
  split at h
  · cases h
  · rename_i hnonempty
    split at h
    · cases h
    · split at h
      · cases h
      · exact ⟨one_le_toNat (not_or.mp hnonempty).2, checkAntennas_ok h⟩

theorem inv_beamform {R C : Type} (A : Arith R C) {p : Params R C} {ants len nrows : Word} {records : List AntennaRecord}
    {rows : List GainRow} {samples : List Word} {s : State} (hinv : inv p s = true) (hrecords : records.length = ants.toNat)
    (hrows : rows.length = nrows.toNat) : inv p (beamform A p ants len nrows records rows samples s) = true := by
  unfold beamform
  split
  · rename_i e herror
    exact inv_raise hinv (validate_error hrecords hrows herror)
  · rename_i as hok
    obtain ⟨hlen, hfits⟩ := validate_ok hok
    obtain ⟨hx, hy⟩ := beamsOf_length A (bank := s.bank) fun a ha => (hfits a ha).2
    have hdelay := maxCoarse_lt hlen fun a ha => (hfits a ha).1
    exact inv_respond hinv (responseOk_beams (by omega) hx hy)

/-! ## Every step (R25) -/

/-- A well-formed command keeps the invariant. -/
theorem exec_keeps_inv {i : Instr} {s t : State} (hwf : i.wf Config.params.fmt = true) (hinv : inv Config.params s = true)
    (h : exec i s = .next t) : inv Config.params t = true := by
  cases i with
  | configure m f tw =>
    cases h
    exact inv_configure hinv m f tw
  | setMode m =>
    cases h
    exact inv_setMode hinv m
  | setFilter f =>
    cases h
    exact inv_setFilter hinv f
  | setCfreq tw =>
    cases h
    exact inv_setCfreq hinv tw
  | dfirCh c block =>
    cases h
    exact inv_dfirCh hinv c block
  | dfirAll block =>
    cases h
    exact inv_dfirAll hinv block
  | dfirReset =>
    cases h
    exact inv_dfirReset hinv
  | ddc count len tags samples =>
    obtain ⟨htags, -⟩ : tags.length = len.toNat ∧ _ := by
      simpa only [Instr.wf, Bool.and_eq_true, beq_iff_eq] using hwf
    exact inv_ddc exactArith hinv htags h
  | beamform ants len nrows records rows samples =>
    obtain ⟨⟨hrecords, hrows⟩, -⟩ : (records.length = ants.toNat ∧ rows.length = nrows.toNat) ∧ _ := by
      simpa only [Instr.wf, Bool.and_eq_true, beq_iff_eq] using hwf
    cases h
    exact inv_beamform exactArith hinv hrecords hrows

/-- Settles O15: a decoded command is well formed, a well-formed command keeps the invariant, and a rejected frame's error carries
no item. -/
theorem stepKeepsInvariant : Obligations.StepKeepsInvariant := by
  intro s t hinv hstep
  obtain rfl | ⟨k, f, r, rfl⟩ | ⟨i, r, hdecode, hexec⟩ := step_next_cases hstep
  · exact hinv
  · exact inv_raise (s := s.consume r) hinv rfl
  · exact exec_keeps_inv (s := s.consume r) (decode_command_wf hdecode) hinv hexec

/-- Settles O16: `State.reset` is written out, and the invariant asks nothing of a block without a configuration or responses. -/
theorem resetMeetsInvariant : Obligations.ResetMeetsInvariant := ⟨rfl, rfl, rfl, rfl, rfl⟩

end Sys2Proof.Machine
end

section
/-! SUPPORT. The byte order of the ports (R52, R54). -/

namespace Sys2Proof

/-- A field of a field of a bit vector is a field of the bit vector. -/
theorem extractLsb'_extractLsb' {w len start' len' : Nat} (x : BitVec w) (start : Nat) (h : start' + len' ≤ len) :
    (x.extractLsb' start len).extractLsb' start' len' = x.extractLsb' (start + start') len' := by
  apply BitVec.eq_of_getLsbD_eq
  intro i hi
  simp only [BitVec.getLsbD_extractLsb', hi, decide_true, Bool.true_and, show start' + i < len by omega, Nat.add_assoc]

/-- The bytes of a word of two half-words: those of the high half, then those of the low half. -/
theorem wordBytes_pack16 (a b : BitVec 16) : wordBytes (pack16 a b) =
    [a.extractLsb' 8 8, a.extractLsb' 0 8, b.extractLsb' 8 8, b.extractLsb' 0 8] := by
  simp only [wordBytes, byte3, byte2, byte1, byte0, pack16, BitVec.extractLsb'_append_eq_of_le (Nat.le_refl 16),
    BitVec.extractLsb'_append_eq_of_le (show 16 ≤ 24 by decide),
    BitVec.extractLsb'_append_eq_of_add_le (show 8 + 8 ≤ 16 by decide),
    BitVec.extractLsb'_append_eq_of_add_le (show 0 + 8 ≤ 16 by decide)]

/-- A word is its four bytes, most significant first. -/
theorem bytes_append_eq_word (w : Word) : byte3 w ++ byte2 w ++ byte1 w ++ byte0 w = w := by
  unfold byte3 byte2 byte1 byte0
  rw [BitVec.extractLsb'_append_extractLsb'_eq_extractLsb' (show 24 = 16 + 8 from rfl),
    BitVec.extractLsb'_append_extractLsb'_eq_extractLsb' (show 16 = 8 + 8 from rfl),
    BitVec.extractLsb'_append_extractLsb'_eq_extractLsb' (show 8 = 0 + 8 from rfl)]
  exact BitVec.extractLsb'_eq_self

/-- The words sent are read back from their bytes. -/
theorem wordsOfBytes_frameBytes (ws : List Word) : wordsOfBytes (frameBytes ws) = some ws := by
  induction ws with
  | nil => rfl
  | cons w ws ih =>
    show (wordsOfBytes (frameBytes ws)).map _ = _
    rw [ih, Option.map_some, bytes_append_eq_word]

/-- Only a whole number of words is read from bytes. -/
theorem length_of_wordsOfBytes_eq_some {bs : List Byte} {ws : List Word} (h : wordsOfBytes bs = some ws) :
    bs.length = 4 * ws.length := by
  induction bs using wordsOfBytes.induct generalizing ws with
  | case1 => cases h; rfl
  | case2 a b c d rest ih =>
    obtain ⟨us, hus, rfl⟩ := Option.map_eq_some_iff.mp h
    simp only [List.length_cons, ih hus]
    omega
  | case3 => cases h
  | case4 => cases h
  | case5 => cases h

/-- The eight bytes of a time tag, most significant first. -/
theorem frameBytes_encodeTag (t : TimeTag) :
    frameBytes (encodeTag t) = (List.range 8).map (fun i => t.extractLsb' (56 - 8 * i) 8) := by
  have hword (start : Nat) : wordBytes (t.extractLsb' start 32) =
      [t.extractLsb' (start + 24) 8, t.extractLsb' (start + 16) 8, t.extractLsb' (start + 8) 8, t.extractLsb' start 8] := by
    simp only [wordBytes, byte3, byte2, byte1, byte0, extractLsb'_extractLsb', Nat.reduceAdd, Nat.reduceLeDiff, Nat.add_zero]
  simp only [frameBytes, encodeTag, List.flatMap_cons, List.flatMap_nil, hword]
  rfl

/-- Settles O9: bytes are fields of fields, and reading words back is an induction over the words, or over the bytes four at a
time. -/
theorem portsAreBigEndian : Obligations.PortsAreBigEndian := by
  refine ⟨wordBytes_pack16, frameBytes_encodeTag, wordsOfBytes_frameBytes, fun bs hbs => Option.eq_none_iff_forall_ne_some.mpr ?_⟩
  intro ws hws
  have := length_of_wordsOfBytes_eq_some hws
  omega

end Sys2Proof
end

section
/-! SUPPORT. Decoding an encoded command (R73 to R83, R93, R97): the frame has its length, no reserved bit, and every operand where
the layout puts it. -/

namespace Sys2Proof

open Laws

/-! ## Words of a frame by their index -/

@[simp] theorem wordAt_cons_zero (w : Word) (ws : List Word) : wordAt (w :: ws) 0 = w := rfl

@[simp] theorem wordAt_cons_succ (w : Word) (ws : List Word) (k : Nat) : wordAt (w :: ws) (k + 1) = wordAt ws k := rfl

@[simp] theorem wordAt_nil (k : Nat) : wordAt [] k = 0 := rfl

theorem wordAt_append_right {ws us : List Word} {n : Nat} (h : ws.length = n) (k : Nat) : wordAt (ws ++ us) (n + k) = wordAt us k := by
  subst h
  simp [wordAt, List.getElem?_append_right]

/-- Where every item takes two words, item n stands in words 2n and 2n + 1. -/
theorem wordAt_flatMap_pair {α : Type} {f : α → List Word} {first second : α → Word} (hf : ∀ a, f a = [first a, second a])
    {xs : List α} {n : Nat} (hn : n < xs.length) (us : List Word) :
    wordAt (xs.flatMap f ++ us) (2 * n) = first xs[n] ∧ wordAt (xs.flatMap f ++ us) (2 * n + 1) = second xs[n] := by
  induction xs generalizing n with
  | nil => cases hn
  | cons x xs ih =>
    rw [List.flatMap_cons, hf]
    cases n with
    | zero => exact ⟨rfl, rfl⟩
    | succ n => exact ih (Nat.lt_of_succ_lt_succ hn)

/-- A list read item by item. -/
theorem map_range_eq_of_getElem {α : Type} {f : Nat → α} {xs : List α} {n : Nat} (hlength : xs.length = n)
    (h : ∀ (i : Nat) (hi : i < xs.length), f i = xs[i]) : (List.range n).map f = xs := by
  refine List.ext_getElem (by simp [hlength]) fun i _ hi => ?_
  rw [List.getElem_map, List.getElem_range, h i hi]

/-! ## Coefficient blocks (R77) -/

@[simp] theorem hi16_zero : hi16 0#32 = 0#16 := rfl

@[simp] theorem lo16_zero : lo16 0#32 = 0#16 := rfl

/-- Half-word j of the tap words is tap j, and 0 behind the last tap. -/
theorem halfWord_encodeTaps (taps : List (BitVec 16)) (j : Nat) :
    (if j % 2 = 0 then hi16 (wordAt (encodeTaps taps) (j / 2)) else lo16 (wordAt (encodeTaps taps) (j / 2))) = taps.getD j 0 := by
  induction taps using encodeTaps.induct generalizing j with
  | case1 => simp [encodeTaps]
  | case2 t =>
    match j with
    | 0 => exact hi16_pack16 t 0
    | 1 => exact lo16_pack16 t 0
    | j + 2 => simp [encodeTaps]
  | case3 t u rest ih =>
    match j with
    | 0 => exact hi16_pack16 t u
    | 1 => exact lo16_pack16 t u
    | j + 2 => simpa [encodeTaps] using ih j

theorem readTap_encodeBlock (h : Word) (b : TapBlock) (j : Nat) : readTap (h :: encodeBlock b) j = b.taps.getD j 0 := by
  rw [← halfWord_encodeTaps]
  unfold readTap
  rw [Nat.add_comm 2]
  rfl

theorem tapCount_encodeBlock (h : Word) (b : TapBlock) : tapCount (wordAt (h :: encodeBlock b) 1) = b.count := by
  simp [encodeBlock, tapCount, TapBlock.count]

theorem readBlock_encodeBlock (h : Word) {b : TapBlock} (hb : b.wf = true) : readBlock (h :: encodeBlock b) = b := by
  have htaps : (List.range b.count).map (readTap (h :: encodeBlock b)) = b.taps :=
    map_range_eq_of_getElem (beq_iff_eq.mp hb) fun j hj => by
      rw [readTap_encodeBlock, List.getD_eq_getElem _ _ hj]
  rw [readBlock, tapCount_encodeBlock, htaps]
  simp [encodeBlock]

/-- The half-word behind an odd number of taps is 0. -/
theorem tapPadIndex?_encodeBlock (h : Word) {b : TapBlock} (hb : b.wf = true) : tapPadIndex? (h :: encodeBlock b) = none := by
  have hpad := readTap_encodeBlock h b b.count
  rw [List.getD_eq_default _ _ (beq_iff_eq.mp hb).le] at hpad
  unfold tapPadIndex?
  rw [tapCount_encodeBlock]
  refine if_neg fun ⟨hodd, hne⟩ => hne ?_
  simpa only [readTap, hodd, one_ne_zero, if_false] using hpad

/-! ## Time tags, antenna records and gain rows (R79, R82, R83) -/

theorem readTags_encode (h count len : Word) {tags : List TimeTag} {n : Nat} (hn : tags.length = n) (us : List Word) :
    (List.range n).map (readTag (h :: count :: len :: (tags.flatMap encodeTag ++ us))) = tags := by
  refine map_range_eq_of_getElem hn fun i hi => ?_
  obtain ⟨hhigh, hlow⟩ := wordAt_flatMap_pair (f := encodeTag) (fun _ => rfl) hi us
  rw [readTag, show 3 + 2 * i = 2 * i + 3 by omega, show 4 + 2 * i = 2 * i + 1 + 3 by omega]
  simp only [wordAt_cons_succ, hhigh, hlow]
  exact BitVec.extractLsb'_append_extractLsb' (w := 32) (len := 32)

section Beamform

variable (h ants len nrows : Word) {records : List AntennaRecord} {rows : List GainRow} {n : Nat} (us : List Word)

theorem readRecords_encode (hn : records.length = n) :
    (List.range n).map (readRecord (h :: ants :: len :: nrows :: (records.flatMap encodeRecord ++ us))) = records := by
  refine map_range_eq_of_getElem hn fun i hi => ?_
  obtain ⟨hfirst, hsecond⟩ := wordAt_flatMap_pair (f := encodeRecord) (fun _ => rfl) hi us
  rw [readRecord, show 4 + 2 * i = 2 * i + 4 by omega, show 5 + 2 * i = 2 * i + 1 + 4 by omega]
  simp only [wordAt_cons_succ, hfirst, hsecond, hi16_pack16, lo16_pack16, byte1_pack16]

theorem readRows_encode {m : Nat} (hm : records.length = m) (hn : rows.length = n) :
    (List.range n).map (readRow (h :: ants :: len :: nrows ::
      (records.flatMap encodeRecord ++ (rows.flatMap encodeRow ++ us))) m) = rows := by
  refine map_range_eq_of_getElem hn fun i hi => ?_
  obtain ⟨hfirst, hsecond⟩ := wordAt_flatMap_pair (f := encodeRow) (fun _ => rfl) hi us
  have hlength : (records.flatMap encodeRecord).length = 2 * m := by
    rw [flatMap_pair_length encodeRecord (fun _ => rfl), hm]
  rw [readRow, show 4 + 2 * m + 2 * i = 2 * m + 2 * i + 4 by omega, show 5 + 2 * m + 2 * i = 2 * m + (2 * i + 1) + 4 by omega]
  simp only [wordAt_cons_succ, wordAt_append_right hlength, hfirst, hsecond, hi16_pack16, lo16_pack16]

theorem drop_encode_samples {m : Nat} (hm : records.length = m) (hn : rows.length = n) :
    (h :: ants :: len :: nrows :: (records.flatMap encodeRecord ++ (rows.flatMap encodeRow ++ us))).drop (4 + 2 * m + 2 * n) = us := by
  have hlength : (records.flatMap encodeRecord ++ rows.flatMap encodeRow).length = 2 * m + 2 * n := by
    rw [List.length_append, flatMap_pair_length encodeRecord (fun _ => rfl), flatMap_pair_length encodeRow (fun _ => rfl), hm, hn]
  rw [show 4 + 2 * m + 2 * n = 2 * m + 2 * n + 4 by omega, ← List.append_assoc]
  exact List.drop_left' hlength

/-- The reserved byte of every antenna record is 0. -/
theorem recordReservedIndex?_encode (hn : records.length = ants.toNat) :
    recordReservedIndex? (h :: ants :: len :: nrows :: (records.flatMap encodeRecord ++ us)) = none := by
  rw [recordReservedIndex?, Option.map_eq_none_iff, List.find?_range_eq_none]
  intro i hi
  obtain ⟨hfirst, -⟩ := wordAt_flatMap_pair (f := encodeRecord) (fun _ => rfl) (hn.symm ▸ hi) us
  rw [show 4 + 2 * i = 2 * i + 4 by omega]
  simp only [wordAt_cons_succ, hfirst, byte0_pack16]
  rfl

end Beamform

/-! ## Whole frames -/

section Frames

variable {fmt : SampleFormat ℝ ℂ} {i : Instr}

/-- A command's frame has its length and a header without reserved bits. -/
theorem frameLength_statement (i : Instr) : FrameLength.Statement i := by
  cases i with
  | configure m f tw => exact FrameLength.configure m f tw
  | setMode m => exact FrameLength.setMode m
  | setFilter f => exact FrameLength.setFilter f
  | setCfreq tw => exact FrameLength.setCfreq tw
  | dfirCh c block => exact FrameLength.dfirCh c block
  | dfirAll block => exact FrameLength.dfirAll block
  | dfirReset => exact FrameLength.dfirReset
  | ddc count len tags samples => exact FrameLength.ddc count len tags samples
  | beamform ants len nrows records rows samples => exact FrameLength.beamform ants len nrows records rows samples

@[simp] theorem opcodeOf?_header (op : Opcode) (fields : BitVec 24) : opcodeOf? (header op fields) = some op :=
  (Machine.opcodeOf?_eq_some_iff _ _).mpr (byte3_header op fields)

/-- The length that the words on a port announce is that of the command's frame, whatever stands behind it. -/
theorem frameLength?_encode (fmt : SampleFormat ℝ ℂ) (i : Instr) (rest : List Word) :
    frameLength? fmt (encode i ++ rest) = some (frameWords fmt i) := by
  cases i <;> simp [frameLength?, encode, encodeBlock, frameWords, tapWordCount, tapCount]

theorem opcodeOf?_encode (hwf : i.wf fmt = true) : opcodeOf? (wordAt (encode i) 0) = some (opcode i) := by
  obtain ⟨-, hbyte, -⟩ := frameLength_statement i fmt hwf
  exact (Machine.opcodeOf?_eq_some_iff _ _).mpr hbyte

/-- The encoder writes every reserved bit 0. -/
theorem reservedIndex?_encode (hwf : i.wf fmt = true) : reservedIndex? (opcode i) (encode i) = none := by
  obtain ⟨-, -, hmask⟩ := frameLength_statement i fmt hwf
  unfold reservedIndex?
  rw [if_neg (not_not.mpr hmask)]
  cases i with
  | configure m f tw => rfl
  | setMode m => rfl
  | setFilter f => rfl
  | setCfreq tw => rfl
  | dfirCh c block => exact tapPadIndex?_encodeBlock _ hwf
  | dfirAll block => exact tapPadIndex?_encodeBlock _ hwf
  | dfirReset => rfl
  | ddc count len tags samples => rfl
  | beamform ants len nrows records rows samples =>
    obtain ⟨⟨hrecords, -⟩, -⟩ : (records.length = ants.toNat ∧ _) ∧ _ := by
      simpa only [Instr.wf, Bool.and_eq_true, beq_iff_eq] using hwf
    simp only [encode, List.append_assoc]
    exact recordReservedIndex?_encode _ ants len nrows _ hrecords

/-- Every operand is read from where the encoder writes it. -/
theorem readCommand_encode (hwf : i.wf fmt = true) : readCommand (opcode i) (encode i) = i := by
  cases i with
  | configure m f tw => simp [opcode, readCommand, encode]
  | setMode m => simp [opcode, readCommand, encode]
  | setFilter f => simp [opcode, readCommand, encode]
  | setCfreq tw => rfl
  | dfirCh c block => simp [opcode, readCommand, encode, readBlock_encodeBlock _ (show block.wf = true from hwf)]
  | dfirAll block => simp [opcode, readCommand, encode, readBlock_encodeBlock _ (show block.wf = true from hwf)]
  | dfirReset => rfl
  | ddc count len tags samples =>
    obtain ⟨htags, -⟩ : tags.length = len.toNat ∧ _ := by simpa only [Instr.wf, Bool.and_eq_true, beq_iff_eq] using hwf
    have hlength : (tags.flatMap encodeTag).length = 2 * len.toNat := by
      rw [flatMap_pair_length encodeTag (fun _ => rfl), htags]
    simp [opcode, readCommand, encode, readTags_encode _ _ _ htags, Nat.add_comm 3, ← hlength]
  | beamform ants len nrows records rows samples =>
    obtain ⟨⟨hrecords, hrows⟩, -⟩ : (records.length = ants.toNat ∧ rows.length = nrows.toNat) ∧ _ := by
      simpa only [Instr.wf, Bool.and_eq_true, beq_iff_eq] using hwf
    simp [opcode, readCommand, encode, readRecords_encode _ _ _ _ _ hrecords, readRows_encode _ _ _ _ _ hrecords hrows,
      drop_encode_samples _ _ _ _ _ hrecords hrows]

/-- Decoding after encoding gives the command back, and leaves the words behind its frame. -/
theorem decode_encode_append (hwf : i.wf fmt = true) (rest : List Word) : decode fmt (encode i ++ rest) = .command i rest := by
  obtain ⟨hlength, -, -⟩ := frameLength_statement i fmt hwf
  rw [decode, frameLength?_encode, ← hlength]
  simp [decodeFrame, opcodeOf?_encode hwf, reservedIndex?_encode hwf, readCommand_encode hwf]

end Frames

end Sys2Proof
end

section
/-! SUPPORT. Frames on the command port one behind the other (R60, R61): what a command does does not depend on the words that wait. -/

namespace Sys2Proof.Machine

/-- An outcome whose next state has other words waiting on its command port. -/
def withWaiting (ws : List Word) : Host.Outcome State Fault Refusal → Host.Outcome State Fault Refusal
  | .next t => .next (t.consume ws)
  | .fault f => .fault f
  | .refused r => .refused r

section

variable (s : State) (ws : List Word)

theorem configure_consume {R C : Type} (p : Params R C) (m f : BitVec 8) (tw : Word) :
    configure p m f tw (s.consume ws) = (configure p m f tw s).consume ws := by
  unfold configure
  repeat' split
  all_goals rfl

theorem setMode_consume (m : BitVec 8) : setMode m (s.consume ws) = (setMode m s).consume ws := by
  unfold setMode
  rw [consume_config]
  repeat' split
  all_goals rfl

theorem setFilter_consume (f : BitVec 8) : setFilter f (s.consume ws) = (setFilter f s).consume ws := by
  unfold setFilter
  rw [consume_config]
  repeat' split
  all_goals rfl

theorem setCfreq_consume {R C : Type} (p : Params R C) (tw : Word) : setCfreq p tw (s.consume ws) = (setCfreq p tw s).consume ws := by
  unfold setCfreq
  rw [consume_config]
  repeat' split
  all_goals rfl

theorem dfirCh_consume (c : BitVec 16) (block : TapBlock) : dfirCh c block (s.consume ws) = (dfirCh c block s).consume ws := by
  unfold dfirCh
  repeat' split
  all_goals rfl

theorem dfirAll_consume (block : TapBlock) : dfirAll block (s.consume ws) = (dfirAll block s).consume ws := by
  unfold dfirAll
  split <;> rfl

theorem ddc_consume {R C : Type} (A : Arith R C) (p : Params R C) (count len : Word) (tags : List TimeTag) (samples : List Word) :
    ddc A p count len tags samples (s.consume ws) = withWaiting ws (ddc A p count len tags samples s) := by
  unfold ddc ddcResult
  rw [consume_config]
  repeat' split
  all_goals rfl

theorem beamform_consume {R C : Type} (A : Arith R C) (p : Params R C) (ants len nrows : Word) (records : List AntennaRecord)
    (rows : List GainRow) (samples : List Word) :
    beamform A p ants len nrows records rows samples (s.consume ws) =
      (beamform A p ants len nrows records rows samples s).consume ws := by
  unfold beamform
  split <;> rfl

/-- A command neither reads nor writes the command port. -/
theorem exec_consume (i : Instr) : exec i (s.consume ws) = withWaiting ws (exec i s) := by
  cases i with
  | configure m f tw => exact congrArg _ (configure_consume s ws Config.params m f tw)
  | setMode m => exact congrArg _ (setMode_consume s ws m)
  | setFilter f => exact congrArg _ (setFilter_consume s ws f)
  | setCfreq tw => exact congrArg _ (setCfreq_consume s ws Config.params tw)
  | dfirCh c block => exact congrArg _ (dfirCh_consume s ws c block)
  | dfirAll block => exact congrArg _ (dfirAll_consume s ws block)
  | dfirReset => rfl
  | ddc count len tags samples => exact ddc_consume s ws exactArith Config.params count len tags samples
  | beamform ants len nrows records rows samples =>
    exact congrArg _ (beamform_consume s ws exactArith Config.params ants len nrows records rows samples)

end

/-! ## Runs (R60) -/

theorem run_succ_of_next {M : Host.Core} {s t : M.State} (h : M.step s = .next t) (k : Nat) : M.run (k + 1) s = M.run k t := by
  rw [Host.Core.run, h]

theorem run_succ_of_fault {M : Host.Core} {s : M.State} {f : M.Fault} (h : M.step s = .fault f) (k : Nat) :
    M.run (k + 1) s = .fault f := by
  rw [Host.Core.run, h]

theorem run_succ_of_refused {M : Host.Core} {s : M.State} {r : M.Refusal} (h : M.step s = .refused r) (k : Nat) :
    M.run (k + 1) s = .refused r := by
  rw [Host.Core.run, h]

/-- A step with frames on the command port runs the command of the first one, and leaves the others waiting. -/
theorem step_frames {i : Instr} (hwf : i.wf Config.params.fmt = true) (cs : List Instr) (rest : List Word) (s : State) :
    step (s.consume ((i :: cs).flatMap encode ++ rest)) = withWaiting (cs.flatMap encode ++ rest) (exec i s) := by
  rw [List.flatMap_cons, List.append_assoc, ← exec_consume]
  exact step_of_decode_command (s := s.consume _) (decode_encode_append hwf _)

/-- Settles O8, by induction on the commands: a step runs the first one with the other frames waiting, and the state it leaves is
the one it leaves with `rest` waiting, but for the port. -/
theorem framesRunInTheOrderReceived : Obligations.FramesRunInTheOrderReceived := by
  intro cs rest s hwf
  change Host.Core.run core cs.length (s.consume (cs.flatMap encode ++ rest)) = execAll cs (s.consume rest)
  induction cs generalizing s with
  | nil => rfl
  | cons i cs ih =>
    obtain ⟨hi, hcs⟩ := List.forall_mem_cons.mp hwf
    have hstep := step_frames hi cs rest s
    rw [execAll, exec_consume]
    generalize exec i s = outcome at hstep ⊢
    cases outcome with
    | next t => exact (run_succ_of_next (M := core) hstep _).trans (ih t hcs)
    | fault f => exact run_succ_of_fault (M := core) hstep _
    | refused r => exact run_succ_of_refused (M := core) hstep _

end Sys2Proof.Machine
end

section
/-! SUPPORT. Encoding a decoded command (R73 to R83, R93, R97): a complete frame without a nonzero reserved bit is the encoding of
the command it is read as. -/

namespace Sys2Proof

open Laws

/-! ## Fields of a word (R11) -/

/-- A word has no bit under a mask of one field exactly when that field is 0. -/
theorem and_eq_zero_iff_field {mask : Word} {start len : Nat}
    (hmask : ∀ i < 32, mask.getLsbD i = (decide (start ≤ i) && decide (i < start + len))) (w : Word) (hfits : start + len ≤ 32) :
    w &&& mask = 0 ↔ w.extractLsb' start len = 0 := by
  constructor
  · intro h
    apply BitVec.eq_of_getLsbD_eq
    intro i hi
    have hbit : (w &&& mask).getLsbD (start + i) = false := by rw [h]; exact BitVec.getLsbD_zero
    rw [BitVec.getLsbD_and, hmask _ (by omega)] at hbit
    simpa [hi] using hbit
  · intro h
    apply BitVec.eq_of_getLsbD_eq
    intro i hi
    rw [BitVec.getLsbD_and, hmask i hi]
    by_cases hin : start ≤ i ∧ i < start + len
    · have hbit : (w.extractLsb' start len).getLsbD (i - start) = false := by rw [h]; exact BitVec.getLsbD_zero
      rw [BitVec.getLsbD_extractLsb', Nat.add_sub_cancel' hin.1] at hbit
      simpa [hin, show i - start < len by omega] using hbit
    · have hout : (decide (start ≤ i) && decide (i < start + len)) = false := by simpa using hin
      rw [hout, Bool.and_false]
      exact BitVec.getLsbD_zero.symm

theorem and_mask_eq_zero_iff_lo16 (w : Word) : w &&& 0x0000FFFF = 0 ↔ lo16 w = 0 :=
  and_eq_zero_iff_field (start := 0) (len := 16) (by decide) w (by decide)

theorem and_mask_eq_zero_iff_byte0 (w : Word) : w &&& 0x000000FF = 0 ↔ byte0 w = 0 :=
  and_eq_zero_iff_field (start := 0) (len := 8) (by decide) w (by decide)

theorem and_mask_eq_zero_iff_byte2 (w : Word) : w &&& 0x00FF0000 = 0 ↔ byte2 w = 0 :=
  and_eq_zero_iff_field (start := 16) (len := 8) (by decide) w (by decide)

theorem and_mask_eq_zero_iff_fields (w : Word) : w &&& 0x00FFFFFF = 0 ↔ w.extractLsb' 0 24 = 0 :=
  and_eq_zero_iff_field (start := 0) (len := 24) (by decide) w (by decide)

@[simp] theorem pack16_hi16_lo16 (w : Word) : pack16 (hi16 w) (lo16 w) = w :=
  BitVec.extractLsb'_append_extractLsb' (w := 16) (len := 16)

theorem word_eq_of_halves {v w : Word} (hhi : hi16 v = hi16 w) (hlo : lo16 v = lo16 w) : v = w := by
  rw [← pack16_hi16_lo16 v, hhi, hlo, pack16_hi16_lo16]

theorem pack8_byte1_byte0 (w : Word) : pack8 (byte1 w) (byte0 w) = lo16 w :=
  BitVec.extractLsb'_append_extractLsb'_eq_extractLsb' (show 8 = 0 + 8 from rfl)

/-- A word whose byte 0 is 0 is its upper three bytes. -/
theorem pack16_of_byte0_zero {w : Word} (h : byte0 w = 0) : pack16 (hi16 w) (pack8 (byte1 w) 0) = w := by
  rw [← h, pack8_byte1_byte0, pack16_hi16_lo16]

section Header

variable {h : Word} {op : Opcode} (hop : opcodeOf? h = some op)

include hop

/-- A header is its opcode above its format-specific bits (R71). -/
theorem header_fields_eq : header op (h.extractLsb' 0 24) = h := by
  rw [header, ← (Machine.opcodeOf?_eq_some_iff h op).mp hop]
  exact BitVec.extractLsb'_append_extractLsb' (w := 8) (len := 24)

theorem header_byte2_lo16_eq : header op (headerFields (byte2 h) (lo16 h)) = h := by
  have hfields : headerFields (byte2 h) (lo16 h) = h.extractLsb' 0 24 :=
    BitVec.extractLsb'_append_extractLsb'_eq_extractLsb' (show 16 = 0 + 16 from rfl)
  rw [hfields, header_fields_eq hop]

theorem header_zero_eq (hmask : h &&& 0x00FFFFFF = 0) : header op 0 = h := by
  rw [← (and_mask_eq_zero_iff_fields h).mp hmask, header_fields_eq hop]

end Header

/-! ## Frames by their words -/

theorem frame_ext {us ws : List Word} (hlength : us.length = ws.length) (h : ∀ k < ws.length, wordAt us k = wordAt ws k) :
    us = ws := by
  refine List.ext_getElem hlength fun k hu hw => ?_
  have := h k hw
  rwa [wordAt, wordAt, List.getD_eq_getElem _ _ hu, List.getD_eq_getElem _ _ hw] at this

theorem wordAt_drop (ws : List Word) (n k : Nat) : wordAt (ws.drop n) k = wordAt ws (n + k) := by
  simp [wordAt, List.getElem?_drop]

/-- The first word of a frame, and the words behind it. -/
theorem wordAt_cons_drop {ws : List Word} {n : Nat} (hn : n < ws.length) : wordAt ws n :: ws.drop (n + 1) = ws.drop n := by
  rw [wordAt, List.getD_eq_getElem _ _ hn, List.cons_getElem_drop_succ]

theorem eq_singleton_of_length {ws : List Word} (h : ws.length = 1) : [wordAt ws 0] = ws := by
  obtain ⟨w, rfl⟩ := List.length_eq_one_iff.mp h
  rfl

theorem eq_pair_of_length {ws : List Word} (h : ws.length = 2) : [wordAt ws 0, wordAt ws 1] = ws := by
  obtain ⟨v, w, rfl⟩ := List.length_eq_two.mp h
  rfl

/-- Items written as the two words they were read from are those words. -/
theorem flatMap_range_pair {ws : List Word} {start n : Nat} (hn : start + 2 * n ≤ ws.length) {item : Nat → List Word}
    (hitem : ∀ i < n, item i = [wordAt ws (start + 2 * i), wordAt ws (start + 2 * i + 1)]) :
    (List.range n).flatMap item ++ ws.drop (start + 2 * n) = ws.drop start := by
  induction n with
  | zero => rfl
  | succ n ih =>
    have hwords : item n ++ ws.drop (start + 2 * (n + 1)) = ws.drop (start + 2 * n) := by
      rw [hitem n n.lt_succ_self, ← wordAt_cons_drop (n := start + 2 * n) (by omega),
        ← wordAt_cons_drop (n := start + 2 * n + 1) (by omega)]
      rfl
    rw [List.range_succ, List.flatMap_append, List.flatMap_singleton, List.append_assoc, hwords]
    exact ih (by omega) fun i hi => hitem i (by omega)

/-! ## What is read back is written as it stood (R77, R79, R82, R83) -/

/-- Tap words whose taps were read from them, the half-word behind an odd number of taps being 0. -/
theorem encodeTaps_readTap {frame : List Word} {n : Nat} (hlength : frame.length = 2 + tapWordCount n)
    (hpad : n % 2 = 1 → lo16 (wordAt frame (2 + n / 2)) = 0) :
    encodeTaps ((List.range n).map (readTap frame)) = frame.drop 2 := by
  have htap : ∀ j < n, ((List.range n).map (readTap frame)).getD j 0 = readTap frame j := fun j hj => by
    simp [hj]
  have hcount : tapWordCount n = (n + 1) / 2 := rfl
  refine frame_ext (by simp [encodeTaps_length, hlength, tapWordCount]) fun k hk => ?_
  rw [List.length_drop, hlength] at hk
  rw [wordAt_drop]
  apply word_eq_of_halves
  · have hhalf := halfWord_encodeTaps ((List.range n).map (readTap frame)) (2 * k)
    rw [htap _ (by omega)] at hhalf
    simpa [readTap] using hhalf
  · have hhalf := halfWord_encodeTaps ((List.range n).map (readTap frame)) (2 * k + 1)
    have hdiv : (2 * k + 1) / 2 = k := by omega
    have hmod : (2 * k + 1) % 2 ≠ 0 := by omega
    rw [if_neg hmod, hdiv] at hhalf
    rw [hhalf]
    by_cases hlast : 2 * k + 1 < n
    · rw [htap _ hlast, readTap]
      simp only [hdiv, if_neg hmod]
    · obtain rfl : k = n / 2 := by omega
      rw [List.getD_eq_default _ _ (by simp; omega), hpad (by omega)]

theorem encodeBlock_readBlock {frame : List Word} (hlength : frame.length = 2 + tapWordCount (tapCount (wordAt frame 1)))
    (hpad : tapPadIndex? frame = none) : encodeBlock (readBlock frame) = frame.drop 1 := by
  have hzero : tapCount (wordAt frame 1) % 2 = 1 → lo16 (wordAt frame (2 + tapCount (wordAt frame 1) / 2)) = 0 := by
    simpa [tapPadIndex?] using hpad
  rw [encodeBlock, readBlock]
  dsimp only
  rw [encodeTaps_readTap hlength hzero, pack16_hi16_lo16, wordAt_cons_drop (by omega)]

theorem encodeTag_readTag (frame : List Word) (n : Nat) :
    encodeTag (readTag frame n) = [wordAt frame (3 + 2 * n), wordAt frame (3 + 2 * n + 1)] := by
  rw [encodeTag, readTag, BitVec.extractLsb'_append_eq_left, BitVec.extractLsb'_append_eq_right, Nat.add_right_comm 3]

theorem encodeRecord_readRecord {frame : List Word} {a : Nat} (hbyte : byte0 (wordAt frame (4 + 2 * a)) = 0) :
    encodeRecord (readRecord frame a) = [wordAt frame (4 + 2 * a), wordAt frame (4 + 2 * a + 1)] := by
  rw [encodeRecord, readRecord]
  dsimp only
  rw [pack16_of_byte0_zero hbyte, pack16_hi16_lo16, Nat.add_right_comm 4]

theorem encodeRow_readRow (frame : List Word) (ants g : Nat) :
    encodeRow (readRow frame ants g) = [wordAt frame (4 + 2 * ants + 2 * g), wordAt frame (4 + 2 * ants + 2 * g + 1)] := by
  rw [encodeRow, readRow]
  dsimp only
  rw [pack16_hi16_lo16, pack16_hi16_lo16, show 4 + 2 * ants + 2 * g + 1 = 5 + 2 * ants + 2 * g by omega]

/-! ## Whole frames -/

section Frames

variable {R C : Type} {fmt : SampleFormat R C} {op : Opcode}

/-- The length that words announce is that of the command they are read as (R97). -/
theorem frameLength?_eq_frameWords {ws : List Word} {n : Nat} (h : frameLength? fmt ws = some n)
    (hop : opcodeOf? (wordAt ws 0) = some op) : n = frameWords fmt (readCommand op ws) := by
  have hlength := h
  unfold frameLength? at h
  split at h
  · cases h
  · rename_i hd hhd
    have hop' := hop
    rw [wordAt_of_getElem? hhd] at hop'
    cases op with
    | ddc => exact frameLength?_ddc hlength hop
    | beamform => exact frameLength?_beamform hlength hop
    | dfirCh | dfirAll =>
      simp only [hop', Option.map_eq_some_iff] at h
      obtain ⟨w1, hw1, rfl⟩ := h
      rw [← wordAt_of_getElem? hw1]
      rfl
    | configure | setMode | setFilter | setCfreq | dfirReset =>
      simp only [hop'] at h
      exact (Option.some.inj h).symm

/-- The length of a command's frame is read from the frame's own words. -/
theorem frameWords_readCommand_take {ws : List Word} {n : Nat} (h : n = frameWords fmt (readCommand op ws)) :
    frameWords fmt (readCommand op (ws.take n)) = n := by
  cases op with
  | configure | setMode | setFilter | setCfreq | dfirReset => exact h.symm
  | dfirCh | dfirAll =>
    simp only [readCommand, readBlock, frameWords] at h ⊢
    rw [wordAt_take (by omega), ← h]
  | ddc =>
    simp only [readCommand, frameWords] at h ⊢
    rw [wordAt_take (by omega), wordAt_take (by omega), ← h]
  | beamform =>
    simp only [readCommand, frameWords] at h ⊢
    rw [wordAt_take (by omega), wordAt_take (by omega), wordAt_take (by omega), ← h]

/-- A frame without a nonzero reserved bit has none in its header. -/
theorem header_unreserved {frame : List Word} (h : reservedIndex? op frame = none) : wordAt frame 0 &&& reservedMask op = 0 := by
  by_contra hne
  rw [reservedIndex?.eq_def, if_pos hne] at h
  cases h

/-- Every antenna record of a frame without a nonzero reserved bit has a reserved byte of 0. -/
theorem byte0_record_eq_zero {frame : List Word} (h : recordReservedIndex? frame = none) {a : Nat}
    (ha : a < (wordAt frame 1).toNat) : byte0 (wordAt frame (4 + 2 * a)) = 0 := by
  rw [recordReservedIndex?, Option.map_eq_none_iff, List.find?_range_eq_none] at h
  simpa using h a ha

/-- A complete frame without a nonzero reserved bit is the encoding of its command. -/
theorem encode_readCommand {frame : List Word} (hop : opcodeOf? (wordAt frame 0) = some op)
    (hlength : frame.length = frameWords fmt (readCommand op frame)) (hreserved : reservedIndex? op frame = none) :
    encode (readCommand op frame) = frame := by
  have hmask := header_unreserved hreserved
  simp only [reservedIndex?, hmask, ne_eq, not_true_eq_false, if_false] at hreserved
  have hpos : 0 < frame.length := by
    rw [hlength]
    cases op <;> simp only [readCommand, frameWords] <;> omega
  have hdrop : wordAt frame 0 :: frame.drop 1 = frame := wordAt_cons_drop hpos
  cases op with
  | configure =>
    rw [readCommand, encode, ← (and_mask_eq_zero_iff_byte0 _).mp hmask, pack8_byte1_byte0, header_byte2_lo16_eq hop,
      eq_pair_of_length hlength]
  | setMode | setFilter =>
    rw [readCommand, encode, ← (and_mask_eq_zero_iff_lo16 _).mp hmask, header_byte2_lo16_eq hop, eq_singleton_of_length hlength]
  | setCfreq => rw [readCommand, encode, header_zero_eq hop hmask, eq_pair_of_length hlength]
  | dfirCh =>
    rw [readCommand, encode, ← (and_mask_eq_zero_iff_byte2 _).mp hmask, header_byte2_lo16_eq hop,
      encodeBlock_readBlock hlength hreserved, hdrop]
  | dfirAll => rw [readCommand, encode, header_zero_eq hop hmask, encodeBlock_readBlock hlength hreserved, hdrop]
  | dfirReset => rw [readCommand, encode, header_zero_eq hop hmask, eq_singleton_of_length hlength]
  | ddc =>
    simp only [readCommand, frameWords] at hlength
    have hcounts : wordAt frame 1 :: wordAt frame 2 :: frame.drop 3 = frame.drop 1 := by
      rw [wordAt_cons_drop (by omega), wordAt_cons_drop (by omega)]
    simp only [readCommand, encode, header_zero_eq hop hmask, List.flatMap_map]
    rw [flatMap_range_pair (by omega) fun n _ => encodeTag_readTag frame n, hcounts, hdrop]
  | beamform =>
    simp only [readCommand, frameWords] at hlength
    have hcounts : wordAt frame 1 :: wordAt frame 2 :: wordAt frame 3 :: frame.drop 4 = frame.drop 1 := by
      rw [wordAt_cons_drop (by omega), wordAt_cons_drop (by omega), wordAt_cons_drop (by omega)]
    simp only [readCommand, encode, header_zero_eq hop hmask, List.flatMap_map, List.append_assoc]
    rw [flatMap_range_pair (by omega) fun g _ => encodeRow_readRow frame _ g,
      flatMap_range_pair (by omega) fun a ha => encodeRecord_readRecord (byte0_record_eq_zero hreserved ha), hcounts, hdrop]

/-- Words that decode to a command begin with its encoding. -/
theorem eq_encode_of_decode {ws rest : List Word} {i : Instr} (h : decode fmt ws = .command i rest) : ws = encode i ++ rest := by
  obtain ⟨n, op, hlen, hle, hop, hreserved, rfl, rfl⟩ := decode_eq_command h
  have hop' : opcodeOf? (wordAt (ws.take n) 0) = some op := by rw [wordAt_take (frameLength?_pos hlen), hop]
  have hwords := frameWords_readCommand_take (frameLength?_eq_frameWords hlen hop)
  rw [encode_readCommand (fmt := fmt) hop' (by rw [hwords, List.length_take_of_le hle]) hreserved, List.take_append_drop]

end Frames

/-- Settles O1: the frame announces its own length, holds no reserved bit, and every operand stands where it is read. -/
theorem decodeOfEncodeIsCommand : Obligations.DecodeOfEncodeIsCommand := fun _ _ rest hwf => decode_encode_append hwf rest

/-- Settles O2: a decoded frame is complete and has no nonzero reserved bit, and such a frame is its command's encoding. -/
theorem decodedCommandIsItsFrame : Obligations.DecodedCommandIsItsFrame :=
  fun _ _ _ _ h => ⟨decode_command_wf h, eq_encode_of_decode h⟩

end Sys2Proof
end

section
/-! SUPPORT. Frames that are no command: unassigned opcodes (R92), nonzero reserved bits (R93) and incomplete frames (R70, R240); and
frames written out from the layouts (R73 to R83). -/

namespace Sys2Proof.Machine

/-! ## What a step does on such words -/

theorem step_of_decode_illegal {s : State} {index : Nat} {frame rest : List Word}
    (h : decode Config.params.fmt s.commandPort = .illegal index frame rest) : step s = .next (rejectFrame index frame rest s) := by
  simp only [step, fetch, h]

theorem step_of_decode_incomplete {s : State} (h : decode Config.params.fmt s.commandPort = .incomplete) : step s = .next s := by
  simp only [step, fetch, h]

theorem illegalInfo_of_lt {index : Nat} (h : index < 2 ^ 24) (frame : List Word) : illegalInfo index frame = BitVec.ofNat 24 index :=
  if_pos h

theorem decode_incomplete {R C : Type} {fmt : SampleFormat R C} {ws : List Word}
    (h : ∀ n, frameLength? fmt ws = some n → ws.length < n) : decode fmt ws = .incomplete := by
  unfold decode
  split
  · rfl
  · rename_i n hn
    exact if_pos (h n hn)

/-- Settles O6: words without a whole frame decode as incomplete, and a step waits on them. -/
theorem incompleteFrameLeavesTheStateUnchanged : Obligations.IncompleteFrameLeavesTheStateUnchanged :=
  fun _ h => step_of_decode_incomplete (decode_incomplete h)

/-! ## Unassigned opcodes (R92) -/

/-- A header has no opcode where its opcode byte is none of the nine. -/
theorem opcodeOf?_eq_none {h : Word} (hbyte : byte3 h ∉ [0x01, 0x02, 0x03, 0x04, 0x10, 0x11, 0x12, 0x20, 0x30]) :
    opcodeOf? h = none := by
  refine List.find?_eq_none.mpr fun op _ heq => hbyte ?_
  rw [← beq_iff_eq.mp heq]
  cases op <;> decide

theorem decode_unassigned {R C : Type} (fmt : SampleFormat R C) {h : Word} (ws : List Word) (hop : opcodeOf? h = none) :
    decode fmt (h :: ws) = .illegal 0 [h] ws := by
  simp [decode, frameLength?, decodeFrame, hop]

/-- Settles O4: the header alone is the frame, and word 0 is at fault. -/
theorem unassignedOpcodeIsOneIllegalWord : Obligations.UnassignedOpcodeIsOneIllegalWord := by
  intro s h ws hbyte hport
  have hdecode : decode Config.params.fmt s.commandPort = .illegal 0 [h] ws := by
    rw [hport, decode_unassigned _ _ (opcodeOf?_eq_none hbyte)]
  rw [step_of_decode_illegal hdecode]
  rfl

/-! ## Reserved bits (R93) -/

section Reserved

variable {frame : List Word} {op : Opcode} {k : Nat}

/-- The reserved half-word behind an odd number of taps is found where it is not 0. -/
theorem tapPadIndex?_eq_some (hodd : tapCount (wordAt frame 1) % 2 = 1) (hk : k = 1 + tapWordCount (tapCount (wordAt frame 1)))
    (hbits : lo16 (wordAt frame k) ≠ 0) : tapPadIndex? frame = some k := by
  obtain rfl : k = 2 + tapCount (wordAt frame 1) / 2 := by
    rw [hk, tapWordCount, ceilDiv]
    omega
  exact if_pos ⟨hodd, hbits⟩

/-- The first antenna record with a nonzero reserved byte is found. -/
theorem recordReservedIndex?_eq_some {a : Nat} (ha : a < (wordAt frame 1).toNat) (hbits : byte0 (wordAt frame (4 + 2 * a)) ≠ 0)
    (hfirst : ∀ b < a, byte0 (wordAt frame (4 + 2 * b)) = 0) : recordReservedIndex? frame = some (4 + 2 * a) := by
  refine Option.map_eq_some_iff.mpr ⟨a, List.find?_range_eq_some.mpr ⟨by simpa using hbits, List.mem_range.mpr ha, ?_⟩, rfl⟩
  intro b hb
  simpa using hfirst b hb

theorem reservedBits_zero (op : Opcode) (frame : List Word) : reservedBits op frame 0 = reservedMask op := rfl

/-- The reserved byte of an antenna record (R82). -/
theorem reservedBits_record {a : Nat} (ha : a < (wordAt frame 1).toNat) : reservedBits .beamform frame (4 + 2 * a) = 0x000000FF := by
  rw [reservedBits, if_neg (by omega), if_pos (by omega)]

/-- Behind the header a frame has reserved bits in the word of the half-word behind an odd number of taps, and in the first word
of an antenna record. -/
theorem reservedBits_cases (hk : k ≠ 0) (h : reservedBits op frame k ≠ 0) :
    ((op = .dfirCh ∨ op = .dfirAll) ∧ tapCount (wordAt frame 1) % 2 = 1 ∧ k = 1 + tapWordCount (tapCount (wordAt frame 1)) ∧
      reservedBits op frame k = 0x0000FFFF) ∨
    (op = .beamform ∧ ∃ a < (wordAt frame 1).toNat, k = 4 + 2 * a) := by
  unfold reservedBits at h ⊢
  rw [if_neg hk] at h ⊢
  cases op with
  | configure | setMode | setFilter | setCfreq | dfirReset | ddc => exact absurd rfl h
  | dfirCh | dfirAll =>
    obtain ⟨hpad, -⟩ := ite_ne_right_iff.mp h
    exact .inl ⟨by simp, hpad.1, hpad.2, if_pos hpad⟩
  | beamform =>
    obtain ⟨hrecord, -⟩ := ite_ne_right_iff.mp h
    exact .inr ⟨rfl, (k - 4) / 2, by omega, by omega⟩

/-- The index that the decoder reports is that of the first word with a nonzero reserved bit. -/
theorem reservedIndex?_eq_some (hbits : wordAt frame k &&& reservedBits op frame k ≠ 0)
    (hfirst : ∀ j < k, wordAt frame j &&& reservedBits op frame j = 0) : reservedIndex? op frame = some k := by
  rw [reservedIndex?.eq_def]
  by_cases hk : k = 0
  · subst hk
    exact if_pos hbits
  · have hheader := hfirst 0 (Nat.pos_of_ne_zero hk)
    rw [reservedBits_zero] at hheader
    rw [if_neg (not_not.mpr hheader)]
    have hmask : reservedBits op frame k ≠ 0 := fun hzero => hbits (by rw [hzero]; exact BitVec.and_zero)
    obtain ⟨hop, hodd, hlast, hhalf⟩ | ⟨rfl, a, ha, rfl⟩ := reservedBits_cases hk hmask
    · rw [hhalf] at hbits
      have hpad := tapPadIndex?_eq_some hodd hlast (mt (and_mask_eq_zero_iff_lo16 _).mpr hbits)
      obtain rfl | rfl := hop <;> exact hpad
    · rw [reservedBits_record ha] at hbits
      refine recordReservedIndex?_eq_some ha (mt (and_mask_eq_zero_iff_byte0 _).mpr hbits) fun b hb => ?_
      have hclean := hfirst (4 + 2 * b) (by omega)
      rw [reservedBits_record (hb.trans ha)] at hclean
      exact (and_mask_eq_zero_iff_byte0 _).mp hclean

/-- The reserved bits of a frame do not depend on the words behind it. -/
theorem reservedBits_take {ws : List Word} {n : Nat} (hk : k < n) : reservedBits op (ws.take n) k = reservedBits op ws k := by
  unfold reservedBits
  split
  · rfl
  · rw [wordAt_take (show 1 < n by omega)]

end Reserved

/-- A complete frame with a nonzero reserved bit is illegal, and the first word that holds one is at fault. -/
theorem decode_reserved {R C : Type} {fmt : SampleFormat R C} {ws : List Word} {op : Opcode} {n k : Nat}
    (hop : opcodeOf? (wordAt ws 0) = some op) (hlength : frameLength? fmt ws = some n) (hcomplete : n ≤ ws.length) (hk : k < n)
    (hbits : wordAt ws k &&& reservedBits op ws k ≠ 0) (hfirst : ∀ j < k, wordAt ws j &&& reservedBits op ws j = 0) :
    decode fmt ws = .illegal k (ws.take n) (ws.drop n) := by
  have hindex : reservedIndex? op (ws.take n) = some k := by
    refine reservedIndex?_eq_some ?_ fun j hj => ?_
    · rwa [wordAt_take hk, reservedBits_take hk]
    · rw [wordAt_take (hj.trans hk), reservedBits_take (hj.trans hk)]
      exact hfirst j hj
  simp only [decode, hlength, if_neg (not_lt.mpr hcomplete), decodeFrame, wordAt_take (Nat.zero_lt_of_lt hk), hop, hindex]

/-- Settles O5: the decoder reports the first word with a nonzero reserved bit, and the step rejects the whole frame. -/
theorem reservedBitsMakeTheFrameIllegal : Obligations.ReservedBitsMakeTheFrameIllegal := by
  intro s op n k hop hlength hcomplete hk hbits hfirst
  exact ⟨_, fun hlt => illegalInfo_of_lt hlt _, step_of_decode_illegal (decode_reserved hop hlength hcomplete hk hbits hfirst)⟩

/-! ## Frames written out (R73 to R83) -/

/-- Words that are the encoding of a well-formed command decode to it. -/
theorem decode_eq_of_eq_encode {fmt : SampleFormat ℝ ℂ} {ws rest : List Word} {i : Instr} (hws : ws = encode i ++ rest)
    (hwf : i.wf fmt = true) : decode fmt ws = .command i rest := by
  rw [hws, decode_encode_append hwf]

/-- Settles O3: each frame is the encoding of its command. -/
theorem framesWrittenFromTheLayoutsDecode : Obligations.FramesWrittenFromTheLayoutsDecode := by
  intro fmt
  refine ⟨decode_eq_of_eq_encode (by decide) rfl, decode_eq_of_eq_encode (by decide) rfl, decode_eq_of_eq_encode (by decide) rfl,
    decode_eq_of_eq_encode (by decide) rfl, decode_eq_of_eq_encode (by decide) rfl, decode_eq_of_eq_encode (by decide) rfl,
    decode_eq_of_eq_encode (by decide) rfl, decode_eq_of_eq_encode (by decide) rfl, fun ws hws => ?_,
    decode_eq_of_eq_encode (by decide) rfl, fun ws hws => ?_⟩
  · exact decode_eq_of_eq_encode (List.append_nil _).symm (by simp [Instr.wf, hws])
  · exact decode_eq_of_eq_encode (List.append_nil _).symm (by simp [Instr.wf, hws])

end Sys2Proof.Machine
end

section
/-! SUPPORT. The words of responses (R89 to R91, R220 to R225): the status word, and the samples where the host reads them. -/

namespace Sys2Proof.Machine

/-! ## The status word (R89, R220 to R225) -/

/-- Two fields of a word, the upper one above the lower one. -/
theorem toNat_append_eq {m n : Nat} (x : BitVec m) (y : BitVec n) : (x ++ y).toNat = x.toNat * 2 ^ n + y.toNat := by
  rw [BitVec.toNat_append, ← Nat.shiftLeft_add_eq_or_of_lt y.isLt, Nat.shiftLeft_eq]

theorem statusWord_toNat (e : CommandError) :
    (statusWord (.error e)).toNat = (errorInfo e).toNat * 2 ^ 8 + (errorCode e).toNat :=
  toNat_append_eq _ _

/-- The info field of a `ProcessingFailure`: the reason above the item (R223). -/
theorem errorInfo_failure_toNat (reason : FailureReason) {item : Nat} (hitem : item < 65536) :
    (errorInfo (.processingFailure reason item)).toNat = (reasonNumber reason).toNat * 2 ^ 16 + item := by
  rw [errorInfo, toNat_append_eq, BitVec.toNat_ofNat, Nat.mod_eq_of_lt hitem]

theorem statusWord_failure_toNat (reason : FailureReason) {item : Nat} (hitem : item < 65536) :
    (statusWord (.error (.processingFailure reason item))).toNat = (reasonNumber reason).toNat * 2 ^ 24 + item * 2 ^ 8 + 3 := by
  have hcode : (errorCode (.processingFailure reason item)).toNat = 3 := rfl
  rw [statusWord_toNat, errorInfo_failure_toNat reason hitem, hcode]
  omega

/-- Settles O55: the causes by their numbers, a failure's reason and item by `statusWord_failure_toNat`. -/
theorem statusWordLayout : Obligations.StatusWordLayout := by
  refine ⟨fun _ => rfl, by decide, by decide, fun item hitem => ?_, fun info => statusWord_toNat (.illegalCommand info)⟩
  simp only [List.map_cons, List.map_nil, statusWord_failure_toNat _ hitem]
  rfl

/-! ## The words of samples (R80, R90, R91) -/

section Samples

variable {α : Type} {enc : α → List Word} {sw : Nat} (henc : ∀ a, (enc a).length = sw)

include henc

/-- Among samples of `sw` words each, sample j is the words that were written for it. -/
theorem sampleWords_flatMap_append (xs : List α) (ws : List Word) {j : Nat} (hj : j < xs.length) :
    sampleWords sw (xs.flatMap enc ++ ws) j = enc xs[j] := by
  induction xs generalizing j with
  | nil => cases hj
  | cons x xs ih =>
    rw [List.flatMap_cons, List.append_assoc]
    cases j with
    | zero =>
      rw [sampleWords, Nat.zero_mul, List.drop_zero]
      exact List.take_left' (henc x)
    | succ j =>
      have hdrop : (enc x ++ (xs.flatMap enc ++ ws)).drop ((j + 1) * sw) = (xs.flatMap enc ++ ws).drop (j * sw) := by
        rw [Nat.succ_mul, Nat.add_comm, ← List.drop_drop, List.drop_left' (henc x)]
      rw [sampleWords, hdrop]
      exact ih (Nat.lt_of_succ_lt_succ hj)

theorem sampleWords_flatMap {xs : List α} {j : Nat} (hj : j < xs.length) : sampleWords sw (xs.flatMap enc) j = enc xs[j] := by
  simpa using sampleWords_flatMap_append henc xs [] hj

/-- Behind the words of n samples the samples are counted from n on. -/
theorem sampleWords_append_flatMap {xs : List α} {n : Nat} (hn : xs.length = n) (ws : List Word) (j : Nat) :
    sampleWords sw (xs.flatMap enc ++ ws) (n + j) = sampleWords sw ws j := by
  have hlength : (xs.flatMap enc).length = n * sw := (flatMap_length_of_const henc xs).trans (by rw [hn])
  rw [sampleWords, Nat.add_mul, ← List.drop_drop, List.drop_left' hlength, sampleWords]

/-- Streams of one length, written one behind the other: sample j of stream r. -/
theorem sampleWords_streams {ys : List (List α)} {lout : Nat} (hys : ∀ y ∈ ys, y.length = lout) {r j : Nat} (hr : r < ys.length)
    (hj : j < ys[r].length) : sampleWords sw (ys.map (fun y => y.flatMap enc)).flatten (r * lout + j) = enc ys[r][j] := by
  induction ys generalizing r with
  | nil => cases hr
  | cons y ys ih =>
    have hy : y.length = lout := hys y List.mem_cons_self
    rw [List.map_cons, List.flatten_cons]
    cases r with
    | zero =>
      rw [Nat.zero_mul, Nat.zero_add]
      exact sampleWords_flatMap_append henc y _ hj
    | succ r =>
      rw [Nat.succ_mul, Nat.add_comm (r * lout), Nat.add_assoc, sampleWords_append_flatMap henc hy]
      exact ih (fun y' hy' => hys y' (List.mem_cons_of_mem y hy')) (Nat.lt_of_succ_lt_succ hr) hj

end Samples

/-- Lists of one length, one behind the other. -/
theorem flatten_length_of_const {α : Type} {xss : List (List α)} {n : Nat} (h : ∀ xs ∈ xss, xs.length = n) :
    xss.flatten.length = xss.length * n := by
  rw [List.length_flatten, List.map_congr_left h, List.map_const', List.sum_replicate, smul_eq_mul]

/-! ## DDC and BEAMFORM (R90, R91) -/

section Responses

variable {R C : Type} (fmt : SampleFormat R C)

/-- The words of a DDC's response (R90). -/
theorem responseWords_streams (count lout : Nat) (ys : List (List C)) :
    responseWords (.ok (streamsPayload fmt count lout ys)) =
      0 :: BitVec.ofNat 32 count :: BitVec.ofNat 32 lout :: (ys.map (fun y => y.flatMap fmt.encC)).flatten := rfl

/-- The words of a BEAMFORM's response (R91). -/
theorem responseWords_beams (lout : Nat) (b : Beams R) :
    responseWords (.ok (beamsPayload fmt lout b)) = 0 :: BitVec.ofNat 32 lout :: (b.x.flatMap fmt.encR ++ b.y.flatMap fmt.encR) := rfl

end Responses

/-- Settles O56: behind the three leading words stand the streams, each of Lout samples of SW_C words. -/
theorem ddcResponseWords : Obligations.DdcResponseWords := by
  intro fmt count lout ys hcount hys
  rw [responseWords_streams]
  have hlength : (ys.map (fun y => y.flatMap fmt.encC)).flatten.length = count * lout * fmt.swC := by
    have hstream : ∀ ws ∈ ys.map (fun y => y.flatMap fmt.encC), ws.length = lout * fmt.swC := by
      intro ws hws
      obtain ⟨y, hy, rfl⟩ := List.mem_map.mp hws
      rw [flatMap_length_of_const fmt.encC_length, hys y hy]
    rw [flatten_length_of_const hstream, List.length_map, hcount, Nat.mul_assoc]
  refine ⟨rfl, rfl, rfl, ?_, fun r hr j hj => ?_⟩
  · simp only [List.length_cons, hlength]
    omega
  · have hr' : r < ys.length := hcount.symm ▸ hr
    have hj' : j < ys[r].length := by rwa [hys _ (List.getElem_mem hr')]
    rw [List.getD_eq_getElem _ _ hr', List.getD_eq_getElem _ _ hj']
    exact sampleWords_streams fmt.encC_length hys hr' hj'

/-- Settles O57: behind the two leading words stand the samples of beamX, and behind them those of beamY. -/
theorem beamformResponseWords : Obligations.BeamformResponseWords := by
  intro fmt lout bx bY hx hy
  rw [responseWords_beams]
  refine ⟨rfl, rfl, ?_, fun j hj => ⟨?_, ?_⟩⟩
  · simp only [List.length_cons, List.length_append, flatMap_length_of_const fmt.encR_length, hx, hy, Nat.mul_assoc]
    omega
  · have hj' : j < bx.length := hx.symm ▸ hj
    rw [List.getD_eq_getElem _ _ hj']
    exact sampleWords_flatMap_append fmt.encR_length bx _ hj'
  · have hj' : j < bY.length := hy.symm ▸ hj
    rw [List.getD_eq_getElem _ _ hj']
    exact (sampleWords_append_flatMap fmt.encR_length hx _ j).trans (sampleWords_flatMap fmt.encR_length hj')

end Sys2Proof.Machine
end

section
/-! SUPPORT. The assembler (R98, R99): the fields of operands, the lengths of what it assembles, and the pseudo-instructions. -/

namespace Sys2Proof.Machine

/-! ## Operands -/

theorem natField_eq_some_iff (n k : Nat) (v : BitVec n) : natField n k = some v ↔ v.toNat = k := by
  rw [natField, fieldOf?_eq_some_iff, Nat.cast_inj]

/-- A field's own value fits the field. -/
@[simp] theorem natField_toNat {n : Nat} (v : BitVec n) : natField n v.toNat = some v := (natField_eq_some_iff _ _ v).mpr rfl

theorem length_of_commonLength? {α : Type} {xss : List (List α)} {n : Nat} (h : commonLength? xss = some n) :
    ∀ xs ∈ xss, xs.length = n := by
  cases xss with
  | nil => exact fun _ hmem => absurd hmem List.not_mem_nil
  | cons x rest =>
    rw [commonLength?] at h
    split at h
    · rename_i hall
      cases h
      exact List.forall_mem_cons.mpr ⟨rfl, fun xs hxs => by simpa using List.all_eq_true.mp hall xs hxs⟩
    · cases h

/-! ## What is assembled is well formed (R77, R79, R81) -/

/-- The fields of `<bank>`, each of which has to be one. A variable stands for the field function in the proof: the kernel would
otherwise try to evaluate whether an unknown number is below 2^16. -/
theorem bankOperand_eq : bankOperand = fun bank =>
    (commonLength? bank).bind fun t => (natField 16 bank.length).bind fun p16 => (natField 16 t).bind fun t16 =>
      (allFields tapField bank.flatten).map fun taps => ⟨p16, t16, taps⟩ := by
  delta bankOperand
  obtain ⟨field, hfield⟩ : ∃ field, natField 16 = field := ⟨_, rfl⟩
  rw [hfield]
  funext bank
  cases commonLength? bank with
  | none => rfl
  | some t =>
    simp only [Option.bind_some]
    cases field bank.length with
    | none => rfl
    | some p16 =>
      cases field t with
      | none => rfl
      | some t16 => cases allFields tapField bank.flatten <;> rfl

theorem bankOperand_wf {bank : List (List Int)} {block : TapBlock} (h : bankOperand bank = some block) : block.wf = true := by
  simp only [bankOperand_eq, Option.bind_eq_some_iff, Option.map_eq_some_iff, natField_eq_some_iff] at h
  obtain ⟨t, ht, p16, hp16, t16, ht16, taps, htaps, rfl⟩ := h
  refine beq_iff_eq.mpr ?_
  rw [TapBlock.count, hp16, ht16, allFields_length _ _ _ htaps, flatten_length_of_const (length_of_commonLength? ht)]

section Wf

variable {R C : Type} {fmt : SampleFormat R C} {i : Instr}

theorem assembleConfigure_wf {m : ModeOperand} {f : Nat} {tw : Option Word} (h : assembleConfigure m f tw = some i) :
    i.wf fmt = true := by
  unfold assembleConfigure at h
  split at h
  · cases h
    rfl
  · cases h

theorem assembleDfirCh_eq : assembleDfirCh = fun c bank =>
    (natField 16 c).bind fun c16 => (bankOperand bank).map (.dfirCh c16) := by
  delta assembleDfirCh
  funext c bank
  cases natField 16 c with
  | none => rfl
  | some c16 => cases bankOperand bank <;> rfl

theorem assembleDfirCh_wf {c : Nat} {bank : List (List Int)} (h : assembleDfirCh c bank = some i) : i.wf fmt = true := by
  simp only [assembleDfirCh_eq, Option.bind_eq_some_iff, Option.map_eq_some_iff] at h
  obtain ⟨c16, -, block, hblock, rfl⟩ := h
  exact bankOperand_wf hblock

theorem dfirAll_wf {bank : List (List Int)} (h : (bankOperand bank).map .dfirAll = some i) : i.wf fmt = true := by
  obtain ⟨block, hblock, rfl⟩ := Option.map_eq_some_iff.mp h
  exact bankOperand_wf hblock

end Wf

section Assembled

variable {R C : Type} {A : Arith R C} {p : Params R C} {i : Instr}

theorem assembleDdc_wf {tags : List Nat} {streams : List (List ComplexOperand)} (h : assembleDdc A p tags streams = some i) :
    i.wf p.fmt = true := by
  unfold assembleDdc at h
  split at h
  · rename_i hall
    split at h
    · rename_i s l ts hs hl hts
      cases h
      have hstreams : ∀ x ∈ streams, x.length = tags.length := fun x hx => by simpa using List.all_eq_true.mp hall x hx
      simp only [Instr.wf, Bool.and_eq_true, beq_iff_eq]
      rw [(natField_eq_some_iff _ _ _).mp hs, (natField_eq_some_iff _ _ _).mp hl, allFields_length _ _ _ hts,
        flatMap_length_of_const fun _ => p.fmt.encC_length _, flatten_length_of_const hstreams]
      exact ⟨rfl, Nat.mul_comm _ _⟩
    · cases h
  · cases h

variable [Field R] [LinearOrder R] [FloorRing R]

/-- A variable stands for the field function, as in `bankOperand_eq`. -/
theorem assembleBeamform_wf {ants : List AntennaOperand} {gains : List GainRowOperand} {samples : List (List Rat)}
    (h : assembleBeamform A p ants gains samples = some i) : i.wf p.fmt = true := by
  unfold assembleBeamform at h
  obtain ⟨field, hfield⟩ : ∃ field, natField 32 = field := ⟨_, rfl⟩
  rw [hfield] at h
  split at h
  · rename_i hants
    split at h
    · rename_i l records rows hl hrecords hrows
      split at h
      · rename_i a len g ha hlen hg
        cases h
        rw [← hfield] at ha hlen hg
        simp only [Instr.wf, Bool.and_eq_true, beq_iff_eq]
        rw [(natField_eq_some_iff _ _ _).mp ha, (natField_eq_some_iff _ _ _).mp hlen, (natField_eq_some_iff _ _ _).mp hg,
          allFields_length _ _ _ hrecords, allFields_length _ _ _ hrows, flatMap_length_of_const fun _ => p.fmt.encR_length _,
          flatten_length_of_const (length_of_commonLength? hl), hants]
        exact ⟨⟨rfl, rfl⟩, Nat.mul_comm _ _⟩
      · cases h
    · cases h
  · cases h

/-- Whatever the assembler makes of a line is well formed. -/
theorem assemble_wf {a : AsmCommand} (h : assemble A p a = some i) : i.wf p.fmt = true := by
  cases a with
  | configure m f tw =>
    rw [assemble] at h
    exact assembleConfigure_wf h
  | setMode m | setFilter f | setCfreq tw | setCfreqHz f =>
    rw [assemble] at h
    obtain ⟨v, -, rfl⟩ := Option.map_eq_some_iff.mp h
    rfl
  | dfirCh c bank =>
    rw [assemble] at h
    exact assembleDfirCh_wf h
  | dfirAll bank =>
    rw [assemble] at h
    exact dfirAll_wf h
  | dfirReset =>
    cases h
    rfl
  | ddc tags streams =>
    rw [assemble] at h
    exact assembleDdc_wf h
  | beamform ants gains samples =>
    rw [assemble] at h
    exact assembleBeamform_wf h
  | configureHz m c f =>
    rw [assemble] at h
    exact assembleConfigure_wf h
  | dfirSet c bank =>
    rw [assemble] at h
    split at h
    · cases h
      rfl
    · split at h
      · exact dfirAll_wf h
      · split at h
        · exact assembleDfirCh_wf h
        · exact assembleDfirCh_wf h
  | ddc1 tags x =>
    rw [assemble] at h
    exact assembleDdc_wf h

end Assembled

/-- Settles O58: every list of an assembled command is as long as the count it was assembled with. -/
theorem assembledCommandsAreWellFormed : Obligations.AssembledCommandsAreWellFormed := fun _ _ _ h => assemble_wf h

/-! ## Pseudo-operands and pseudo-instructions (R99) -/

/-- Swapping the bytes twice changes nothing. -/
theorem bswap16_bswap16 (v : BitVec 16) : bswap16 (bswap16 v) = v := by
  unfold bswap16
  rw [BitVec.extractLsb'_append_eq_left, BitVec.extractLsb'_append_eq_right]
  exact BitVec.extractLsb'_append_extractLsb' (w := 8) (len := 8)

theorem map_bswap16_bswap16 (v : Option (BitVec 16)) : (v.map bswap16).map bswap16 = v := by
  rw [Option.map_map, show bswap16 ∘ bswap16 = id from funext bswap16_bswap16, Option.map_id, id]

section Pseudo

variable {R C : Type} [Field R] [LinearOrder R] [FloorRing R] (A : Arith R C) (p : Params R C)

theorem delayOperand_nanoseconds (d : Rat) : delayOperand A p (.nanoseconds d) = delayField p.fsHz (A.ofRat d) :=
  map_bswap16_bswap16 _

theorem gainOperand_gain (g : Rat) : gainOperand A (.gain g) = gainField (A.ofRat g) := map_bswap16_bswap16 _

theorem assembleConfigure_none (m : ModeOperand) (f : Nat) : assembleConfigure m f none = none := by
  unfold assembleConfigure
  split
  · rename_i hw
    cases hw
  · rfl

theorem assemble_configureHz (m : ModeOperand) (c : Nat) (f : Rat) : assemble A p (.configureHz m c f) =
    (hzOperand A p f).bind (fun w => assemble A p (.configure m c w.toNat)) := by
  simp only [assemble, natField_toNat]
  cases hzOperand A p f with
  | none => exact assembleConfigure_none m c
  | some w => rfl

end Pseudo

/-- Settles O59: swapping bytes twice is no change, a tuning word fits its field, and `DFIR.SET` by the range of its number. -/
theorem pseudoOperandsArePackedFields : Obligations.PseudoOperandsArePackedFields := by
  refine fun p => ⟨delayOperand_nanoseconds _ p, gainOperand_gain _, fun _ => rfl, assemble_configureHz _ p, fun _ => rfl,
    fun _ => rfl, fun c bank hc => ?_, fun c bank hc => ?_, fun _ _ => rfl⟩
  · simp only [assemble, if_neg (show (c : Int) ≠ -1 by omega), if_neg (show (c : Int) ≠ 0 by omega),
      if_pos (show 1 ≤ (c : Int) by omega), Int.toNat_natCast]
  · simp only [assemble, if_neg (show c ≠ -1 by omega), if_neg (show c ≠ 0 by omega), if_neg (show ¬ 1 ≤ c by omega)]

end Sys2Proof.Machine
end

section
/-! SUPPORT. The filtering primitives (R17) and the narrowband path (R140 to R148) in the block's arithmetic: each list of samples
holds the values that the spec's formula gives. -/

namespace Sys2Proof.Machine

/-! ## The filtering primitives as sums (R14, R17) -/

/-- The samples of a stream are the values of a function of the index. -/
def HasValues {K : Type} [Zero K] (xs : List K) (f : Nat → K) : Prop := ∀ n < xs.length, xs.getD n 0 = f n

theorem hasValues_range_map {K : Type} [Zero K] (len : Nat) (f : Nat → K) : HasValues ((List.range len).map f) f := by
  intro n hn
  rw [List.getD_eq_getElem _ _ hn, List.getElem_map, List.getElem_range]

theorem hasValues_map {K L : Type} [Zero K] [Zero L] {xs : List K} {f : Nat → K} (h : HasValues xs f) (g : K → L) :
    HasValues (xs.map g) (fun n => g (f n)) := by
  intro n hn
  have hn' : n < xs.length := by simpa using hn
  dsimp only
  rw [List.getD_eq_getElem _ _ hn, List.getElem_map, ← h n hn', List.getD_eq_getElem _ _ hn']

theorem sum_range_map {K : Type} [AddCommMonoid K] (n : Nat) (f : Nat → K) : ((List.range n).map f).sum = ∑ i ∈ Finset.range n, f i :=
  rfl

/-- The sum of a stream's samples. -/
theorem sum_eq_of_hasValues {K : Type} [AddCommMonoid K] {xs : List K} {f : Nat → K} (h : HasValues xs f) :
    xs.sum = ∑ n ∈ Finset.range xs.length, f n := by
  have hxs : xs = (List.range xs.length).map f := by
    refine List.ext_getElem (by simp) fun n hn _ => ?_
    rw [List.getElem_map, List.getElem_range, ← h n hn, List.getD_eq_getElem _ _ hn]
  rw [← sum_range_map, ← hxs]

section Primitives

variable {S K : Type} [AddCommMonoid K] {o : StreamOps S K}

/-- Output n of FIRF as a sum over the taps (R17). -/
theorem firAt_eq_sum [Zero S] (hsum : ∀ xs, o.sum xs = xs.sum) (h : List S) (x : List K) (n : Nat) :
    o.firAt h x n = ∑ k ∈ Finset.range h.length, o.term x n (h.getD k 0, k) := by
  have hterms : h.zipIdx.map (o.term x n) = (List.range h.length).map (fun k => o.term x n (h.getD k 0, k)) := by
    refine List.ext_getElem (by simp) fun k hk _ => ?_
    have hk' : k < h.length := by simpa using hk
    simp only [List.getElem_map, List.getElem_zipIdx, List.getElem_range, Nat.zero_add, List.getD_eq_getElem _ _ hk']
  rw [StreamOps.firAt, hsum, hterms, sum_range_map]

theorem hasValues_firf (h : List S) (x : List K) : HasValues (o.firf h x) (o.firAt h x) := hasValues_range_map _ _

/-- An output of DECIM reads a sample of the stream. -/
theorem mul_lt_of_lt_ceilDiv {j a d : Nat} (h : j < ceilDiv a d) : j * d < a := by
  have hd : 0 < d := Nat.pos_of_ne_zero fun hzero => by simp [hzero, ceilDiv] at h
  have hmul : (j + 1) * d ≤ a + d - 1 := (Nat.le_div_iff_mul_le hd).mp h
  rw [Nat.succ_mul] at hmul
  omega

theorem hasValues_decim {x : List K} {f : Nat → K} (hzero : o.zero = 0) (h : HasValues x f) (d : Nat) :
    HasValues (o.decim x d) (fun j => f (j * d)) := by
  intro j hj
  have hj' : j < ceilDiv x.length d := by simpa using hj
  have hvalue : (o.decim x d).getD j 0 = o.sampleAt x (j * d) := hasValues_range_map _ _ j hj
  rw [hvalue, StreamOps.sampleAt, hzero]
  exact h _ (mul_lt_of_lt_ceilDiv hj')

end Primitives

/-- Output n of FIRF over the complex numbers. -/
theorem complex_firAt_eq_firValue {h : List ℝ} {x : List ℂ} {f : Nat → ℂ} (hx : HasValues x f) {n : Nat} (hn : n < x.length) :
    complexOps.firAt h x n = firValue h f n := by
  rw [firAt_eq_sum complex_sum, firValue]
  refine Finset.sum_congr rfl fun k _ => ?_
  rw [StreamOps.term]
  split
  · rw [complex_scale, StreamOps.sampleAt, complex_zero, hx _ (by omega)]
  · rfl

/-- FIRF over the complex numbers. -/
theorem hasValues_complex_firf {x : List ℂ} {f : Nat → ℂ} (hx : HasValues x f) (h : List ℝ) :
    HasValues (complexOps.firf h x) (firValue h f) := by
  intro n hn
  rw [hasValues_firf h x n hn, complex_firAt_eq_firValue hx (by simpa using hn)]

/-! ## The four steps (R140 to R147) -/

/-- Step 1 (R141, R142). -/
theorem hasValues_mix {tags : List TimeTag} {x : List ℂ} {t : Nat → TimeTag} {f : Nat → ℂ} (hlength : tags.length = x.length)
    (ht : ∀ n < tags.length, tags.getD n 0 = t n) (hx : HasValues x f) (tw : BitVec 32) :
    HasValues (mix exactArith tw tags x) (mixValue tw t f) := by
  intro n hn
  have hn' : n < x.length := by simpa [mix, hlength] using hn
  have hn'' : n < tags.length := by omega
  have htag := ht n hn''
  have hsample := hx n hn'
  rw [List.getD_eq_getElem _ _ hn''] at htag
  rw [List.getD_eq_getElem _ _ hn'] at hsample
  rw [List.getD_eq_getElem _ _ hn]
  simp only [mix, List.getElem_zipWith, exact_rotate, htag, hsample, ncoPhase, BitVec.toNat_ofNat, mixValue]

/-- Step 2 (R143). -/
theorem hasValues_removeDc {m : List ℂ} {f : Nat → ℂ} (hm : HasValues m f) : HasValues (removeDc exactArith m) (dcFreeValue m.length f) := by
  have hmean : mean exactArith m = (∑ i ∈ Finset.range m.length, f i) / m.length := by
    rw [mean, exact_complex, complex_scale, complex_sum, sum_eq_of_hasValues hm]
    push_cast [exact_ofRat]
    ring
  have hvalue : dcFreeValue m.length f = fun n => exactArith.complex.sub (f n) (mean exactArith m) := by
    funext n
    rw [hmean, exact_complex, complex_sub, dcFreeValue]
  rw [hvalue]
  exact hasValues_map hm _

/-- Step 3 (R146). -/
theorem hasValues_cicStage {d : List ℂ} {f : Nat → ℂ} (hd : HasValues d f) (pack : FilterPack ℝ) :
    HasValues (cicStage exactArith pack d) (cicValue pack f) := by
  have htaps : pack.cic.map (fun k : Int => exactArith.ofRat (k : Rat)) = pack.cic.map (fun k : Int => (k : ℝ)) :=
    List.map_congr_left fun k _ => by simp
  have hvalue : cicValue pack f = fun j => complexOps.scale (exactArith.ofRat (1 / (pack.cicD : Rat)))
      (firValue (pack.cic.map (fun k : Int => (k : ℝ))) f (j * pack.cicD)) := by
    funext j
    rw [complex_scale, cicValue]
    push_cast [exact_ofRat]
    ring
  rw [cicStage, htaps, hvalue]
  exact hasValues_map (hasValues_decim complex_zero (hasValues_complex_firf hd _) _) _

/-- Step 4 (R147). -/
theorem hasValues_firStage {c : List ℂ} {f : Nat → ℂ} (hc : HasValues c f) (pack : FilterPack ℝ) :
    HasValues (firStage exactArith pack c) (firOutValue pack f) := hasValues_decim complex_zero (hasValues_complex_firf hc _) _

/-- The per-stream function (R140): every output is the number the four steps give. -/
theorem hasValues_engine {tags : List TimeTag} {x : List ℂ} {t : Nat → TimeTag} {f : Nat → ℂ} (hlength : tags.length = x.length)
    (ht : ∀ n < tags.length, tags.getD n 0 = t n) (hx : HasValues x f) (pack : FilterPack ℝ) (tw : BitVec 32) :
    HasValues (engine exactArith pack tw tags x) (engineValue pack tw t x.length f) := by
  have hmix : (mix exactArith tw tags x).length = x.length := by simp [mix, hlength]
  have hdc := hasValues_removeDc (hasValues_mix hlength ht hx tw)
  rw [hmix] at hdc
  exact hasValues_firStage (hasValues_cicStage hdc pack) pack

end Sys2Proof.Machine
end

section
/-! SUPPORT. The beam path (R170 to R176) in the block's arithmetic: the beams are the weighted sums of the antennas' delayed and
filtered streams. -/

namespace Sys2Proof.Machine

/-! ## One antenna (R172 to R175) -/

theorem delayTaps_length (bank : Bank) (c : Fin NCHAN) (p : Fin NPHASE) : (delayTaps exactArith bank c p).length = NTAPS := by
  simp [delayTaps]

/-- Tap k of an antenna's filter (R173). -/
theorem delayTaps_getD (bank : Bank) (c : Fin NCHAN) (p : Fin NPHASE) (k : Fin NTAPS) :
    (delayTaps exactArith bank c p).getD k.val 0 = (bankTap bank c p k : ℝ) / 32767 := by
  rw [List.getD_eq_getElem _ _ (by rw [delayTaps_length]; exact k.isLt)]
  simp [delayTaps]

/-- The circular shift as a list over the sample indices: the model's own list is one of integers. -/
theorem coarseShift_eq {R C : Type} (A : Arith R C) (coarse : Nat) (x : List R) : coarseShift A coarse x =
    (List.range x.length).map fun n : Nat => A.real.sampleAt x (((n : Int) - (coarse : Int)) % (x.length : Int)).toNat := by
  rw [coarseShift, List.bind_eq_flatMap, List.map_flatMap, List.map_eq_flatMap]
  rfl

@[simp] theorem coarseShift_length {R C : Type} (A : Arith R C) (coarse : Nat) (x : List R) :
    (coarseShift A coarse x).length = x.length := by
  rw [coarseShift_eq, List.length_map, List.length_range]

/-- The circular shift of an antenna's samples (R172). -/
theorem hasValues_coarseShift (coarse : Nat) (x : List ℝ) : HasValues (coarseShift exactArith coarse x)
    (fun n : Nat => x.getD (((n : Int) - (coarse : Int)) % (x.length : Int)).toNat 0) := by
  rw [coarseShift_eq]
  exact hasValues_range_map _ _

/-- An antenna's delayed and filtered stream (R172, R173). -/
theorem hasValues_antennaStream (bank : Bank) (a : Antenna ℝ) :
    HasValues (antennaStream exactArith bank a) (streamValue bank a) := by
  intro n hn
  have hn' : n < a.samples.length := by simpa using hn
  have hshift := hasValues_coarseShift a.coarse a.samples
  rw [antennaStream, exact_real, hasValues_firf _ _ n (by simpa using hn'), firAt_eq_sum real_sum, delayTaps_length,
    Finset.sum_range, streamValue]
  refine Finset.sum_congr rfl fun k _ => ?_
  rw [StreamOps.term, delayTaps_getD]
  dsimp only
  split
  · rename_i hk
    rw [real_scale, StreamOps.sampleAt, real_zero, hshift (n - k.val) (by simp; omega)]
    dsimp only
    rw [Nat.cast_sub hk]
  · rfl

/-- The gains of R175 as real numbers. -/
theorem gainValues_eq (a : Antenna ℝ) : gainValues a = ((gainToX a : ℝ), (gainToY a : ℝ)) := by
  unfold gainValues gainToX gainToY
  cases a.pol <;> simp [gainValue]

/-- An antenna whose codes sum to 0 has no gain (R174). -/
theorem gainValues_of_zeroRow {a : Antenna ℝ} (h : zeroRow a.gains = true) : gainValues a = (0, 0) := by
  have hcodes : a.gains.xx.toNat = 0 ∧ a.gains.xy.toNat = 0 ∧ a.gains.yx.toNat = 0 ∧ a.gains.yy.toNat = 0 := by
    simp only [zeroRow, beq_iff_eq] at h
    omega
  obtain ⟨hxx, hxy, hyx, hyy⟩ := hcodes
  unfold gainValues
  cases a.pol with
  | x => simp [hxx, hxy]
  | y => simp [hyx, hyy]

/-- A weighted stream added to a running sum (R175). -/
theorem hasValues_accumulate {v sum : List ℝ} {f g : Nat → ℝ} (hv : HasValues v f) (hsum : HasValues sum g)
    (hlength : v.length = sum.length) (gain : Rat) :
    HasValues (accumulate exactArith gain v sum) (fun n => g n + (gain : ℝ) * f n) := by
  intro n hn
  have hn' : n < sum.length := by rwa [accumulate_length _ _ hlength] at hn
  have hn'' : n < v.length := by rwa [hlength]
  have hvalue := hv n hn''
  have hbase := hsum n hn'
  rw [List.getD_eq_getElem _ _ hn''] at hvalue
  rw [List.getD_eq_getElem _ _ hn'] at hbase
  rw [List.getD_eq_getElem _ _ hn]
  simp [accumulate, hvalue, hbase]

/-- One antenna's turn (R174, R175): whether or not its row excludes it, it adds its gains times its stream. -/
theorem hasValues_addAntenna {bank : Bank} {b : Beams ℝ} {a : Antenna ℝ} {f g : Nat → ℝ} {len : Nat} (hx : HasValues b.x f)
    (hy : HasValues b.y g) (hxlen : b.x.length = len) (hylen : b.y.length = len) (ha : a.samples.length = len) :
    HasValues (addAntenna exactArith bank b a).x (fun n => f n + (gainValues a).1 * streamValue bank a n) ∧
      HasValues (addAntenna exactArith bank b a).y (fun n => g n + (gainValues a).2 * streamValue bank a n) := by
  unfold addAntenna
  split
  · rename_i hzero
    rw [gainValues_of_zeroRow hzero]
    simpa only [zero_mul, add_zero] using ⟨hx, hy⟩
  · have hstream := hasValues_antennaStream bank a
    have hlength : (antennaStream exactArith bank a).length = len := by rw [antennaStream_length, ha]
    rw [gainValues_eq]
    exact ⟨hasValues_accumulate hstream hx (hlength.trans hxlen.symm) _, hasValues_accumulate hstream hy (hlength.trans hylen.symm) _⟩

/-! ## All antennas (R175, R176) -/

theorem hasValues_foldl_addAntenna {bank : Bank} {as : List (Antenna ℝ)} {len : Nat} (has : ∀ a ∈ as, a.samples.length = len)
    {b : Beams ℝ} {f g : Nat → ℝ} (hx : HasValues b.x f) (hy : HasValues b.y g) (hxlen : b.x.length = len) (hylen : b.y.length = len) :
    HasValues (as.foldl (addAntenna exactArith bank) b).x (fun n => f n + beamXValue bank as n) ∧
      HasValues (as.foldl (addAntenna exactArith bank) b).y (fun n => g n + beamYValue bank as n) := by
  induction as generalizing b f g with
  | nil => simpa [beamXValue, beamYValue] using ⟨hx, hy⟩
  | cons a as ih =>
    obtain ⟨ha, has'⟩ := List.forall_mem_cons.mp has
    obtain ⟨hx', hy'⟩ := hasValues_addAntenna (bank := bank) hx hy hxlen hylen ha
    obtain ⟨hxlen', hylen'⟩ := addAntenna_length exactArith (bank := bank) hxlen hylen ha
    simpa only [List.foldl_cons, beamXValue, beamYValue, List.map_cons, List.sum_cons, add_assoc] using ih has' hx' hy' hxlen' hylen'

theorem hasValues_replicate_zero (n : Nat) : HasValues (List.replicate n (0 : ℝ)) (fun _ => 0) := by
  intro k hk
  rw [List.getD_eq_getElem _ _ hk, List.getElem_replicate]

theorem hasValues_drop {K : Type} [Zero K] {xs : List K} {f : Nat → K} (h : HasValues xs f) (m : Nat) :
    HasValues (xs.drop m) (fun n => f (n + m)) := by
  intro n hn
  have hn' : m + n < xs.length := by
    rw [List.length_drop] at hn
    omega
  have hvalue := h _ hn'
  rw [List.getD_eq_getElem _ _ hn'] at hvalue
  rw [List.getD_eq_getElem _ _ hn, List.getElem_drop, hvalue, Nat.add_comm]

/-- The two beams (R172 to R176): the weighted sums over all antennas, without the first `Dmax` samples. -/
theorem hasValues_beamsOf {as : List (Antenna ℝ)} {len : Nat} (has : ∀ a ∈ as, a.samples.length = len) (bank : Bank) :
    HasValues (beamsOf exactArith bank len as).x (fun j => beamXValue bank as (j + maxCoarse as)) ∧
      HasValues (beamsOf exactArith bank len as).y (fun j => beamYValue bank as (j + maxCoarse as)) := by
  have hzero := hasValues_replicate_zero len
  obtain ⟨hx, hy⟩ := hasValues_foldl_addAntenna (bank := bank) has (b := ⟨List.replicate len 0, List.replicate len 0⟩) hzero hzero
    List.length_replicate List.length_replicate
  simp only [zero_add] at hx hy
  exact ⟨hasValues_drop hx _, hasValues_drop hy _⟩

end Sys2Proof.Machine
end

section
/-! SUPPORT. What the host reads (R80, R90, R91): a command that passes its checks answers with the words of the exact samples, and
the words of a sample that the format keeps decode to it. -/

namespace Sys2Proof.Machine

/-! ## A DDC that passes its checks (R149) -/

section Ddc

variable {R C : Type} {p : Params R C} {s : State} {c : Configuration} {pack : FilterPack R} {count len : Word}
  {samples : List Word} {x : Nat → Nat → C}

/-- Samples that all decode are read, stream by stream. -/
theorem readStreams_of_decodes {fmt : SampleFormat R C} {count len : Nat}
    (h : ∀ r < count, ∀ n < len, fmt.decC (sampleWords fmt.swC samples (r * len + n)) = some (x r n)) :
    readStreams fmt samples count len = .ok ((List.range count).map fun r => (List.range len).map (x r)) := by
  rw [readStreams, collect_eq_ok_iff, List.map_map]
  refine List.map_congr_left fun r hr => ?_
  have hstream : readComplexStream fmt samples len r = some ((List.range len).map (x r)) :=
    allSome_range_map len _ (x r) (h r (List.mem_range.mp hr))
  simp only [hstream, Function.comp_apply]

/-- A nonzero count within its limit passes its checks. -/
theorem ne_zero_of_one_le_toNat {w : Word} (h : 1 ≤ w.toNat) : w ≠ 0 := by
  rintro rfl
  exact absurd h (by decide)

/-- A DDC that passes every check answers with the per-stream function of each stream. -/
theorem ddc_of_ready (A : Arith R C) (h : DdcReady p s c pack count len samples x) (tags : List TimeTag) :
    ddc A p count len tags samples s = .next (s.respond (streamsPayload p.fmt count.toNat (outputLength pack len.toNat)
      ((List.range count.toNat).map fun r => engine A pack c.tw tags ((List.range len.toNat).map (x r))))) := by
  obtain ⟨hcount, hmaxStreams⟩ := h.streams
  obtain ⟨hlen, hmaxLen⟩ := h.length
  have hnonempty : ¬ (count = 0 ∨ len = 0) := not_or.mpr ⟨ne_zero_of_one_le_toNat hcount, ne_zero_of_one_le_toNat hlen⟩
  have hlimits : ¬ (p.maxStreams < count.toNat ∨ p.maxLen < len.toNat) := not_or.mpr ⟨not_lt.mpr hmaxStreams, not_lt.mpr hmaxLen⟩
  have hfactors : ¬ (pack.cicD = 0 ∨ pack.firD = 0) :=
    not_or.mpr ⟨Nat.one_le_iff_ne_zero.mp pack.cicD_pos, Nat.one_le_iff_ne_zero.mp pack.firD_pos⟩
  simp only [ddc, h.configured, if_neg hnonempty, if_neg hlimits, readStreams_of_decodes h.decodes, h.hasPack, ddcResult,
    if_neg hfactors, List.map_map]
  rfl

end Ddc

/-! ## A BEAMFORM that passes its checks (R179) -/

theorem polarizationOf?_eq_some {code : BitVec 8} {pol : Polarization} (h : (code = 0 ∧ pol = .x) ∨ (code = 1 ∧ pol = .y)) :
    polarizationOf? code = some pol := by
  rcases h with ⟨rfl, rfl⟩ | ⟨rfl, rfl⟩ <;> rfl

theorem checkRows_of_codes {rows : List GainRow}
    (h : ∀ g ∈ rows, g.xx.toNat ≤ 32767 ∧ g.xy.toNat ≤ 32767 ∧ g.yx.toNat ≤ 32767 ∧ g.yy.toNat ≤ 32767) :
    checkRows rows = .ok rows := by
  rw [checkRows, collect_eq_ok_iff]
  refine List.ext_getElem (by simp) fun g hg _ => ?_
  have hg' : g < rows.length := by simpa using hg
  obtain ⟨hxx, hxy, hyx, hyy⟩ := h rows[g] (List.getElem_mem hg')
  simp only [List.getElem_map, List.getElem_zipIdx]
  exact if_neg (by simp only [GAIN_SCALE]; omega)

section Beamform

variable {R C : Type} [Zero R] {p : Params R C} {ants len nrows : Word} {records : List AntennaRecord} {rows : List GainRow}
  {samples : List Word} {as : List (Antenna R)}

/-- An antenna's samples that all decode are read. -/
theorem readRealStream_of_decodes {fmt : SampleFormat R C} {len a : Nat} {x : List R} (hlength : x.length = len)
    (h : ∀ n < len, fmt.decR (sampleWords fmt.swR samples (a * len + n)) = some (x.getD n 0)) :
    readRealStream fmt samples len a = some x := by
  have hx : (List.range len).map (fun n => x.getD n 0) = x :=
    map_range_eq_of_getElem hlength fun i hi => List.getD_eq_getElem _ _ hi
  rw [readRealStream, allSome_range_map len _ (fun n => x.getD n 0) h, hx]

/-- The records of a BEAMFORM that passes every check give its antennas. -/
theorem checkAntennas_of_ready (h : BeamformReady p ants len nrows records rows samples as) :
    checkAntennas p.fmt len.toNat rows samples records = .ok as := by
  rw [checkAntennas, collect_eq_ok_iff]
  refine List.ext_getElem (by simp [h.oneEach]) fun a ha ha' => ?_
  have hrecord : a < records.length := by simpa using ha
  have hantenna : a < as.length := by simpa using ha'
  obtain ⟨hchannel, hpol, hgains, hcoarse, hdelay, hfine, hlength, hdecodes⟩ :=
    h.denotes a records[a] as[a] (List.getElem?_eq_getElem hrecord) (List.getElem?_eq_getElem hantenna)
  simp only [List.getElem_map, List.getElem_zipIdx, Nat.zero_add]
  rw [checkAntenna, (channelIndex?_eq_some_iff _ _).mpr hchannel]
  simp only [polarizationOf?_eq_some hpol, hgains, if_neg (not_le.mpr (hcoarse ▸ hdelay)), readRealStream_of_decodes hlength hdecodes]
  rw [← hcoarse, ← hfine]

theorem validate_of_ready (h : BeamformReady p ants len nrows records rows samples as) :
    validate p ants len nrows records rows samples = .ok as := by
  obtain ⟨hants, hmaxAnt⟩ := h.antennas
  obtain ⟨hlen, hmaxLen⟩ := h.length
  have hnonempty : ¬ (ants = 0 ∨ len = 0) := not_or.mpr ⟨ne_zero_of_one_le_toNat hants, ne_zero_of_one_le_toNat hlen⟩
  have hlimits : ¬ (p.maxAnt < ants.toNat ∨ p.maxLen < len.toNat ∨ p.maxRows < nrows.toNat) := by
    have hmaxRows := h.rowCount
    omega
  rw [validate, if_neg hnonempty, if_neg hlimits, checkRows_of_codes h.codes]
  exact checkAntennas_of_ready h

/-- A BEAMFORM that passes every check answers with the beams of its antennas. -/
theorem beamform_of_ready (A : Arith R C) (s : State) (h : BeamformReady p ants len nrows records rows samples as) :
    beamform A p ants len nrows records rows samples s =
      s.respond (beamsPayload p.fmt (len.toNat - maxCoarse as) (beamsOf A s.bank len.toNat as)) := by
  simp only [beamform, validate_of_ready h]

/-- Every antenna has L samples. -/
theorem samples_length_of_ready (h : BeamformReady p ants len nrows records rows samples as) :
    ∀ a ∈ as, a.samples.length = len.toNat := fun a ha => (checkAntennas_ok (checkAntennas_of_ready h) a ha).2

end Beamform

/-! ## Reading a sample's words (R80) -/

/-- Where a stream holds a value and its words were written by the encoder, they decode to every value that the format keeps. -/
theorem decode_sampleWords {V : Type} [Zero V] {enc : V → List Word} {dec : List Word → Option V} {sw : Nat}
    (henc : ∀ v, (enc v).length = sw) {ys : List V} {f : Nat → V} (hys : HasValues ys f) {j : Nat} (hj : j < ys.length)
    (hkeeps : dec (enc (f j)) = some (f j)) : dec (sampleWords sw (ys.flatMap enc) j) = some (f j) := by
  have hvalue := hys j hj
  rw [List.getD_eq_getElem _ _ hj] at hvalue
  rw [sampleWords_flatMap henc hj, hvalue, hkeeps]

/-- What the host reads from a DDC's response. -/
theorem host_reads_ddc (p : Params ℝ ℂ) (s : State) {c : Configuration} {pack : FilterPack ℝ} {count len : Word}
    {tags : List TimeTag} {samples : List Word} {x : Nat → Nat → ℂ} (h : DdcReady p s c pack count len samples x)
    (htags : tags.length = len.toNat) :
    ∃ ys : List (List Word), execWith exactArith p (.ddc count len tags samples) s =
        .next (answered s (.ok (.streams count.toNat (outputLength pack len.toNat) ys))) ∧
      ∀ r < count.toNat, ∀ j < outputLength pack len.toNat,
        let v := engineValue pack c.tw (fun n => tags.getD n 0) len.toNat (x r) j
        p.fmt.KeepsC v → p.fmt.decC (sampleWords p.fmt.swC (ys.getD r []) j) = some v := by
  refine ⟨_, ddc_of_ready exactArith h tags, ?_⟩
  intro r hr j hj v hkeeps
  have hlength : tags.length = ((List.range len.toNat).map (x r)).length := by simpa using htags
  have hvalues := hasValues_engine hlength (t := fun n => tags.getD n 0) (fun _ _ => rfl) (hasValues_range_map _ (x r)) pack c.tw
  rw [List.length_map, List.length_range] at hvalues
  have hj' : j < (engine exactArith pack c.tw tags ((List.range len.toNat).map (x r))).length := by
    rw [engine_length _ _ _ hlength]
    simpa using hj
  rw [List.getD_eq_getElem _ _ (by simpa using hr), List.getElem_map, List.getElem_map, List.getElem_range]
  exact decode_sampleWords p.fmt.encC_length hvalues hj' hkeeps

/-- What the host reads from a BEAMFORM's response. -/
theorem host_reads_beamform (p : Params ℝ ℂ) (s : State) {ants len nrows : Word} {records : List AntennaRecord}
    {rows : List GainRow} {samples : List Word} {as : List (Antenna ℝ)}
    (h : BeamformReady p ants len nrows records rows samples as) :
    ∃ bx bY : List Word, execWith exactArith p (.beamform ants len nrows records rows samples) s =
        .next (answered s (.ok (.beams (len.toNat - maxCoarse as) bx bY))) ∧
      ∀ j < len.toNat - maxCoarse as,
        let v := beamXValue s.bank as (j + maxCoarse as)
        let w := beamYValue s.bank as (j + maxCoarse as)
        (p.fmt.KeepsR v → p.fmt.decR (sampleWords p.fmt.swR bx j) = some v) ∧
        (p.fmt.KeepsR w → p.fmt.decR (sampleWords p.fmt.swR bY j) = some w) := by
  have hlength := samples_length_of_ready h
  obtain ⟨hx, hy⟩ := hasValues_beamsOf hlength s.bank
  obtain ⟨hxlen, hylen⟩ := beamsOf_length exactArith (bank := s.bank) hlength
  refine ⟨_, _, congrArg _ (beamform_of_ready exactArith s h), ?_⟩
  intro j hj v w
  refine ⟨fun hkeeps => ?_, fun hkeeps => ?_⟩
  · exact decode_sampleWords p.fmt.encR_length hx (hxlen.symm ▸ hj) hkeeps
  · exact decode_sampleWords p.fmt.encR_length hy (hylen.symm ▸ hj) hkeeps

/-- Settles O60: the datapath's lists hold the values of the rules' sums, and the words of a kept value decode to it. -/
theorem hostReadsTheExactSamples : Obligations.HostReadsTheExactSamples :=
  ⟨exec_eq_execWith, fun p s _ _ _ _ _ _ _ h htags => host_reads_ddc p s h htags, fun p s _ _ _ _ _ _ _ h => host_reads_beamform p s h⟩

end Sys2Proof.Machine
end

section
/-! SUPPORT. The codecs (R100 to R107): which field each encoder answers, what each decoder reads from it, and that the
two differ by at most half of what one unit of the field stands for. -/

namespace Sys2Proof.Machine

/-! ## Packing (R11, R103) -/

theorem map_bswap16_eq_some_iff {v : Option (BitVec 16)} {c : BitVec 16} : v.map bswap16 = some c ↔ v = some (bswap16 c) := by
  rw [Option.map_eq_some_iff]
  constructor
  · rintro ⟨p, rfl, rfl⟩
    rw [bswap16_bswap16]
  · exact fun h => ⟨_, h, bswap16_bswap16 c⟩

theorem coarseDelay_eq_div (v : BitVec 16) : coarseDelay v = v.toNat / 16 := by
  have hv := v.isLt
  rw [coarseDelay, BitVec.extractLsb'_toNat, Nat.shiftRight_eq_div_pow]
  omega

theorem finePhase_eq_mod (v : BitVec 16) : (finePhase v).val = v.toNat % 16 := rfl

/-- A count of sixteenths cut into 12 and 4 bits is itself. -/
theorem coarse_append_fine (v : BitVec 16) : BitVec.ofNat 12 (v.toNat / 16) ++ BitVec.ofNat 4 (v.toNat % 16) = v := by
  rw [← coarseDelay_eq_div, ← finePhase_eq_mod]
  simp only [coarseDelay, finePhase, BitVec.val_toFin, BitVec.ofNat_toNat, BitVec.setWidth_eq]
  exact BitVec.extractLsb'_append_extractLsb' (w := 12) (len := 4)

/-! ## The fields the encoders answer (R104, R106) -/

section Encoders

variable {K : Type} [Field K] [LinearOrder K] [FloorRing K]

theorem delayField_eq_fieldOf? (fs d : K) : delayField fs d = fieldOf? 16 (roundEven (d * fs * 16 / 1000000000)) := by
  simp only [delayField, coarse_append_fine, Option.map_id']

theorem delayToEncoded_eq_some_iff {fs d : K} {c : BitVec 16} :
    delayToEncoded fs d = some c ↔ ((bswap16 c).toNat : ℤ) = roundEven (d * fs * 16 / 1000000000) := by
  rw [delayToEncoded, map_bswap16_eq_some_iff, delayField_eq_fieldOf?, fieldOf?_eq_some_iff]

theorem gainToEncoded_eq_some_iff {g : K} {c : BitVec 16} :
    gainToEncoded g = some c ↔ ¬(g < 0 ∨ 1 < g) ∧ ((bswap16 c).toNat : ℤ) = roundEven (g * 32767) := by
  rw [gainToEncoded, map_bswap16_eq_some_iff, gainField]
  split
  · rename_i hout
    simp [hout]
  · rename_i hin
    rw [fieldOf?_eq_some_iff, and_iff_right hin]

theorem gainToEncoded_eq_none {g : K} (hout : g < 0 ∨ 1 < g) : gainToEncoded g = none := by
  rw [gainToEncoded, gainField, if_pos hout, Option.map_none]

end Encoders

/-- A delay is its count of sixteenths times one unit of the packed word (R103, R105). -/
theorem encodedToDelay_eq {K : Type} [Field K] [CharZero K] (fs : K) (c : BitVec 16) :
    encodedToDelay fs c = ((bswap16 c).toNat : K) * (1000000000 / (16 * fs)) := by
  have hcount := Nat.div_add_mod (bswap16 c).toNat 16
  rw [← coarseDelay_eq_div, ← finePhase_eq_mod] at hcount
  change (((coarseDelay (bswap16 c) : ℕ) : K) + (((finePhase (bswap16 c)).val : ℕ) : K) / 16) / fs * 1000000000 = _
  rw [← hcount]
  push_cast
  field_simp

/-! ## Rounding of a scaled value (R13) -/

section Rounding

variable {K : Type} [Field K] [LinearOrder K] [IsStrictOrderedRing K] [FloorRing K]

/-- Where a code was rounded from `y` units, the code's value is at most half a unit from the value of `y` units. -/
theorem abs_code_mul_sub_le {k : ℕ} {x y lsb : K} (hk : (k : ℤ) = roundEven y) (hlsb : 0 ≤ lsb) (hx : x = y * lsb) :
    |(k : K) * lsb - x| ≤ lsb / 2 := by
  have hcast : (k : K) = roundEven y := by rw [← hk, Int.cast_natCast]
  calc |(k : K) * lsb - x| = |y - roundEven y| * lsb := by
        rw [hcast, hx, ← sub_mul, abs_mul, abs_of_nonneg hlsb, abs_sub_comm]
    _ ≤ 1 / 2 * lsb := mul_le_mul_of_nonneg_right (abs_sub_roundEven_le_half y) hlsb
    _ = lsb / 2 := by ring

/-- The rounded code of a gain in [0, 1] is in 0..32767. -/
theorem roundEven_gain_mem {g : K} (h0 : 0 ≤ g) (h1 : g ≤ 1) : 0 ≤ roundEven (g * 32767) ∧ roundEven (g * 32767) ≤ 32767 := by
  have hzero : roundEven (0 : K) = 0 := by simp [roundEven]
  have htop : roundEven (32767 : K) = 32767 := by simp [roundEven]
  constructor
  · exact hzero ▸ roundEven_mono (by positivity)
  · exact htop ▸ roundEven_mono (by linarith)

end Rounding

/-! ## The obligations of the codecs -/

/-- Settles O25: a 32-bit field holds an integer exactly when it is the field's value. -/
theorem tuningWordIsTheRoundedRatio : Obligations.TuningWordIsTheRoundedRatio := frequencyToTuningWord_eq_some_iff

/-- Settles O26: one unit of the word is `fs / 2^32`. -/
theorem tuningWordRoundTrip : Obligations.TuningWordRoundTrip := by
  intro fs f w hfs h
  have hword := (frequencyToTuningWord_eq_some_iff fs f w).mp h
  rw [tuningWordToFrequency, mul_div_assoc]
  calc |(w.toNat : ℝ) * (fs / 2 ^ 32) - f| ≤ fs / 2 ^ 32 / 2 := abs_code_mul_sub_le hword (by positivity) (by field_simp)
    _ = fs / 2 ^ 33 := by ring

/-- Settles O27: the packed word is the count of sixteenths, and its coarse and fine parts are quotient and remainder by 16. -/
theorem delayFieldPacksTheSixteenths : Obligations.DelayFieldPacksTheSixteenths := by
  intro fs d c
  rw [delayToEncoded_eq_some_iff, coarseDelay_eq_div, finePhase_eq_mod]
  exact ⟨fun h => ⟨h, h ▸ Int.natCast_div _ 16, h ▸ Int.natCast_mod _ 16⟩, fun h => h.1⟩

/-- Settles O28: one unit of the packed word is `10^9 / (16 · fs)` ns (R103). -/
theorem delayRoundTrip : Obligations.DelayRoundTrip := by
  intro fs d c hfs h
  have hcount := delayToEncoded_eq_some_iff.mp h
  rw [encodedToDelay_eq]
  calc |((bswap16 c).toNat : ℝ) * (1000000000 / (16 * fs)) - d| ≤ 1000000000 / (16 * fs) / 2 :=
        abs_code_mul_sub_le hcount (by positivity) (by field_simp)
    _ = 1000000000 / (32 * fs) := by ring

/-- Settles O29: in [0, 1] the rounded product is in 0..32767, so it is a 16-bit field. -/
theorem gainFieldIsTheRoundedProduct : Obligations.GainFieldIsTheRoundedProduct := by
  refine fun g => ⟨gainToEncoded_eq_none, fun h0 h1 => ?_⟩
  obtain ⟨hlow, hhigh⟩ := roundEven_gain_mem h0 h1
  have hcode : ((bswap16 (bswap16 (BitVec.ofInt 16 (roundEven (g * 32767))))).toNat : ℤ) = roundEven (g * 32767) := by
    rw [bswap16_bswap16, ← fieldOf?_eq_some_iff]
    exact fieldOf?_isSome 16 _ hlow (by omega)
  exact ⟨_, gainToEncoded_eq_some_iff.mpr ⟨by simp [h0, h1], hcode⟩, hcode, by omega⟩

/-- Settles O30: one unit of the code is `1 / 32767`. -/
theorem gainRoundTrip : Obligations.GainRoundTrip := by
  intro g c h
  obtain ⟨-, hcode⟩ := gainToEncoded_eq_some_iff.mp h
  rw [encodedToGain, div_eq_mul_one_div]
  calc |((bswap16 c).toNat : ℝ) * (1 / 32767) - g| ≤ 1 / 32767 / 2 :=
        abs_code_mul_sub_le hcode (by positivity) (by field_simp)
    _ = 1 / (2 * 32767) := by norm_num

end Sys2Proof.Machine
end

section
/-! SUPPORT. The delay-FIR commands (R125 to R129): which cause the shape check names, what each command does when a check fails and
when none does, and what a loaded tap is. -/

namespace Sys2Proof.Machine

/-! ## The checks (R128, R129) -/

theorem shapeCause?_of_empty {b : TapBlock} (h : b.lists = 0 ∨ b.length = 0) : shapeCause? b = some .empty := if_pos h

theorem shapeCause?_of_lists_ne {b : TapBlock} (hlists : b.lists ≠ 0) (hlength : b.length ≠ 0) (h : b.lists ≠ 16) :
    shapeCause? b = some .listCount := by
  have hcount : b.lists.toNat ≠ NPHASE := fun e => h (BitVec.eq_of_toNat_eq e)
  rw [shapeCause?, if_neg (not_or.mpr ⟨hlists, hlength⟩), if_pos hcount]

theorem shapeCause?_of_length_ne {b : TapBlock} (hlists : b.lists = 16) (hlength : b.length ≠ 0) (h : b.length ≠ 32) :
    shapeCause? b = some .listLength := by
  have hnonempty : b.lists ≠ 0 := by simp [hlists]
  have hcount : b.lists.toNat = NPHASE := congrArg BitVec.toNat hlists
  have hwidth : b.length.toNat ≠ NTAPS := fun e => h (BitVec.eq_of_toNat_eq e)
  rw [shapeCause?, if_neg (not_or.mpr ⟨hnonempty, hlength⟩), if_neg (not_not.mpr hcount), if_pos hwidth]

theorem exists_channelIndex?_eq_some {c : BitVec 16} (hlow : 1 ≤ c.toNat) (hhigh : c.toNat ≤ 520) :
    ∃ ch, channelIndex? c = some ch ∧ ch.val + 1 = c.toNat := by
  have hval : c.toNat - 1 + 1 = c.toNat := Nat.sub_add_cancel hlow
  have hindex : c.toNat - 1 < 520 := by omega
  exact ⟨⟨c.toNat - 1, hindex⟩, (channelIndex?_eq_some_iff _ _).mpr hval, hval⟩

/-! ## What the commands do (R125, R126) -/

section Commands

variable {c : BitVec 16} {ch : Fin NCHAN} {block : TapBlock} {cause : ShapeCause} (s : State)

theorem exec_dfirCh_of_no_channel (hc : channelIndex? c = none) :
    exec (.dfirCh c block) s = .next (s.raise (.invalidConfiguration .channel)) := by
  rw [exec, execDfirCh, dfirCh, hc]

theorem exec_dfirCh_of_cause (hc : channelIndex? c = some ch) (hshape : shapeCause? block = some cause) :
    exec (.dfirCh c block) s = .next (s.raise (.malformedCoefficients cause)) := by
  simp only [exec, execDfirCh, dfirCh, hc, hshape]

theorem exec_dfirCh_of_checked (hc : channelIndex? c = some ch) (hshape : shapeCause? block = none) :
    exec (.dfirCh c block) s = .next ((s.setChannel ch (channelBankOf block)).respond .empty) := by
  simp only [exec, execDfirCh, dfirCh, hc, hshape]

theorem exec_dfirAll_of_cause (hshape : shapeCause? block = some cause) :
    exec (.dfirAll block) s = .next (s.raise (.malformedCoefficients cause)) := by
  rw [exec, execDfirAll, dfirAll, hshape]

theorem exec_dfirAll_of_checked (hshape : shapeCause? block = none) :
    exec (.dfirAll block) s = .next ((s.setAllChannels (channelBankOf block)).respond .empty) := by
  rw [exec, execDfirAll, dfirAll, hshape]

/-- Either loading command, its channel in range, raises the cause that the shape check names, and writes nothing else. -/
theorem exec_dfir_of_cause {i : Instr} (hi : i = .dfirAll block ∨ (i = .dfirCh c block ∧ 1 ≤ c.toNat ∧ c.toNat ≤ 520))
    (hshape : shapeCause? block = some cause) : exec i s = .next (answered s (.error (.malformedCoefficients cause))) := by
  rcases hi with rfl | ⟨rfl, hlow, hhigh⟩
  · exact exec_dfirAll_of_cause s hshape
  · obtain ⟨ch, hc, -⟩ := exists_channelIndex?_eq_some hlow hhigh
    exact exec_dfirCh_of_cause s hc hshape

end Commands

/-! ## The loaded taps (R77, R87) -/

/-- In lists of 32 taps, tap k of list p has the flat index 32 p + k. -/
theorem tapValue_channelBankOf {b : TapBlock} (hlength : b.length = 32) (p : Fin NPHASE) (k : Fin NTAPS) :
    tapValue (channelBankOf b)[p][k] = (b.taps.getD (p.val * 32 + k.val) 0).toInt := by
  rw [channelBankOf_get, blockTap, tapValue, show b.length.toNat = 32 from congrArg BitVec.toNat hlength]

/-! ## The obligations of the delay-FIR bank -/

/-- Settles O31: the checks pass, and of the tap's channel and the written one, equal indices are equal channel numbers (R27). -/
theorem dfirChLoadsOneChannel : Obligations.DfirChLoadsOneChannel := by
  intro c block s hlow hhigh hlists hlength
  obtain ⟨written, hc, hwritten⟩ := exists_channelIndex?_eq_some hlow hhigh
  have hshape := (shapeCause?_eq_none_iff block).mpr ⟨hlists, hlength⟩
  refine ⟨_, exec_dfirCh_of_checked s hc hshape, rfl, rfl, rfl, fun ch p k => ?_⟩
  have hsame : ch = written ↔ ch.val + 1 = c.toNat := by rw [← hwritten, Nat.add_right_cancel_iff, Fin.ext_iff]
  simp only [respond_bank, setChannel_bank, bankTap_set, hsame, tapValue_channelBankOf hlength]

/-- Settles O32: the shape check passes, and every channel holds the block's filters. -/
theorem dfirAllLoadsEveryChannel : Obligations.DfirAllLoadsEveryChannel := by
  intro block s hlists hlength
  have hshape := (shapeCause?_eq_none_iff block).mpr ⟨hlists, hlength⟩
  refine ⟨_, exec_dfirAll_of_checked s hshape, rfl, rfl, rfl, fun ch p k => ?_⟩
  rw [respond_bank, setAllChannels_bank, bankTap_replicate, tapValue_channelBankOf hlength]

/-- Settles O34: DFIR.CH's channel check comes first, and both commands raise what the shape check names. -/
theorem dfirChecksRaiseInOrder : Obligations.DfirChecksRaiseInOrder := by
  intro c block s
  refine ⟨fun hout => exec_dfirCh_of_no_channel s ((channelIndex?_eq_none_iff c).mpr hout), fun i hi => ⟨?_, ?_, ?_⟩⟩
  · exact fun hempty => exec_dfir_of_cause s hi (shapeCause?_of_empty hempty)
  · exact fun hlists hlength hcount => exec_dfir_of_cause s hi (shapeCause?_of_lists_ne hlists hlength hcount)
  · exact fun hlists hlength hwidth => exec_dfir_of_cause s hi (shapeCause?_of_length_ne hlists hlength hwidth)

/-- Settles O33: DFIR.RESET has no check, and its two writes are the bank and the response. -/
theorem dfirResetRestoresTheDefaults : Obligations.DfirResetRestoresTheDefaults := fun _ => rfl

end Sys2Proof.Machine
end

section
/-! SUPPORT. The narrowband path (R140 to R148, R153): the phase of the oscillator, the number of outputs, and a constant mix. -/

namespace Sys2Proof.Machine

/-! ## The phase (R141, R145) -/

theorem ncoPhase_toNat (tw : BitVec 32) (t : TimeTag) : (ncoPhase tw t).toNat = tw.toNat * t.toNat % fullTurn :=
  BitVec.toNat_ofNat _ _

/-- Whole turns of the phase leave the oscillator value as it is. -/
theorem osc_mod_fullTurn (k : Nat) : osc (k % fullTurn) = osc k := by
  rw [osc_eq_pow (k % fullTurn), osc_eq_pow k]
  exact (pow_eq_pow_mod k osc_one_isPrimitiveRoot.pow_eq_one).symm

/-- Settles O38: whole turns do not count, and `tw / 2^32` is `fc / fs` (R102). -/
theorem ncoPhaseIsTheOscillator : Obligations.NcoPhaseIsTheOscillator := by
  intro fs tw t hfs
  have hfs' : (fs : ℂ) ≠ 0 := Complex.ofReal_ne_zero.mpr hfs.ne'
  rw [ncoPhase_toNat, osc_mod_fullTurn, osc, tuningWordToFrequency]
  congr 3
  push_cast
  field_simp

/-- Settles O39: the phases are products with the tuning word, reduced modulo a full turn. -/
theorem ncoPhaseAccumulates : Obligations.NcoPhaseAccumulates := by
  intro tw t t'
  rw [ncoPhase_toNat, ncoPhase_toNat]
  have hproduct : (tw.toNat * t'.toNat : ℤ) = tw.toNat * t.toNat + tw.toNat * (t'.toNat - t.toNat) := by ring
  push_cast [fullTurn]
  rw [Int.emod_add_emod, hproduct]

/-! ## The number of outputs (R148) -/

theorem ceilDiv_le_iff {a b n : Nat} (hb : 1 ≤ b) : ceilDiv a b ≤ n ↔ a ≤ b * n := ceilDiv_le_iff_le_mul (α := ℕ) hb

/-- Two decimations in a row are one by the product of their factors. -/
theorem ceilDiv_ceilDiv {b c : Nat} (hb : 1 ≤ b) (hc : 1 ≤ c) (a : Nat) : ceilDiv (ceilDiv a b) c = ceilDiv a (b * c) := by
  refine eq_of_forall_ge_iff fun n => ?_
  rw [ceilDiv_le_iff hc, ceilDiv_le_iff hb, ceilDiv_le_iff (Nat.mul_pos hb hc), Nat.mul_assoc]

theorem outputLength_eq_ceilDiv_totalD {R : Type} (pack : FilterPack R) (len : Nat) :
    outputLength pack len = ceilDiv len pack.totalD := by
  rw [outputLength, ceilDiv_ceilDiv pack.cicD_pos pack.firD_pos, ← pack.totalD_eq]

/-- A decimated stream holds samples of the stream, and zeros. -/
theorem decim_canonical {y : List Cyc} (hy : ∀ v ∈ y, canonicalCyc v = true) (d : Nat) :
    ∀ v ∈ cycOps.decim y d, canonicalCyc v = true := by
  intro v hv
  obtain ⟨j, -, rfl⟩ := List.mem_map.mp hv
  rw [StreamOps.sampleAt, List.getD_eq_getElem?_getD]
  cases hget : y[j * d]? with
  | none => exact zero_canonical
  | some w => exact hy w (List.mem_of_getElem? hget)

/-- Settles O42: the two decimations, and in the evaluable arithmetic the last one is of a filtered stream. -/
theorem engineOutputLength : Obligations.EngineOutputLength := by
  refine ⟨fun pack tw tags x htags => ?_, fun pack tw tags x => decim_canonical (firf_canonical _ _) _⟩
  rw [engine_length exactArith pack tw htags]
  exact ⟨rfl, outputLength_eq_ceilDiv_totalD pack x.length⟩

/-! ## A constant mix (R153) -/

/-- A stream of one value is its own mean. -/
theorem dcFreeValue_const {len : Nat} (hlen : len ≠ 0) (v : ℂ) (n : Nat) : dcFreeValue len (fun _ => v) n = 0 := by
  have hlen' : (len : ℂ) ≠ 0 := Nat.cast_ne_zero.mpr hlen
  rw [dcFreeValue, Finset.sum_const, Finset.card_range, nsmul_eq_mul, mul_div_cancel_left₀ v hlen', sub_self]

theorem firValue_zero (h : List ℝ) (n : Nat) : firValue h (fun _ => 0) n = 0 := by simp [firValue]

/-- The two decimators answer zeros on zeros. -/
theorem firOutValue_cicValue_zero (pack : FilterPack ℝ) (j : Nat) : firOutValue pack (cicValue pack fun _ => 0) j = 0 := by
  have hcic : cicValue pack (fun _ => 0) = fun _ => 0 := by
    funext i
    rw [cicValue, firValue_zero, zero_div]
  rw [hcic, firOutValue, firValue_zero]

theorem hasValues_of_forall_mem {m : List ℂ} {v : ℂ} (h : ∀ z ∈ m, z = v) : HasValues m fun _ => v := by
  intro n hn
  rw [List.getD_eq_getElem _ _ hn]
  exact h _ (List.getElem_mem hn)

/-- Without its mean a stream of one value is all zeros. -/
theorem hasValues_removeDc_const {m : List ℂ} {v : ℂ} (h : ∀ z ∈ m, z = v) : HasValues (removeDc exactArith m) fun _ => 0 := by
  intro n hn
  have hlen : m.length ≠ 0 := by
    have hlength : (removeDc exactArith m).length = m.length := by simp [removeDc]
    omega
  rw [hasValues_removeDc (hasValues_of_forall_mem h) n hn, dcFreeValue_const hlen]

/-- Settles O43: removing the mean leaves zeros, and the two decimators answer zeros on them. -/
theorem constantMixGivesZeros : Obligations.ConstantMixGivesZeros := by
  intro pack tw tags x v hmix y hy
  have hvalues := hasValues_firStage (hasValues_cicStage (hasValues_removeDc_const hmix) pack) pack
  obtain ⟨j, hj, rfl⟩ := List.mem_iff_getElem.mp hy
  rw [← List.getD_eq_getElem _ 0 hj]
  exact (hvalues j hj).trans (firOutValue_cicValue_zero pack j)

end Sys2Proof.Machine
end

section
/-! SUPPORT. The evaluable arithmetic and the block's (log entry 4): `cycValue` takes each operation of the one to that of the other,
so it takes each step of the narrowband path to the same step over the complex numbers. -/

namespace Sys2Proof.Machine

/-! ## What the operations on sums of roots of unity stand for -/

theorem osc_add (j k : Nat) : osc (j + k) = osc j * osc k := by rw [osc_eq_pow (j + k), osc_eq_pow j, osc_eq_pow k, pow_add]

/-- Half a turn changes the sign. -/
theorem osc_halfTurn : osc halfTurn = -1 := by
  have hangle : -(Complex.I * (2 * Real.pi * (halfTurn : ℕ) / 2 ^ 32)) = -(Real.pi * Complex.I) := by
    push_cast [halfTurn]
    ring
  rw [osc, hangle, Complex.exp_neg, Complex.exp_pi_mul_I, inv_neg, inv_one]

@[simp] theorem cycValue_nil : cycValue ⟨[]⟩ = 0 := rfl

@[simp] theorem cycValue_cons (e : Nat) (q : Rat) (ts : List (Nat × Rat)) :
    cycValue ⟨(e, q) :: ts⟩ = q * osc e + cycValue ⟨ts⟩ := rfl

theorem cycValue_insertTerm (e : Nat) (q : Rat) (ts : List (Nat × Rat)) :
    cycValue ⟨insertTerm e q ts⟩ = q * osc e + cycValue ⟨ts⟩ := by
  induction ts with
  | nil =>
    unfold insertTerm
    split
    · rename_i hq
      simp [hq]
    · rfl
  | cons t ts ih =>
    obtain ⟨e', q'⟩ := t
    unfold insertTerm
    split
    · split
      · rename_i hq
        simp [hq]
      · rfl
    · split
      · rename_i he
        subst he
        have hsum : (q : ℂ) * osc e + (q' * osc e + cycValue ⟨ts⟩) = ((q + q' : Rat) : ℂ) * osc e + cycValue ⟨ts⟩ := by
          push_cast
          ring
        rw [cycValue_cons, hsum]
        split
        · rename_i hq
          simp [hq]
        · rfl
      · rw [cycValue_cons, cycValue_cons, ih]
        ring

theorem cycValue_addTerm (e : Nat) (q : Rat) (ts : List (Nat × Rat)) :
    cycValue ⟨addTerm e q ts⟩ = q * osc e + cycValue ⟨ts⟩ := by
  rw [← osc_mod_fullTurn e]
  unfold addTerm
  dsimp only
  split
  · exact cycValue_insertTerm _ _ _
  · rename_i hhalf
    have hosc : osc (e % fullTurn) = osc (e % fullTurn - halfTurn) * -1 := by
      rw [← osc_halfTurn, ← osc_add, Nat.sub_add_cancel (not_lt.mp hhalf)]
    rw [cycValue_insertTerm, hosc]
    push_cast
    ring

theorem cycValue_addTerms (turn : Nat) (q : Rat) (xs ts : List (Nat × Rat)) :
    cycValue ⟨addTerms turn q xs ts⟩ = q * osc turn * cycValue ⟨xs⟩ + cycValue ⟨ts⟩ := by
  unfold addTerms
  induction xs with
  | nil => simp
  | cons x xs ih =>
    rw [List.foldr_cons, cycValue_addTerm, ih, cycValue_cons, osc_add]
    push_cast
    ring

theorem osc_zero : osc 0 = 1 := by simp [osc]

theorem cycValue_add (a b : Cyc) : cycValue (Cyc.add a b) = cycValue a + cycValue b := by
  simp [Cyc.add, cycValue_addTerms, osc_zero]

theorem cycValue_scale (q : Rat) (a : Cyc) : cycValue (Cyc.scale q a) = q * cycValue a := by
  simp [Cyc.scale, cycValue_addTerms, osc_zero]

theorem cycValue_rotate (phi : BitVec 32) (a : Cyc) : cycValue (Cyc.rotate phi a) = cycValue a * osc phi.toNat := by
  simp [Cyc.rotate, cycValue_addTerms, mul_comm (osc phi.toNat)]

/-! ## Filtering primitives under a map of samples (R17) -/

/-- A map of taps and a map of samples that take the operations of one kind of stream to those of another. -/
structure StreamOps.Hom {S K S' K' : Type} (o : StreamOps S K) (o' : StreamOps S' K') (φ : S → S') (ψ : K → K') : Prop where
  zero : ψ o.zero = o'.zero
  add : ∀ a b, ψ (o.add a b) = o'.add (ψ a) (ψ b)
  neg : ∀ a, ψ (o.neg a) = o'.neg (ψ a)
  scale : ∀ q a, ψ (o.scale q a) = o'.scale (φ q) (ψ a)

namespace StreamOps.Hom

variable {S K S' K' : Type} {o : StreamOps S K} {o' : StreamOps S' K'} {φ : S → S'} {ψ : K → K'} (h : StreamOps.Hom o o' φ ψ)

include h

theorem map_sum (xs : List K) : ψ (o.sum xs) = o'.sum (xs.map ψ) := by
  unfold StreamOps.sum
  induction xs with
  | nil => exact h.zero
  | cons x xs ih => rw [List.foldr_cons, h.add, ih, List.map_cons, List.foldr_cons]

theorem map_sub (a b : K) : ψ (o.sub a b) = o'.sub (ψ a) (ψ b) := by rw [StreamOps.sub, h.add, h.neg, StreamOps.sub]

theorem map_sampleAt (xs : List K) (n : Nat) : ψ (o.sampleAt xs n) = o'.sampleAt (xs.map ψ) n := by
  rw [StreamOps.sampleAt, StreamOps.sampleAt, ← h.zero, List.getD_map]

theorem map_term (x : List K) (n : Nat) (hk : S × Nat) : ψ (o.term x n hk) = o'.term (x.map ψ) n (φ hk.1, hk.2) := by
  unfold StreamOps.term
  split
  · rw [h.scale, h.map_sampleAt]
  · exact h.zero

theorem map_firAt (taps : List S) (x : List K) (n : Nat) : ψ (o.firAt taps x n) = o'.firAt (taps.map φ) (x.map ψ) n := by
  rw [StreamOps.firAt, h.map_sum, StreamOps.firAt, List.zipIdx_map, List.map_map, List.map_map]
  exact congrArg _ (List.map_congr_left fun hk _ => h.map_term x n hk)

theorem map_firf (taps : List S) (x : List K) : (o.firf taps x).map ψ = o'.firf (taps.map φ) (x.map ψ) := by
  rw [StreamOps.firf, StreamOps.firf, List.map_map, List.length_map]
  exact List.map_congr_left fun n _ => h.map_firAt taps x n

theorem map_decim (y : List K) (d : Nat) : (o.decim y d).map ψ = o'.decim (y.map ψ) d := by
  rw [StreamOps.decim, StreamOps.decim, List.map_map, List.length_map]
  exact List.map_congr_left fun j _ => h.map_sampleAt y (j * d)

end StreamOps.Hom

/-! ## The four steps in the two arithmetics (R140 to R147) -/

@[simp] theorem cyc_complex : cycArith.complex = cycOps := rfl

@[simp] theorem realPack_cic (pack : FilterPack Rat) : (realPack pack).cic = pack.cic := rfl

@[simp] theorem realPack_cicD (pack : FilterPack Rat) : (realPack pack).cicD = pack.cicD := rfl

/-- Rational taps and sums of roots of unity, as real taps and complex numbers. -/
theorem cycOps_hom : StreamOps.Hom cycOps complexOps (fun q : Rat => (q : ℝ)) cycValue where
  zero := cycValue_nil
  add := cycValue_add
  neg a := by
    show cycValue (Cyc.scale (-1) a) = -cycValue a
    rw [cycValue_scale]
    push_cast
    ring
  scale q a := by
    rw [complex_scale, Complex.ofReal_ratCast]
    exact cycValue_scale q a

/-- Step 1. -/
theorem map_cycValue_mix (tw : BitVec 32) (tags : List TimeTag) (x : List Cyc) :
    (mix cycArith tw tags x).map cycValue = mix exactArith tw tags (x.map cycValue) := by
  rw [mix, mix, List.map_zipWith, List.zipWith_map_right]
  refine congrArg (fun f => List.zipWith f tags x) ?_
  funext t v
  rw [exact_rotate]
  exact cycValue_rotate _ v

/-- Step 2. -/
theorem map_cycValue_removeDc (m : List Cyc) : (removeDc cycArith m).map cycValue = removeDc exactArith (m.map cycValue) := by
  have hmean : cycValue (mean cycArith m) = mean exactArith (m.map cycValue) := by
    rw [mean, mean, List.length_map, exact_complex, ← cycOps_hom.map_sum]
    exact cycOps_hom.scale _ _
  rw [removeDc, removeDc, List.map_map, List.map_map, ← hmean]
  exact List.map_congr_left fun v _ => cycOps_hom.map_sub v _

/-- Step 3. -/
theorem map_cycValue_cicStage (pack : FilterPack Rat) (d : List Cyc) :
    (cicStage cycArith pack d).map cycValue = cicStage exactArith (realPack pack) (d.map cycValue) := by
  have htaps : pack.cic.map (fun k : Int => exactArith.ofRat (k : Rat)) =
      (pack.cic.map fun k : Int => cycArith.ofRat (k : Rat)).map fun q : Rat => (q : ℝ) := (List.map_map ..).symm
  rw [cicStage, cicStage, realPack_cic, realPack_cicD, htaps, exact_complex, cyc_complex, ← cycOps_hom.map_firf,
    ← cycOps_hom.map_decim, List.map_map, List.map_map]
  exact List.map_congr_left fun v _ => cycOps_hom.scale _ v

/-- Step 4. -/
theorem map_cycValue_firStage (pack : FilterPack Rat) (c : List Cyc) :
    (firStage cycArith pack c).map cycValue = firStage exactArith (realPack pack) (c.map cycValue) :=
  (cycOps_hom.map_decim _ _).trans (congrArg (complexOps.decim · pack.firD) (cycOps_hom.map_firf _ _))

/-- The per-stream function. -/
theorem map_cycValue_engine (pack : FilterPack Rat) (tw : BitVec 32) (tags : List TimeTag) (x : List Cyc) :
    (engine cycArith pack tw tags x).map cycValue = engine exactArith (realPack pack) tw tags (x.map cycValue) := by
  rw [engine, map_cycValue_firStage, map_cycValue_cicStage, map_cycValue_removeDc, map_cycValue_mix]
  rfl

/-- Outside a stream both arithmetics read 0. -/
theorem getD_map_cycValue (x : List Cyc) (n : Nat) : (x.map cycValue).getD n 0 = cycValue (x.getD n ⟨[]⟩) :=
  List.getD_map x ⟨[]⟩ cycValue

/-- Settles O40: the block's outputs hold the values of the rules' sums, and the evaluable arithmetic's stand for the block's. -/
theorem engineComputesTheFourSteps : Obligations.EngineComputesTheFourSteps := by
  refine ⟨fun pack tw tags x j htags => hasValues_engine htags (fun _ _ => rfl) (fun _ _ => rfl) pack tw j,
    fun pack tw tags x j htags hj => ?_⟩
  have hvalues := hasValues_engine (t := fun n => tags.getD n 0) (f := fun n => cycValue (x.getD n ⟨[]⟩))
    (htags.trans (List.length_map cycValue).symm) (fun _ _ => rfl) (fun n _ => getD_map_cycValue x n) (realPack pack) tw
  rw [← map_cycValue_engine, List.length_map] at hvalues
  exact (getD_map_cycValue _ j).symm.trans (hvalues j (by rwa [List.length_map]))

end Sys2Proof.Machine
end

section
/-! SUPPORT. DDC (R149 to R151): what each check raises, that no other outcome than an error or the answer of a batch whose checks
all pass is left, and a stream of a batch as a batch of its own. -/

namespace Sys2Proof.Machine

/-! ## The checks (R149, R228) -/

section Streams

variable {R C : Type} {fmt : SampleFormat R C} {samples : List Word} {count len r : Nat}

theorem readComplexStream_eq_none_iff : readComplexStream fmt samples len r = none ↔
    ∃ n < len, fmt.decC (sampleWords fmt.swC samples (r * len + n)) = none := by
  simp [readComplexStream, allSome_eq_none_iff]

/-- The first stream with an undecodable sample is the one that is reported. -/
theorem readStreams_of_first_undecodable (hr : r < count) (hnone : readComplexStream fmt samples len r = none)
    (hbefore : ∀ r' < r, readComplexStream fmt samples len r' ≠ none) :
    readStreams fmt samples count len = .error (.processingFailure .undecodableSample r) := by
  rw [readStreams, collect_eq_error_iff]
  refine ⟨r, by simp [hr, hnone], fun r' hr' => ?_⟩
  obtain ⟨x, hx⟩ := Option.ne_none_iff_exists'.mp (hbefore r' hr')
  exact ⟨x, by simp [hr'.trans hr, hx]⟩

/-- Streams that are read hold no undecodable sample. -/
theorem decodes_of_readStreams_ok {xs : List (List C)} (h : readStreams fmt samples count len = .ok xs) (hr : r < count) :
    ∀ n < len, fmt.decC (sampleWords fmt.swC samples (r * len + n)) ≠ none := by
  intro n hn hnone
  have hread : readComplexStream fmt samples len r = none := readComplexStream_eq_none_iff.mpr ⟨n, hn, hnone⟩
  have hmem : Except.error (.processingFailure .undecodableSample r) ∈ xs.map (Except.ok (ε := CommandError)) := by
    rw [← (collect_eq_ok_iff _ _).mp h]
    exact List.mem_map.mpr ⟨r, List.mem_range.mpr hr, by rw [hread]⟩
  simp at hmem

end Streams

section Checks

variable {R C : Type} (A : Arith R C) {p : Params R C} {s : State} {c : Configuration} {count len : Word} (tags : List TimeTag)
  {samples : List Word}

theorem ddc_of_unconfigured (h : s.config = none) :
    ddc A p count len tags samples s = .next (s.raise (.invalidConfiguration .notConfigured)) := by
  simp only [ddc, h]

theorem ddc_of_empty (hc : s.config = some c) (h : count = 0 ∨ len = 0) :
    ddc A p count len tags samples s = .next (s.raise (.processingFailure .emptyBatch 0)) := by
  simp only [ddc, hc, if_pos h]

theorem ddc_of_tooLarge (hc : s.config = some c) (hnonempty : ¬(count = 0 ∨ len = 0))
    (h : p.maxStreams < count.toNat ∨ p.maxLen < len.toNat) :
    ddc A p count len tags samples s = .next (s.raise (.processingFailure .tooLarge 0)) := by
  simp only [ddc, hc, if_neg hnonempty, if_pos h]

theorem ddc_of_readStreams_error (hc : s.config = some c) (hnonempty : ¬(count = 0 ∨ len = 0))
    (hlimits : ¬(p.maxStreams < count.toNat ∨ p.maxLen < len.toNat)) {e : CommandError}
    (h : readStreams p.fmt samples count.toNat len.toNat = .error e) :
    ddc A p count len tags samples s = .next (s.raise e) := by
  simp only [ddc, hc, if_neg hnonempty, if_neg hlimits, h]

end Checks

/-- Settles O37: the checks in their order, each past those before it. -/
theorem ddcChecksRaiseInOrder : Obligations.DdcChecksRaiseInOrder := by
  refine ⟨exec_eq_execWith, fun p s count len tags samples => ⟨ddc_of_unconfigured exactArith tags, fun hconfig => ?_⟩⟩
  obtain ⟨c, hc⟩ := Option.ne_none_iff_exists'.mp hconfig
  refine ⟨ddc_of_empty exactArith tags hc, fun hcount hlen => ddc_of_tooLarge exactArith tags hc (not_or.mpr ⟨hcount, hlen⟩), ?_⟩
  intro r n hcount hlen hmaxStreams hmaxLen hr hn hnone hbefore
  have hread := readStreams_of_first_undecodable hr (readComplexStream_eq_none_iff.mpr ⟨n, hn, hnone⟩) fun r' hr' hnone' => by
    obtain ⟨n', hn', hdec⟩ := readComplexStream_eq_none_iff.mp hnone'
    exact hbefore r' hr' n' hn' hdec
  exact ddc_of_readStreams_error exactArith tags hc (not_or.mpr ⟨hcount, hlen⟩)
    (not_or.mpr ⟨not_lt.mpr hmaxStreams, not_lt.mpr hmaxLen⟩) hread

/-! ## Every outcome of a DDC (R149) -/

/-- Settles O36: `ddc_of_ready` at the block's arithmetic and parameters. -/
theorem ddcAnswersEachStream : Obligations.DdcAnswersEachStream := fun _ _ _ _ _ tags _ _ h => ddc_of_ready exactArith h tags

/-- What a DDC does, of all states with one configuration at once: each raises the same error, or the pair has no pack, or each
passes every check with the same samples. -/
theorem ddc_cases {R C : Type} [Inhabited C] (A : Arith R C) (p : Params R C) (count len : Word) (tags : List TimeTag)
    (samples : List Word) (config : Option Configuration) :
    (∃ e, ∀ s, s.config = config → ddc A p count len tags samples s = .next (s.raise e)) ∨
    (∃ c, config = some c ∧ packOf? p.filterTable c.mode c.filter = none ∧
      ∀ s, s.config = config → ddc A p count len tags samples s = .fault .noFilterPack) ∨
    (∃ c pack x, ∀ s, s.config = config → DdcReady p s c pack count len samples x) := by
  cases config with
  | none => exact .inl ⟨_, fun s hs => ddc_of_unconfigured A tags hs⟩
  | some c =>
    by_cases hnonempty : count = 0 ∨ len = 0
    · exact .inl ⟨_, fun s hs => ddc_of_empty A tags hs hnonempty⟩
    by_cases hlimits : p.maxStreams < count.toNat ∨ p.maxLen < len.toNat
    · exact .inl ⟨_, fun s hs => ddc_of_tooLarge A tags hs hnonempty hlimits⟩
    cases hread : readStreams p.fmt samples count.toNat len.toNat with
    | error e => exact .inl ⟨e, fun s hs => ddc_of_readStreams_error A tags hs hnonempty hlimits hread⟩
    | ok xs =>
      cases hpack : packOf? p.filterTable c.mode c.filter with
      | none =>
        refine .inr (.inl ⟨c, rfl, hpack, fun s hs => ?_⟩)
        simp only [ddc, hs, if_neg hnonempty, if_neg hlimits, hread, hpack]
      | some pack =>
        obtain ⟨hcount, hlen⟩ := not_or.mp hnonempty
        obtain ⟨hmaxStreams, hmaxLen⟩ := not_or.mp hlimits
        refine .inr (.inr ⟨c, pack, fun r n => (p.fmt.decC (sampleWords p.fmt.swC samples (r * len.toNat + n))).getD default, ?_⟩)
        intro s hs
        exact {
          configured := hs
          hasPack := hpack
          streams := ⟨one_le_toNat hcount, not_lt.mp hmaxStreams⟩
          length := ⟨one_le_toNat hlen, not_lt.mp hmaxLen⟩
          decodes := fun r hr n hn => by
            obtain ⟨v, hv⟩ := Option.ne_none_iff_exists'.mp (decodes_of_readStreams_ok hread hr n hn)
            rw [hv, Option.getD_some] }

/-! ## Only the configuration is read (R33, R149) -/

/-- The configured pair of a valid configuration has a pack. -/
theorem packOf?_ne_none_of_configOk {R C : Type} {p : Params R C} {s : State} {c : Configuration} (h : configOk p s = true)
    (hc : s.config = some c) : packOf? p.filterTable c.mode c.filter ≠ none :=
  packOf?_ne_none_of_inv (s := { s with responsePort := [] }) (inv_iff.mpr ⟨h, List.forall_mem_nil _⟩) hc

/-- Settles O46: each case of `ddc_cases` is about all states with one configuration. -/
theorem ddcReadsOnlyTheConfiguration : Obligations.DdcReadsOnlyTheConfiguration := by
  intro s s' count len tags samples hconfig hvalid
  obtain ⟨e, hraise⟩ | ⟨c, hc, hpack, -⟩ | ⟨c, pack, x, hready⟩ :=
    ddc_cases exactArith Config.params count len tags samples s'.config
  · exact ⟨.error e, hraise s hconfig, hraise s' rfl⟩
  · exact absurd hpack (packOf?_ne_none_of_configOk hvalid (hconfig.trans hc))
  · exact ⟨.ok _, ddc_of_ready exactArith (hready s hconfig) tags, ddc_of_ready exactArith (hready s' rfl) tags⟩

/-! ## The streams of a batch, sent one by one (R150, R151) -/

theorem answered_injective (s : State) {r r' : Response} (h : answered s r = answered s r') : r = r' :=
  List.singleton_injective (List.append_cancel_left (congrArg State.responsePort h))

/-- A DDC that answers OK has passed every check. -/
theorem exists_ready_of_ddc_ok {R C : Type} [Inhabited C] (A : Arith R C) {p : Params R C} {s : State} {count len : Word}
    {tags : List TimeTag} {samples : List Word} {payload : Payload}
    (h : ddc A p count len tags samples s = .next (answered s (.ok payload))) :
    ∃ c pack x, DdcReady p s c pack count len samples x := by
  obtain ⟨e, hraise⟩ | ⟨c, -, -, hfault⟩ | ⟨c, pack, x, hready⟩ := ddc_cases A p count len tags samples s.config
  · have hresponse := answered_injective s (Host.Outcome.next.inj ((hraise s rfl).symm.trans h))
    cases hresponse
  · cases (hfault s rfl).symm.trans h
  · exact ⟨c, pack, x, hready s rfl⟩

/-- Among the words of one stream cut out of a batch, sample n is sample n of that stream. -/
theorem sampleWords_stream (sw : Nat) (samples : List Word) (r : Nat) {len n : Nat} (hn : n < len) :
    sampleWords sw ((samples.drop (r * len * sw)).take (len * sw)) n = sampleWords sw samples (r * len + n) := by
  have hfits : n * sw + sw ≤ len * sw := by
    rw [← Nat.succ_mul]
    exact Nat.mul_le_mul_right sw hn
  rw [sampleWords, sampleWords, List.drop_take, List.take_take, List.drop_drop, Nat.add_mul, Nat.min_eq_left (by omega)]

/-- A stream of a batch that passes every check is a batch of one stream that does. -/
theorem ddcReady_stream {R C : Type} {p : Params R C} {s : State} {c : Configuration} {pack : FilterPack R} {count len : Word}
    {samples : List Word} {x : Nat → Nat → C} (h : DdcReady p s c pack count len samples x) {r : Nat} (hr : r < count.toNat) :
    DdcReady p s c pack 1 len ((samples.drop (r * len.toNat * p.fmt.swC)).take (len.toNat * p.fmt.swC)) fun _ => x r where
  configured := h.configured
  hasPack := h.hasPack
  streams := ⟨le_rfl, p.maxStreams_pos⟩
  length := h.length
  decodes r' hr' n hn := by
    obtain rfl : r' = 0 := Nat.lt_one_iff.mp hr'
    rw [Nat.zero_mul, Nat.zero_add, sampleWords_stream _ _ _ hn]
    exact h.decodes r hr n hn

/-- Settles O44: the batch passed every check, so each of its streams does alone, and both answers are given by the samples. -/
theorem ddcBatchIsItsStreamsOneByOne : Obligations.DdcBatchIsItsStreamsOneByOne := by
  intro s count len tags samples n lout ys h
  obtain ⟨c, pack, x, hready⟩ := exists_ready_of_ddc_ok exactArith h
  have hresponse := answered_injective s (Host.Outcome.next.inj (h.symm.trans (ddc_of_ready exactArith hready tags)))
  obtain ⟨rfl, rfl, rfl⟩ := Payload.streams.inj (Response.ok.inj hresponse)
  refine ⟨rfl, by simp, fun r hr => (ddc_of_ready exactArith (ddcReady_stream hready hr) tags).trans ?_⟩
  rw [List.getD_eq_getElem _ _ (by simpa using hr), List.getElem_map, List.getElem_map, List.getElem_range]
  rfl

end Sys2Proof.Machine
end

section
/-! SUPPORT. BEAMFORM (R170 to R181): that its answer is its checks' error or its antennas' beams, what each check raises, and what
the beams are as weighted sums: in any order of the antennas, without an excluded one, and of one antenna under the unit impulse. -/

namespace Sys2Proof.Machine

/-! ## The two outcomes (R177) -/

section Outcomes

variable {R C : Type} (A : Arith R C) {p : Params R C} {ants len nrows : Word} {records : List AntennaRecord} {rows : List GainRow}
  {samples : List Word}

theorem beamform_of_validate_error (s : State) {e : CommandError} (h : validate p ants len nrows records rows samples = .error e) :
    beamform A p ants len nrows records rows samples s = s.raise e := by
  simp only [beamform, h]

theorem beamform_of_validate_ok (s : State) {as : List (Antenna R)} (h : validate p ants len nrows records rows samples = .ok as) :
    beamform A p ants len nrows records rows samples s =
      s.respond (beamsPayload p.fmt (len.toNat - maxCoarse as) (beamsOf A s.bank len.toNat as)) := by
  simp only [beamform, h]

end Outcomes

/-- Settles O47: `beamform_of_ready` at the block's arithmetic and parameters. -/
theorem beamformAnswersItsBeams : Obligations.BeamformAnswersItsBeams :=
  fun s _ _ _ _ _ _ _ h => congrArg _ (beamform_of_ready exactArith s h)

/-- Settles O54: the checks read the frame alone, and the beams read `BANK` beside it. -/
theorem beamformReadsOnlyTheBank : Obligations.BeamformReadsOnlyTheBank := by
  intro s s' ants len nrows records rows samples hbank
  cases hvalidate : validate Config.params ants len nrows records rows samples with
  | error e =>
    exact ⟨.error e, congrArg _ (beamform_of_validate_error exactArith s hvalidate),
      congrArg _ (beamform_of_validate_error exactArith s' hvalidate)⟩
  | ok as =>
    refine ⟨.ok _, congrArg _ (beamform_of_validate_ok exactArith s hvalidate), ?_⟩
    rw [hbank]
    exact congrArg _ (beamform_of_validate_ok exactArith s' hvalidate)

/-! ## The checks (R179, R228) -/

/-- Where an item fails its check and every item before it passes, the list of checks fails with that item's error. -/
theorem collect_zipIdx_of_first_error {ε α β : Type} {check : α → Nat → Except ε β} {xs : List α} {n : Nat} {x : α} {e : ε}
    (hx : xs[n]? = some x) (herror : check x n = .error e)
    (hbefore : ∀ m x', m < n → xs[m]? = some x' → ∃ b, check x' m = .ok b) :
    collect (xs.zipIdx.map (fun xi => check xi.1 xi.2)) = .error e := by
  rw [collect_eq_error_iff]
  obtain ⟨hn, -⟩ := List.getElem?_eq_some_iff.mp hx
  refine ⟨n, by simp [hx, herror], fun m hm => ?_⟩
  have hm' : m < xs.length := hm.trans hn
  obtain ⟨b, hb⟩ := hbefore m xs[m] hm (List.getElem?_eq_getElem hm')
  exact ⟨b, by simp [hm', hb]⟩

/-- The first gain row with a code above 32767 is the one that is reported. -/
theorem checkRows_of_first_code_above {rows : List GainRow} {g : Nat} {row : GainRow} (hrow : rows[g]? = some row)
    (habove : 32767 < row.xx.toNat ∨ 32767 < row.xy.toNat ∨ 32767 < row.yx.toNat ∨ 32767 < row.yy.toNat)
    (hbefore : ∀ g' row', g' < g → rows[g']? = some row' →
      row'.xx.toNat ≤ 32767 ∧ row'.xy.toNat ≤ 32767 ∧ row'.yx.toNat ≤ 32767 ∧ row'.yy.toNat ≤ 32767) :
    checkRows rows = .error (.processingFailure .gainCode g) := by
  refine collect_zipIdx_of_first_error hrow (if_pos habove) fun g' row' hlt hrow' => ⟨row', if_neg ?_⟩
  have hcodes := hbefore g' row' hlt hrow'
  simp only [GAIN_SCALE]
  omega

section Checks

variable {R C : Type} {fmt : SampleFormat R C} {len : Nat} {rows : List GainRow} {samples : List Word}

theorem any_undecodable_iff {a : Nat} :
    (List.range len).any (fun n => (fmt.decR (sampleWords fmt.swR samples (a * len + n))).isNone) = true ↔
      readRealStream fmt samples len a = none := by
  simp [readRealStream, allSome_eq_none_iff]

/-- The checks on an antenna fail with the first failure's reason, and pass where there is none. -/
theorem checkAntenna_cases (fmt : SampleFormat R C) (len : Nat) (rows : List GainRow) (samples : List Word) (rec : AntennaRecord)
    (a : Nat) :
    (∃ reason, firstFailure fmt len rows.length samples rec a = some reason ∧
      checkAntenna fmt len rows samples rec a = .error (.processingFailure reason a)) ∨
    (firstFailure fmt len rows.length samples rec a = none ∧ ∃ an, checkAntenna fmt len rows samples rec a = .ok an) := by
  simp only [firstFailure, ← channelIndex?_eq_none_iff, ← polarizationOf?_eq_none_iff, ← List.getElem?_eq_none_iff,
    any_undecodable_iff, checkAntenna]
  cases channelIndex? rec.channel with
  | none => exact .inl ⟨_, rfl, rfl⟩
  | some channel =>
    cases polarizationOf? rec.pol with
    | none => exact .inl ⟨_, rfl, rfl⟩
    | some pol =>
      cases rows[rec.stand.toNat]? with
      | none => exact .inl ⟨_, rfl, rfl⟩
      | some gains =>
        by_cases hcoarse : len ≤ coarseDelay rec.delay
        · exact .inl ⟨_, if_pos hcoarse, if_pos hcoarse⟩
        · simp only [if_neg hcoarse]
          cases readRealStream fmt samples len a with
          | none => exact .inl ⟨_, rfl, rfl⟩
          | some x => exact .inr ⟨rfl, _, rfl⟩

/-- The first antenna that fails a check is the one that is reported, with the first check it fails. -/
theorem checkAntennas_of_first_failure {records : List AntennaRecord} {a : Nat} {rec : AntennaRecord} {reason : FailureReason}
    (hrec : records[a]? = some rec) (hfails : firstFailure fmt len rows.length samples rec a = some reason)
    (hbefore : ∀ a' rec', a' < a → records[a']? = some rec' → firstFailure fmt len rows.length samples rec' a' = none) :
    checkAntennas fmt len rows samples records = .error (.processingFailure reason a) := by
  refine collect_zipIdx_of_first_error hrec ?_ fun a' rec' hlt hrec' => ?_
  · obtain ⟨reason', hfails', herror⟩ | ⟨hnone, -⟩ := checkAntenna_cases fmt len rows samples rec a
    · obtain rfl : reason' = reason := Option.some.inj (hfails'.symm.trans hfails)
      exact herror
    · cases hnone.symm.trans hfails
  · obtain ⟨reason', hfails', -⟩ | ⟨-, hok⟩ := checkAntenna_cases fmt len rows samples rec' a'
    · cases (hbefore a' rec' hlt hrec').symm.trans hfails'
    · exact hok

end Checks

section Validate

variable {R C : Type} {p : Params R C} {ants len nrows : Word} (records : List AntennaRecord) {rows : List GainRow}
  (samples : List Word) {e : CommandError}

theorem validate_of_empty (rows : List GainRow) (h : ants = 0 ∨ len = 0) :
    validate p ants len nrows records rows samples = .error (.processingFailure .emptyBatch 0) := if_pos h

theorem validate_of_tooLarge (rows : List GainRow) (hants : ants ≠ 0) (hlen : len ≠ 0)
    (h : p.maxAnt < ants.toNat ∨ p.maxLen < len.toNat ∨ p.maxRows < nrows.toNat) :
    validate p ants len nrows records rows samples = .error (.processingFailure .tooLarge 0) := by
  rw [validate, if_neg (not_or.mpr ⟨hants, hlen⟩), if_pos h]

/-- Past the checks on the counts, the rows decide. -/
theorem validate_of_checkRows_error (hants : ants ≠ 0) (hlen : len ≠ 0)
    (hlimits : ¬(p.maxAnt < ants.toNat ∨ p.maxLen < len.toNat ∨ p.maxRows < nrows.toNat)) (h : checkRows rows = .error e) :
    validate p ants len nrows records rows samples = .error e := by
  rw [validate, if_neg (not_or.mpr ⟨hants, hlen⟩), if_neg hlimits, h]

/-- Past the checks on the rows, the antennas decide. -/
theorem validate_of_checkRows_ok (hants : ants ≠ 0) (hlen : len ≠ 0)
    (hlimits : ¬(p.maxAnt < ants.toNat ∨ p.maxLen < len.toNat ∨ p.maxRows < nrows.toNat)) (h : checkRows rows = .ok rows) :
    validate p ants len nrows records rows samples = checkAntennas p.fmt len.toNat rows samples records := by
  rw [validate, if_neg (not_or.mpr ⟨hants, hlen⟩), if_neg hlimits, h]

end Validate

/-- Settles O52: the checks in their order, each past those before it. -/
theorem beamformChecksRaiseInOrder : Obligations.BeamformChecksRaiseInOrder := by
  refine ⟨exec_eq_execWith, fun p s ants len nrows records rows samples => ?_⟩
  have raises {e : CommandError} (h : validate p ants len nrows records rows samples = .error e) :
      execWith exactArith p (.beamform ants len nrows records rows samples) s = .next (answered s (.error e)) :=
    congrArg _ (beamform_of_validate_error exactArith s h)
  refine ⟨fun hempty => raises (validate_of_empty records samples rows hempty), fun hants hlen =>
    ⟨fun hlarge => raises (validate_of_tooLarge records samples rows hants hlen hlarge), fun hmaxAnt hmaxLen hmaxRows => ?_⟩⟩
  have hlimits : ¬(p.maxAnt < ants.toNat ∨ p.maxLen < len.toNat ∨ p.maxRows < nrows.toNat) := by omega
  refine ⟨fun g row hrow habove hbefore => raises ?_, fun hcodes a rec reason hrec hfails hbefore => raises ?_⟩
  · exact validate_of_checkRows_error records samples hants hlen hlimits (checkRows_of_first_code_above hrow habove hbefore)
  · rw [validate_of_checkRows_ok records samples hants hlen hlimits (checkRows_of_codes hcodes)]
    exact checkAntennas_of_first_failure hrec hfails hbefore

/-! ## The beams as weighted sums (R172 to R176, R178) -/

/-- Settles O48: the beams have their lengths and hold the values of the sums. -/
theorem beamsAreTheWeightedSums : Obligations.BeamsAreTheWeightedSums := by
  intro bank len ants hants
  have hlength : ∀ a ∈ ants, a.samples.length = len := fun a ha => (hants a ha).1
  obtain ⟨hxlen, hylen⟩ := beamsOf_length exactArith (bank := bank) hlength
  obtain ⟨hx, hy⟩ := hasValues_beamsOf hlength bank
  exact ⟨hxlen, hylen, fun j hj => ⟨hx j (hxlen.symm ▸ hj), hy j (hylen.symm ▸ hj)⟩⟩

/-- A stream is the list of its values. -/
theorem eq_range_map_of_hasValues {K : Type} [Zero K] {xs : List K} {f : Nat → K} {n : Nat} (hlength : xs.length = n)
    (h : HasValues xs f) : xs = (List.range n).map f :=
  (map_range_eq_of_getElem hlength fun i hi => by rw [← h i hi, List.getD_eq_getElem _ _ hi]).symm

/-- The two beams as lists of the sums. -/
theorem beamsOf_eq_range_map {as : List (Antenna ℝ)} {len : Nat} (has : ∀ a ∈ as, a.samples.length = len) (bank : Bank) :
    beamsOf exactArith bank len as =
      ⟨(List.range (len - maxCoarse as)).map fun j => beamXValue bank as (j + maxCoarse as),
        (List.range (len - maxCoarse as)).map fun j => beamYValue bank as (j + maxCoarse as)⟩ := by
  obtain ⟨hxlen, hylen⟩ := beamsOf_length exactArith (bank := bank) has
  obtain ⟨hx, hy⟩ := hasValues_beamsOf has bank
  exact congrArg₂ Beams.mk (eq_range_map_of_hasValues hxlen hx) (eq_range_map_of_hasValues hylen hy)

theorem maxCoarse_perm {R : Type} {as bs : List (Antenna R)} (h : as.Perm bs) : maxCoarse as = maxCoarse bs :=
  have : LeftCommutative fun (a : Antenna R) (m : Nat) => max a.coarse m := ⟨fun a b m => max_left_comm a.coarse b.coarse m⟩
  h.foldr_eq 0

theorem beamXValue_perm (bank : Bank) {as bs : List (Antenna ℝ)} (h : as.Perm bs) (n : Nat) :
    beamXValue bank as n = beamXValue bank bs n := (h.map _).sum_eq

theorem beamYValue_perm (bank : Bank) {as bs : List (Antenna ℝ)} (h : as.Perm bs) (n : Nat) :
    beamYValue bank as n = beamYValue bank bs n := (h.map _).sum_eq

/-- Settles O49: the largest delay and the sums are those of any order. -/
theorem beamsDoNotDependOnAntennaOrder : Obligations.BeamsDoNotDependOnAntennaOrder := by
  intro bank len ants ants' hlength hperm
  have hlength' : ∀ a ∈ ants', a.samples.length = len := fun a ha => hlength a (hperm.mem_iff.mpr ha)
  rw [beamsOf_eq_range_map hlength, beamsOf_eq_range_map hlength', maxCoarse_perm hperm]
  simp only [beamXValue_perm bank hperm, beamYValue_perm bank hperm]

/-! ## An excluded antenna (R174, R180) -/

theorem addAntenna_of_zeroRow {R C : Type} (A : Arith R C) (bank : Bank) (b : Beams R) {a : Antenna R} (h : zeroRow a.gains = true) :
    addAntenna A bank b a = b := if_pos h

theorem maxCoarse_append_cons {R : Type} (before after : List (Antenna R)) (a : Antenna R) :
    maxCoarse (before ++ a :: after) = max a.coarse (maxCoarse (before ++ after)) := maxCoarse_perm List.perm_middle

/-- Settles O50: the antenna adds nothing to the running sums, and its delay is not the largest alone. -/
theorem zeroRowExcludesTheAntenna : Obligations.ZeroRowExcludesTheAntenna := by
  intro bank len before after a hxx hxy hyx hyy hcoarse
  have hzero : zeroRow a.gains = true := by simp [zeroRow, hxx, hxy, hyx, hyy]
  have hmax : maxCoarse (before ++ a :: after) = maxCoarse (before ++ after) := by
    rw [maxCoarse_append_cons, max_eq_right hcoarse]
  have hsums : sumAntennas exactArith bank len (before ++ a :: after) = sumAntennas exactArith bank len (before ++ after) := by
    simp only [sumAntennas, List.foldl_append, List.foldl_cons, addAntenna_of_zeroRow exactArith bank _ hzero]
  rw [beamsOf, beamsOf, hmax, hsums]

/-! ## One antenna under the unit impulse (R181) -/

/-- The unit impulse leaves the shifted samples as they are. -/
theorem streamValue_of_impulse {bank : Bank} {a : Antenna ℝ}
    (h : ∀ k : Fin NTAPS, bankTap bank a.channel a.fine k = if k.val = 0 then 32767 else 0) (n : Nat) :
    streamValue bank a n = a.samples.getD (((n : Int) - a.coarse) % (a.samples.length : Int)).toNat 0 := by
  rw [streamValue, Finset.sum_eq_single 0]
  · simp [h]
  · intro k _ hk
    have hk' : k.val ≠ 0 := fun hzero => hk (Fin.ext hzero)
    simp [h, hk']
  · exact fun hnot => absurd (Finset.mem_univ 0) hnot

/-- The antenna of R181. -/
def passAntenna (ch : Fin NCHAN) (x : List ℝ) : Antenna ℝ := ⟨ch, .x, ⟨32767, 0, 0, 0⟩, 0, 0, x⟩

theorem gainValues_passAntenna (ch : Fin NCHAN) (x : List ℝ) : gainValues (passAntenna ch x) = (1, 0) := by
  have hcode : (32767 : BitVec 16).toNat = 32767 := rfl
  norm_num [gainValues, passAntenna, hcode]

theorem maxCoarse_passAntenna (ch : Fin NCHAN) (x : List ℝ) : maxCoarse [passAntenna ch x] = 0 := rfl

section PassAntenna

variable {bank : Bank} {ch : Fin NCHAN}

theorem streamValue_passAntenna (himpulse : ∀ k : Fin NTAPS, bankTap bank ch 0 k = if k.val = 0 then 32767 else 0) {x : List ℝ}
    {n : Nat} (hn : n < x.length) : streamValue bank (passAntenna ch x) n = x[n] := by
  rw [streamValue_of_impulse (a := passAntenna ch x) himpulse]
  simp only [passAntenna, Nat.cast_zero, sub_zero]
  rw [Int.emod_eq_of_lt (by omega) (by omega), Int.toNat_natCast, List.getD_eq_getElem _ _ hn]

/-- Its beams are its samples and zeros. -/
theorem beamsOf_passAntenna (himpulse : ∀ k : Fin NTAPS, bankTap bank ch 0 k = if k.val = 0 then 32767 else 0) (x : List ℝ) :
    beamsOf exactArith bank x.length [passAntenna ch x] = ⟨x, List.replicate x.length 0⟩ := by
  have hlength : ∀ a ∈ [passAntenna ch x], a.samples.length = x.length := List.forall_mem_singleton.mpr rfl
  rw [beamsOf_eq_range_map hlength, maxCoarse_passAntenna]
  refine congrArg₂ Beams.mk (map_range_eq_of_getElem rfl fun n hn => ?_) ?_
  · simp [beamXValue, gainValues_passAntenna, streamValue_passAntenna himpulse hn]
  · simp [beamYValue, gainValues_passAntenna]

end PassAntenna

/-- The command of R181 passes every check. -/
theorem beamformReady_passAntenna {C : Type} {p : Params ℝ C} {c : BitVec 16} {ch : Fin NCHAN} {len : Word} {samples : List Word}
    {x : List ℝ} (hchannel : ch.val + 1 = c.toNat) (hlen : 1 ≤ len.toNat) (hmaxLen : len.toNat ≤ p.maxLen)
    (hx : x.length = len.toNat) (hdecodes : ∀ n < len.toNat, p.fmt.decR (sampleWords p.fmt.swR samples n) = some (x.getD n 0)) :
    BeamformReady p 1 len 1 [⟨c, 0, 0, 0⟩] [⟨32767, 0, 0, 0⟩] samples [passAntenna ch x] where
  antennas := ⟨le_rfl, p.maxAnt_pos⟩
  length := ⟨hlen, hmaxLen⟩
  rowCount := p.maxRows_pos
  codes := by decide
  oneEach := rfl
  denotes a rec an hrec han := by
    obtain rfl : a = 0 := Nat.lt_one_iff.mp (List.getElem?_eq_some_iff.mp hrec).fst
    obtain rfl := Option.some.inj hrec
    obtain rfl := Option.some.inj han
    have hcoarse : coarseDelay 0 = 0 := by decide
    have hfine : finePhase 0 = 0 := by decide
    refine ⟨hchannel, .inl ⟨rfl, rfl⟩, rfl, hcoarse.symm, hlen, hfine.symm, hx, fun n hn => ?_⟩
    rw [Nat.zero_mul, Nat.zero_add]
    exact hdecodes n hn

/-- Settles O51: the command passes every check, and its beams are the samples and zeros. -/
theorem singleAntennaPassesThrough : Obligations.SingleAntennaPassesThrough := by
  intro s c ch len samples x hchannel himpulse hlen hmaxLen hx hdecodes
  have hready := beamformReady_passAntenna hchannel hlen hmaxLen hx hdecodes
  rw [beamformAnswersItsBeams s _ _ _ _ _ _ _ hready, ← hx, beamsOf_passAntenna himpulse x]
  rfl

end Sys2Proof.Machine
end

section
/-! SUPPORT. The configuration commands (R200 to R206): the validity predicates, what each command answers when one of its checks
fails and when none does, and what it leaves of the configuration. -/

namespace Sys2Proof.Machine

/-! ## Validity (R204) -/

section Validity

variable {R C : Type} (p : Params R C)

theorem validTW_iff (w : Word) : validTW p w = true ↔ p.twMin.toNat ≤ w.toNat ∧ w.toNat ≤ p.twMax.toNat := decide_eq_true_iff

theorem validFilter_iff (m : Mode) (f : BitVec 8) : validFilter m f = true ↔
    (m = .tbn ∧ (f = 5 ∨ f = 6 ∨ f = 7)) ∨ (m = .drx ∧ (f = 3 ∨ f = 4 ∨ f = 5 ∨ f = 6 ∨ f = 7)) := by
  cases m with
  | tbn => simp [validFilter_tbn]
  | drx => simp [validFilter_drx]

end Validity

section Frequencies

variable {p : Params ℝ ℂ} (hp : Admissible p)

include hp

/-- The code of a frequency from 10 MHz to 88 MHz lies between the codes of the two, since `round` is monotone. -/
theorem roundEven_mem_of_frequency_mem {f : ℝ} (hlow : 10000000 ≤ f) (hhigh : f ≤ 88000000) :
    (p.twMin.toNat : ℤ) ≤ roundEven (f * 2 ^ 32 / p.fsHz) ∧ roundEven (f * 2 ^ 32 / p.fsHz) ≤ p.twMax.toNat := by
  have hfs := hp.fsHz_pos
  rw [twMin_toNat hp, twMax_toNat hp]
  exact ⟨roundEven_mono (by gcongr), roundEven_mono (by gcongr)⟩

/-- Such a frequency has a tuning word, and the word is valid: both bounds fit 32 bits, so what lies between them does. -/
theorem exists_valid_tuningWord {f : ℝ} (hlow : 10000000 ≤ f) (hhigh : f ≤ 88000000) :
    ∃ w : Word, frequencyToTuningWord p.fsHz f = some w ∧ validTW p w = true := by
  obtain ⟨hmin, hmax⟩ := roundEven_mem_of_frequency_mem hp hlow hhigh
  have hfits : roundEven (f * 2 ^ 32 / p.fsHz) < 2 ^ 32 := hmax.trans_lt (by exact_mod_cast p.twMax.isLt)
  have hword : frequencyToTuningWord p.fsHz f = some (BitVec.ofInt 32 _) :=
    fieldOf?_isSome 32 _ ((Int.natCast_nonneg _).trans hmin) hfits
  have hcode := (frequencyToTuningWord_eq_some_iff _ _ _).mp hword
  rw [← hcode] at hmin hmax
  exact ⟨_, hword, (validTW_iff p _).mpr ⟨by exact_mod_cast hmin, by exact_mod_cast hmax⟩⟩

end Frequencies

/-! ## What each command answers (R200 to R203) -/

section Commands

variable {R C : Type} {p : Params R C} {m f : BitVec 8} {mode : Mode} {tw : Word} {s : State} {c : Configuration}

theorem configure_of_no_mode (hm : modeOf? m = none) : configure p m f tw s = s.raise (.invalidConfiguration .modeCode) := by
  simp only [configure, hm]

theorem configure_of_invalid_filter (hm : modeOf? m = some mode) (hf : validFilter mode f = false) :
    configure p m f tw s = s.raise (.invalidConfiguration .filterCode) := by
  simp [configure, hm, hf]

theorem configure_of_invalid_tuningWord (hm : modeOf? m = some mode) (hf : validFilter mode f = true) (htw : validTW p tw = false) :
    configure p m f tw s = s.raise (.invalidConfiguration .tuningWord) := by
  simp [configure, hm, hf, htw]

theorem configure_of_valid (hm : modeOf? m = some mode) (hf : validFilter mode f = true) (htw : validTW p tw = true) :
    configure p m f tw s = (s.setConfig ⟨mode, f, tw⟩).respond .empty := by
  simp [configure, hm, hf, htw]

theorem setMode_of_unconfigured (hs : s.config = none) : setMode m s = s.raise (.invalidConfiguration .notConfigured) := by
  simp only [setMode, hs]

theorem setMode_of_no_mode (hs : s.config = some c) (hm : modeOf? m = none) :
    setMode m s = s.raise (.invalidConfiguration .modeCode) := by
  simp only [setMode, hs, hm]

theorem setMode_of_invalid_filter (hs : s.config = some c) (hm : modeOf? m = some mode) (hf : validFilter mode c.filter = false) :
    setMode m s = s.raise (.invalidConfiguration .filterCode) := by
  simp [setMode, hs, hm, hf]

theorem setMode_of_valid (hs : s.config = some c) (hm : modeOf? m = some mode) (hf : validFilter mode c.filter = true) :
    setMode m s = (s.setConfig ⟨mode, c.filter, c.tw⟩).respond .empty := by
  simp [setMode, hs, hm, hf]

theorem setFilter_of_unconfigured (hs : s.config = none) : setFilter f s = s.raise (.invalidConfiguration .notConfigured) := by
  simp only [setFilter, hs]

theorem setFilter_of_invalid_filter (hs : s.config = some c) (hf : validFilter c.mode f = false) :
    setFilter f s = s.raise (.invalidConfiguration .filterCode) := by
  simp [setFilter, hs, hf]

theorem setFilter_of_valid (hs : s.config = some c) (hf : validFilter c.mode f = true) :
    setFilter f s = (s.setConfig ⟨c.mode, f, c.tw⟩).respond .empty := by
  simp [setFilter, hs, hf]

theorem setCfreq_of_unconfigured (hs : s.config = none) : setCfreq p tw s = s.raise (.invalidConfiguration .notConfigured) := by
  simp only [setCfreq, hs]

theorem setCfreq_of_invalid_tuningWord (hs : s.config = some c) (htw : validTW p tw = false) :
    setCfreq p tw s = s.raise (.invalidConfiguration .tuningWord) := by
  simp [setCfreq, hs, htw]

theorem setCfreq_of_valid (hs : s.config = some c) (htw : validTW p tw = true) :
    setCfreq p tw s = (s.setConfig ⟨c.mode, c.filter, tw⟩).respond .empty := by
  simp [setCfreq, hs, htw]

end Commands

/-! ## What may change the configuration (R206) -/

/-- A step that changes the configuration runs one of the four configuration commands. -/
theorem step_changes_config {s t : State} (hstep : step s = .next t) (hne : t.config ≠ s.config) :
    ∃ i r, decode Config.params.fmt s.commandPort = .command i r ∧ writesConfig i = true := by
  obtain rfl | ⟨k, f, r, rfl⟩ | ⟨i, r, hdecode, hexec⟩ := step_next_cases hstep
  · exact absurd rfl hne
  · exact absurd (rejectFrame_config k f r s) hne
  · refine ⟨i, r, hdecode, ?_⟩
    by_contra hwrites
    exact hne (exec_config_eq (s := s.consume r) (Bool.eq_false_iff.mpr hwrites) hexec)

/-- SET_MODE, whichever check it ends at, keeps the filter code and the tuning word. -/
theorem setMode_keeps_filter_tw (m : BitVec 8) (s : State) :
    (setMode m s).config.map (fun c => (c.filter, c.tw)) = s.config.map (fun c => (c.filter, c.tw)) := by
  cases hs : s.config with
  | none => rw [setMode_of_unconfigured hs, raise_config, hs]
  | some c =>
    cases hm : modeOf? m with
    | none => rw [setMode_of_no_mode hs hm, raise_config, hs]
    | some mode =>
      cases hf : validFilter mode c.filter with
      | false => rw [setMode_of_invalid_filter hs hm hf, raise_config, hs]
      | true =>
        rw [setMode_of_valid hs hm hf, respond_config, setConfig_config]
        rfl

/-! ## The obligations of the configuration -/

/-- Settles O12: a command that is not one of the four leaves the configuration as it was, and SET_MODE writes the mode alone. -/
theorem onlyTheSettersWriteTheConfiguration : Obligations.OnlyTheSettersWriteTheConfiguration := by
  refine ⟨fun s t => step_changes_config, fun m s t hexec => ?_⟩
  cases hexec
  exact setMode_keeps_filter_tw m s

/-- Settles O18: the bounds are the codec's words because the block's parameters are admissible. -/
theorem validityPredicates : Obligations.ValidityPredicates :=
  ⟨fun _ => rfl, validFilter_iff, validTW_iff Config.params,
    (frequencyToTuningWord_eq_some_iff _ _ _).mpr (twMin_toNat Config.params_admissible),
    (frequencyToTuningWord_eq_some_iff _ _ _).mpr (twMax_toNat Config.params_admissible)⟩

/-- Settles O19, from the monotonicity of `round` and the words of both ends. -/
theorem everyFrequencyInRangeIsAccepted : Obligations.EveryFrequencyInRangeIsAccepted := fun _ _ hp => exists_valid_tuningWord hp

/-- Settles O20: the checks in their order, each past those before it. -/
theorem configureWritesAllOrRaises : Obligations.ConfigureWritesAllOrRaises := by
  refine fun m f tw s => ⟨fun h0 h1 => ?_, fun mode hm hf => ?_, fun mode hm hf htw => ?_, fun mode hm hf htw => ?_⟩
  · exact congrArg _ (configure_of_no_mode ((modeOf?_eq_none_iff m).mpr ⟨h0, h1⟩))
  · exact congrArg _ (configure_of_invalid_filter hm hf)
  · exact congrArg _ (configure_of_invalid_tuningWord hm hf htw)
  · exact congrArg _ (configure_of_valid hm hf htw)

/-- Settles O21: the checks in their order, each past those before it. -/
theorem setModeWritesTheModeOrRaises : Obligations.SetModeWritesTheModeOrRaises := by
  refine fun m s => ⟨fun hs => congrArg _ (setMode_of_unconfigured hs), fun c hs => ⟨fun h0 h1 => ?_, fun mode hm hf => ?_, ?_⟩⟩
  · exact congrArg _ (setMode_of_no_mode hs ((modeOf?_eq_none_iff m).mpr ⟨h0, h1⟩))
  · exact congrArg _ (setMode_of_invalid_filter hs hm hf)
  · exact fun mode hm hf => congrArg _ (setMode_of_valid hs hm hf)

/-- Settles O22: the checks in their order, each past those before it. -/
theorem setFilterWritesTheFilterOrRaises : Obligations.SetFilterWritesTheFilterOrRaises := by
  refine fun f s => ⟨fun hs => congrArg _ (setFilter_of_unconfigured hs), fun c hs => ⟨fun hf => ?_, fun hf => ?_⟩⟩
  · exact congrArg _ (setFilter_of_invalid_filter hs hf)
  · exact congrArg _ (setFilter_of_valid hs hf)

/-- Settles O23: the checks in their order, each past those before it. -/
theorem setCfreqWritesTheTuningWordOrRaises : Obligations.SetCfreqWritesTheTuningWordOrRaises := by
  refine fun tw s => ⟨fun hs => congrArg _ (setCfreq_of_unconfigured hs), fun c hs => ⟨fun htw => ?_, fun htw => ?_⟩⟩
  · exact congrArg _ (setCfreq_of_invalid_tuningWord hs htw)
  · exact congrArg _ (setCfreq_of_valid hs htw)

end Sys2Proof.Machine
end

section
/-! SUPPORT. Errors (R226): a command or a frame whose response is an error leaves everything else of the state as it was, and the
block goes on after that one frame. -/

namespace Sys2Proof.Machine

/-- The response that `answered` puts on the port is read off the port's end. -/
theorem response_of_answered_responsePort {s : State} {r r' : Response}
    (h : (answered s r).responsePort = s.responsePort ++ [r']) : r = r' :=
  List.singleton_injective (List.append_cancel_left h)

/-- A command that answers an error does nothing else: of the effects of a command, only `raised` answers an error, and the others
answer OK. -/
theorem exec_eq_answered_of_error {i : Instr} {s t : State} {e : CommandError} (hexec : exec i s = .next t)
    (herror : t.responsePort = s.responsePort ++ [.error e]) : t = answered s (.error e) := by
  have effect := exec_effect i s
  rw [hexec] at effect
  cases effect with
  | raised e' => rw [response_of_answered_responsePort herror]
  | wroteConfig c _ => cases response_of_answered_responsePort (s := { s with config := some c }) herror
  | wroteBank b _ => cases response_of_answered_responsePort (s := { s with bank := b }) herror
  | processed payload _ _ => cases response_of_answered_responsePort herror

/-- What it takes for words to decode as illegal (R92, R93): a whole frame, and the words after it. -/
theorem decode_eq_illegal {R C : Type} {fmt : SampleFormat R C} {ws frame rest : List Word} {k : Nat}
    (h : decode fmt ws = .illegal k frame rest) :
    ∃ n, frameLength? fmt ws = some n ∧ n ≤ ws.length ∧ frame = ws.take n ∧ rest = ws.drop n := by
  unfold decode at h
  split at h
  · cases h
  · rename_i n hn
    split at h
    · cases h
    · rename_i hle
      refine ⟨n, hn, not_lt.mp hle, ?_⟩
      unfold decodeFrame at h
      split at h
      · cases h
        exact ⟨rfl, rfl⟩
      · split at h <;> cases h
        exact ⟨rfl, rfl⟩

/-- A step that answers an error takes one whole frame off the command port and does nothing else: the frame is rejected, or its
command raises. A waiting step answers nothing. -/
theorem step_eq_answered_of_error {s t : State} {e : CommandError} (hstep : step s = .next t)
    (herror : t.responsePort = s.responsePort ++ [.error e]) :
    ∃ n, frameLength? Config.params.fmt s.commandPort = some n ∧ n ≤ s.commandPort.length ∧
      t = answered (s.consume (s.commandPort.drop n)) (.error e) := by
  obtain ⟨-, hwait⟩ | ⟨k, frame, rest, hdecode, hreject⟩ | ⟨i, rest, hdecode, hcommand⟩ := step_cases s
  · cases hwait.symm.trans hstep
    exact absurd (List.self_eq_append_right.mp herror) (List.cons_ne_nil _ _)
  · obtain ⟨n, hlength, hcomplete, -, rfl⟩ := decode_eq_illegal hdecode
    cases hreject.symm.trans hstep
    have hinfo : Response.error (.illegalCommand (illegalInfo k frame)) = .error e :=
      response_of_answered_responsePort (s := s.consume (s.commandPort.drop n)) herror
    exact ⟨n, hlength, hcomplete, congrArg (answered _) hinfo⟩
  · obtain ⟨n, -, hlength, hcomplete, -, -, -, rfl⟩ := decode_eq_command hdecode
    exact ⟨n, hlength, hcomplete, exec_eq_answered_of_error (hcommand.symm.trans hstep) herror⟩

/-- Settles O11: by `exec_eq_answered_of_error` and `step_eq_answered_of_error`; the status word of an error is its whole response. -/
theorem errorsWriteNoState : Obligations.ErrorsWriteNoState :=
  ⟨fun _ _ _ _ => exec_eq_answered_of_error, fun _ _ _ => step_eq_answered_of_error, fun _ => rfl⟩

end Sys2Proof.Machine
end

section
/-! SUPPORT. What one output reads: the window of the two decimators (R254, R146, R147), and the samples of the beams from output 31
on (R255, R172 to R176). -/

namespace Sys2Proof.Machine

/-! ## The window of the decimators (R254) -/

/-- Output n of FIRF reads the samples from `n - (M - 1)` to n only (R17). -/
theorem firValue_congr {h : List ℝ} {f g : Nat → ℂ} {n : Nat} (hwindow : ∀ k < h.length, k ≤ n → f (n - k) = g (n - k)) :
    firValue h f n = firValue h g n :=
  Finset.sum_congr rfl fun k hk => by
    split
    · rename_i hkn
      rw [hwindow k (Finset.mem_range.mp hk) hkn]
    · rfl

theorem cicValue_congr {pack : FilterPack ℝ} {f g : Nat → ℂ} {i : Nat}
    (hwindow : ∀ k < pack.cic.length, k ≤ i * pack.cicD → f (i * pack.cicD - k) = g (i * pack.cicD - k)) :
    cicValue pack f i = cicValue pack g i := by
  rw [cicValue, cicValue, firValue_congr fun k hk => hwindow k (by simpa using hk)]

/-- Tap k of the FIR filter reads the CIC's output `j·firD - k`, whose input stands k·cicD before `j·totalD`. -/
theorem firIndex_mul_cicD {R : Type} (pack : FilterPack R) {j k : Nat} (hk : k ≤ j * pack.firD) :
    (j * pack.firD - k) * pack.cicD + k * pack.cicD = j * pack.totalD := by
  rw [← Nat.add_mul, Nat.sub_add_cancel hk, pack.totalD_eq, Nat.mul_assoc, Nat.mul_comm pack.firD]

/-- The window of the two decimators in series: the FIR filter's, `cicD` inputs to a tap, then the CIC filter's. -/
theorem firOutValue_cicValue_congr {pack : FilterPack ℝ} {f g : Nat → ℂ} {j : Nat}
    (hwindow : ∀ n ≤ j * pack.totalD,
      j * pack.totalD ≤ n + (pack.cic.length - 1) + (pack.fir.length - 1) * pack.cicD → f n = g n) :
    firOutValue pack (cicValue pack f) j = firOutValue pack (cicValue pack g) j := by
  refine firValue_congr fun k hk hkj => cicValue_congr fun m hm hmk => hwindow _ ?_ ?_
  all_goals
    have hindex := firIndex_mul_cicD pack hkj
    have hback : k * pack.cicD ≤ (pack.fir.length - 1) * pack.cicD := Nat.mul_le_mul_right _ (by omega)
    omega

theorem lt_ceilDiv_of_mul_lt {j a d : Nat} (hd : 0 < d) (h : j * d < a) : j < ceilDiv a d := by
  have hmul : (j + 1) * d ≤ a + d - 1 := by
    rw [Nat.succ_mul]
    omega
  exact (Nat.le_div_iff_mul_le hd).mpr hmul

theorem decimators_length {R C : Type} (A : Arith R C) (pack : FilterPack R) (d : List C) :
    (firStage A pack (cicStage A pack d)).length = outputLength pack d.length := by
  simp [firStage, cicStage, outputLength]

/-- The output whose window ends inside the stream is one of the stream's outputs, and has the value of the formulas. -/
theorem decimators_getD {pack : FilterPack ℝ} {d : List ℂ} {j : Nat} (hj : j * pack.totalD < d.length) :
    (firStage exactArith pack (cicStage exactArith pack d)).getD j 0 =
      firOutValue pack (cicValue pack fun n => d.getD n 0) j := by
  have htotal : 0 < pack.totalD := pack.totalD_eq ▸ Nat.mul_pos pack.cicD_pos pack.firD_pos
  have hd : HasValues d fun n => d.getD n 0 := fun _ _ => rfl
  refine hasValues_firStage (hasValues_cicStage hd pack) pack j ?_
  rw [decimators_length, outputLength_eq_ceilDiv_totalD]
  exact lt_ceilDiv_of_mul_lt htotal hj

/-- Settles O45: both outputs have the value of the formulas, which read the window only. -/
theorem decimatorsReadTheirWindow : Obligations.DecimatorsReadTheirWindow := by
  intro pack d e j hlength hj hwindow
  rw [decimators_getD hj, decimators_getD (hlength ▸ hj)]
  exact firOutValue_cicValue_congr hwindow

/-! ## The beams from output 31 on (R255) -/

theorem coarse_le_maxCoarse {R : Type} {as : List (Antenna R)} {a : Antenna R} (ha : a ∈ as) : a.coarse ≤ maxCoarse as := by
  induction as with
  | nil => exact absurd ha List.not_mem_nil
  | cons b bs ih =>
    obtain rfl | hmem := List.mem_cons.mp ha
    · exact le_max_left _ _
    · exact (ih hmem).trans (le_max_right _ _)

/-- For output 31 and every later one, every tap's sample lies inside the antenna's stream. -/
theorem coarse_add_tap_le {R : Type} {as : List (Antenna R)} {a : Antenna R} (ha : a ∈ as) {j : Nat} (hj : 31 ≤ j) (k : Fin NTAPS) :
    a.coarse + k.val ≤ j + maxCoarse as := by
  have hcoarse := coarse_le_maxCoarse ha
  have hk : k.val < 32 := k.isLt
  omega

/-- Where every tap's sample lies inside the stream, no index wraps and no tap is left out (R172, R173). -/
theorem streamValue_of_inside {bank : Bank} {a : Antenna ℝ} {n : Nat} (hn : n < a.samples.length)
    (hinside : ∀ k : Fin NTAPS, a.coarse + k.val ≤ n) :
    streamValue bank a n = ∑ k : Fin NTAPS, (bankTap bank a.channel a.fine k : ℝ) / 32767 * a.samples.getD (n - a.coarse - k.val) 0 :=
  Finset.sum_congr rfl fun k _ => by
    have hk := hinside k
    have hindex : (((n : Int) - k.val - a.coarse) % (a.samples.length : Int)).toNat = n - a.coarse - k.val := by
      rw [Int.emod_eq_of_lt (by omega) (by omega)]
      omega
    rw [if_pos (by omega), hindex]

/-- Settles O53: the beams are the weighted sums of the antennas' streams, whose samples from 31 on are unwrapped sums. -/
theorem beamsAreCleanFromSample31 : Obligations.BeamsAreCleanFromSample31 := by
  intro bank len ants hants j hj hjlen
  have hinside : ∀ a ∈ ants, ∀ k : Fin NTAPS, a.coarse + k.val ≤ j + maxCoarse ants := fun a ha => coarse_add_tap_le ha hj
  have hstream : ∀ a ∈ ants, streamValue bank a (j + maxCoarse ants) = ∑ k : Fin NTAPS,
      (bankTap bank a.channel a.fine k : ℝ) / 32767 * a.samples.getD (j + maxCoarse ants - a.coarse - k.val) 0 := by
    intro a ha
    obtain ⟨hlength, -⟩ := hants a ha
    exact streamValue_of_inside (by omega) (hinside a ha)
  obtain ⟨-, -, hvalues⟩ := beamsAreTheWeightedSums bank len ants hants
  obtain ⟨hx, hy⟩ := hvalues j hjlen
  refine ⟨hinside, hx.trans ?_, hy.trans ?_⟩
  all_goals exact congrArg List.sum (List.map_congr_left fun a ha => congrArg _ (hstream a ha))

end Sys2Proof.Machine
end
